-- ==== Sys2Proof/Word.lean ====
section
/-! DEFINITION. The words of the core (00_scope R7, R9): every value is unsigned. -/

namespace Sys2Proof

/-- A register-window word, `REG_W` = 32 bits (00_scope R7). -/
abbrev Word := BitVec 32

/-- A byte of a symbol channel, `SYM_BITS` = 8 bits (00_scope R7). -/
abbrev Byte := BitVec 8

/-- A symbol as a header leaf carries it, `SYM_W` = 9 bits (00_scope R7, R17). -/
abbrev Sym := BitVec 9

/-- A byte address of the register window, `ADDR_W` = 16 bits (00_scope R7). -/
abbrev Addr := BitVec 16

/-- A node index, 0..512 (00_scope R7, R17; `NODE_CAP` = 513). -/
abbrev NodeIdx := Fin 513

end Sys2Proof
end

