-- ==== Sys2Proof/Machine/Bits.lean ====
section
/-! DEFINITION. Bit sequences (00_scope R10): the first bit in time is the head of the list, and a field
is written most significant bit first (20_memory R63). With them the host-side packing of bits into
bytes (20_memory R66 to R68). -/

namespace Sys2Proof.Machine

/-- `bits_n(v)`: the `n` bits of `v`, most significant first (00_scope R10). -/
def bitsOf : Nat → Nat → List Bool
  | 0, _ => []
  | n + 1, v => v.testBit n :: bitsOf n v

/-- `val(a)`: the number a bit sequence spells, its first bit most significant (00_scope R10). -/
def valOf (bits : List Bool) : Nat :=
  bits.foldl (fun v b => 2 * v + b.toNat) 0

/-- The byte whose bit `7 - k` is the `k`-th of eight bits (20_memory R66). -/
def byteOf (bits : List Bool) : Byte :=
  BitVec.ofNat 8 (valOf bits)

/-- The first `k` bytes of a bit sequence, eight bits each (20_memory R66). -/
def packBytes : Nat → List Bool → List Byte
  | 0, _ => []
  | k + 1, bits => byteOf (bits.take 8) :: packBytes k (bits.drop 8)

/-- The zero bits `close()` appends: `(8 - |B| mod 8) mod 8` of them (20_memory R67). -/
def padBits (bits : List Bool) : List Bool :=
  List.replicate ((8 - bits.length % 8) % 8) false

/-- What `close()` packs: the bits and their pad (20_memory R67). -/
def closeBits (bits : List Bool) : List Bool :=
  bits ++ padBits bits

/-- The bytes of a closed bit sequence (20_memory R66, R67). -/
def packBits (bits : List Bool) : List Byte :=
  packBytes ((closeBits bits).length / 8) (closeBits bits)

/-- A byte sequence as bits, each byte most significant bit first (20_memory R68). -/
def unpackBytes (bytes : List Byte) : List Bool :=
  bytes.flatMap fun b => bitsOf 8 b.toNat

/-- A word's low `n` bits: `w[n-1:0]`, zero-extended (00_scope R9). -/
def lowBits (n : Nat) (w : Word) : Word :=
  BitVec.ofNat 32 (w.toNat % 2 ^ n)

end Sys2Proof.Machine
end

