-- ==== Sys2Proof/Syntax.lean ====
section
/-! DEFINITION. The instructions: one constructor for each row of spec/opcode_table.json, the ten
commands of 30_encoding R96 and the two header tokens of 30_encoding R99. -/

namespace Sys2Proof

/-- The rows of the opcode table. No command has an operand (30_encoding R90). A leaf token carries the
symbol `sym`, a natural number below 2^9 (00_scope R14; the bound is checked in WellFormed). -/
inductive Instr where
  | buildTree
  | genCodes
  | hdrEncode
  | hdrDecode
  | streamEncode
  | streamDecode
  | magicWrite
  | magicCheck
  | compress
  | decompress
  | internal
  | leaf (sym : Nat)
deriving DecidableEq, Repr, Inhabited

end Sys2Proof
end

