-- ==== Sys2Proof/WellFormed.lean ====
section
/-! DEFINITION. Which instructions the encodings of 30_encoding can carry. -/

namespace Sys2Proof

/-- A leaf token holds a symbol of nine bits (30_encoding R99, R101: 0..511, all accepted). The commands
and the internal token have no operand, so they are always well formed (30_encoding R90). -/
def Instr.wellFormed : Instr → Bool
  | .buildTree => true
  | .genCodes => true
  | .hdrEncode => true
  | .hdrDecode => true
  | .streamEncode => true
  | .streamDecode => true
  | .magicWrite => true
  | .magicCheck => true
  | .compress => true
  | .decompress => true
  | .internal => true
  | .leaf sym => decide (sym < 512)

end Sys2Proof
end

