-- ==== Sys2Proof/Decode.lean ====
section
/-! DEFINITION. The decoder of command words (30_encoding R88, R94 to R97) and of header tokens (R99 to
R102), and the encoder written from the same tables. -/

namespace Sys2Proof

/-- Why the decoder answers no instruction. -/
inductive DecodeReject where
  /-- A command word with `RSVD ≠ 0` (30_encoding R97): it is IllegalCommand. -/
  | reservedBits
  /-- A command word with `OP` in {0x0, 0xB..0xF} (30_encoding R97): it is IllegalCommand. -/
  | reservedOp
  /-- No bit left for a token's tag (42_header_codec R145). -/
  | noTag
  /-- A leaf tag with fewer than nine bits after it (42_header_codec R145). -/
  | cutSymbol
deriving DecidableEq, Repr

/-- The opcode map (30_encoding R96). -/
def decodeOp : Nat → Except DecodeReject Instr
  | 0x1 => .ok .buildTree
  | 0x2 => .ok .genCodes
  | 0x3 => .ok .hdrEncode
  | 0x4 => .ok .hdrDecode
  | 0x5 => .ok .streamEncode
  | 0x6 => .ok .streamDecode
  | 0x7 => .ok .magicWrite
  | 0x8 => .ok .magicCheck
  | 0x9 => .ok .compress
  | 0xA => .ok .decompress
  | _ => .error .reservedOp

/-- A command word: `RSVD` = bits 31..4 must be 0, `OP` = bits 3..0 (30_encoding R94). -/
def decodeCmd (w : Word) : Except DecodeReject Instr :=
  if w.toNat / 16 = 0 then decodeOp (w.toNat % 16) else .error .reservedBits

/-- The header token a bit sequence begins with, and the bits after it (30_encoding R99, R101). -/
def decodeToken : List Bool → Except DecodeReject (Instr × List Bool)
  | [] => .error .noTag
  | false :: rest => .ok (.internal, rest)
  | true :: rest =>
    if rest.length < 9 then .error .cutSymbol
    else .ok (.leaf (Machine.valOf (rest.take 9)), rest.drop 9)

/-- The number of bits of an instruction: a command word has 32 (30_encoding R87), an internal token 1
and a leaf token 10 (30_encoding R99). -/
def encodeWidth : Instr → Nat
  | .internal => 1
  | .leaf _ => 10
  | .buildTree | .genCodes | .hdrEncode | .hdrDecode | .streamEncode | .streamDecode
  | .magicWrite | .magicCheck | .compress | .decompress => 32

/-- The value of an instruction's bits, numbered as the opcode table numbers them (30_encoding R96, R99,
R110): the OP value of a command, `0` for internal, `1` ++ `bits_9(sym)` for a leaf. -/
def encodeWord : Instr → Nat
  | .buildTree => 0x1
  | .genCodes => 0x2
  | .hdrEncode => 0x3
  | .hdrDecode => 0x4
  | .streamEncode => 0x5
  | .streamDecode => 0x6
  | .magicWrite => 0x7
  | .magicCheck => 0x8
  | .compress => 0x9
  | .decompress => 0xA
  | .internal => 0
  | .leaf sym => 0x200 + sym % 512

/-- An instruction's encoding: how many bits, and their value. -/
def encode (i : Instr) : Nat × Nat :=
  (encodeWidth i, encodeWord i)

/-- An instruction's bits in the order a bit channel carries them, first bit first (20_memory R63). -/
def encodeBits (i : Instr) : List Bool :=
  Machine.bitsOf (encodeWidth i) (encodeWord i)

/-- The bits of a header-token row given in whole bytes: its window is 1 bit where one byte holds it
(INTERNAL) and 10 bits where two do (LEAF), and the bits above the window must be 0. -/
def tokenWindow (nbits w : Nat) : Option (List Bool) :=
  let window := if nbits ≤ 8 then 1 else 10
  if w < 2 ^ window then some (Machine.bitsOf window w) else none

/-- The instruction the decoder reads from the bits `w` of an opcode-table row of `nbits` bits: 32 bits
are a command word, 1 to 16 bits a header token. -/
def decodeTableWord (nbits w : Nat) : Option Instr :=
  if nbits = 32 then
    if w < 2 ^ 32 then (decodeCmd (BitVec.ofNat 32 w)).toOption else none
  else if 1 ≤ nbits ∧ nbits ≤ 16 then
    (tokenWindow nbits w).bind fun bits =>
      match decodeToken bits with
      | .ok (i, _) => some i
      | .error _ => none
  else none

end Sys2Proof
end

