-- ==== Sys2Proof/Machine/Node.lean ====
section
/-! DEFINITION. Node-store entries, code-table lengths and tables of a fixed number of entries. -/

namespace Sys2Proof.Machine

/-- A node (00_scope R14; 10_state R35): a leaf with its symbol, or an internal node with the indices of
its left and right children. -/
inductive Node where
  | leaf (sym : Sym)
  | internal (left right : NodeIdx)
deriving DecidableEq, Repr, Inhabited

/-- A CODE_LEN entry (10_state R39): whether the symbol has a code, and the code's length. -/
structure CodeLen where
  valid : Bool
  len : BitVec 9
deriving DecidableEq, Repr, Inhabited

/-- The table whose `i`-th entry is `f i`. -/
def tabulate {α : Type} {n : Nat} (f : Fin n → α) : Vector α n :=
  ⟨(List.ofFn f).toArray, by simp⟩

end Sys2Proof.Machine
end

