-- ==== Sys2Proof/Config.lean ====
section
/-! DEFINITION. What an instance of the core fixes (00_scope R7, R8; 10_state R48), and the free values
(10_state R46, R47). The opaque constants have no body: a claim holds whatever they are. -/

namespace Sys2Proof

/-- `EOS`, the END_OF_STREAM symbol (00_scope R7). -/
def Config.eos : Nat := 256

/-- `NODE_CAP`, the entries of the node store (00_scope R7). -/
def Config.nodeCap : Nat := 513

/-- `MAX_CODE_LEN`, the longest code (00_scope R7; 41_code_table R131). -/
def Config.maxCodeLen : Nat := 256

/-- `MAGIC`, the container's magic word: an open parameter, any 32-bit value (00_scope R8; log 4). -/
opaque Config.magic : Word

/-- `WEIGHT_W - 1`, which lies in 0..31 (log 5). -/
opaque Config.weightIndex : Fin 32

/-- `WEIGHT_W`, the width of a count and of a weight: an open parameter in 1..32 (00_scope R8; log 5). -/
def Config.weightW : Nat := Config.weightIndex.val + 1

/-- Free value: the word a read of NODE[index] draws where it has no meaning (10_state R47; log 6). The
first argument is the number of the draw. -/
opaque Config.drawNode : Nat → Nat → Word

/-- Free value: the word a read of NODE_W[index] draws where it has no meaning (10_state R47; log 6). -/
opaque Config.drawNodeW : Nat → Nat → Word

/-- Free value: what NODE[index] holds at reset (10_state R46; log 7). -/
opaque Config.resetNode : Nat → Nat → Machine.Node

/-- Free value: the bits NODE_W[index] is drawn from at reset (10_state R46; log 7). -/
opaque Config.resetNodeW : Nat → Nat → Word

/-- Free value: what CODE_LEN[s] holds at reset (10_state R46; log 7). -/
opaque Config.resetCodeLen : Nat → Nat → Machine.CodeLen

/-- Free value: what CODE_VAL[s] holds at reset (10_state R46; log 7). -/
opaque Config.resetCodeVal : Nat → Nat → BitVec 256

end Sys2Proof
end

