-- ==== Sys2Proof/Machine/State.lean ====
section
/-! DEFINITION. The state of the core and of its host's side of the channels (10_state R20, R43, R44), the
reasons a step can stop, and the state after power-on reset (10_state R46). -/

namespace Sys2Proof.Machine

/-- STATUS (10_state R25): its five fields. Bits 31..5 read 0 and hold nothing. -/
structure Status where
  busy : Bool
  done : Bool
  error : Bool
  treeValid : Bool
  codesValid : Bool
deriving DecidableEq, Repr, Inhabited

/-- The error kinds of 60_exceptions R206, codes 1 to 7 in this order. -/
inductive ErrKind where
  | badMagicHeader
  | malformedHeader
  | truncatedStream
  | internalEncodingGap
  | illegalCommand
  | sequenceError
  | capacityExceeded
deriving DecidableEq, Repr, Inhabited

/-- The code table (10_state R39, R40): CODE_LEN[0..256] and CODE_VAL[0..256]. -/
structure CodeTable where
  len : Vector CodeLen 257
  val : Vector (BitVec 256) 257
deriving DecidableEq, Repr

/-- An input channel: its whole content and the position of the next item (10_state R44). -/
structure InChannel (α : Type) where
  data : List α
  pos : Nat
deriving DecidableEq, Repr

/-- A pending internal node of a header decode (42_header_codec R145): one that waits for its left
subtree, or one whose left subtree is complete and that waits for its right one. -/
inductive Frame where
  | needLeft (node : NodeIdx)
  | needRight (node left : NodeIdx)
deriving DecidableEq, Repr

/-- The hidden working state of a header decode (10_state R43): `n`, the nodes allocated so far, and the
traversal stack, innermost pending node first (42_header_codec R145). -/
structure HeaderWork where
  alloc : Nat
  stack : List Frame
deriving DecidableEq, Repr

/-- What the host can do to the core (30_encoding R108; 20_memory R70; 70_reset_and_hazards R231). DESIGN
CHOICE: to drain BIT_OUT or SYM_OUT (10_state R44) is to look at it, which takes no step and removes nothing;
only `clearOut` removes data (log 26). -/
inductive HostOp where
  /-- `MemWrite(addr, size, value)`. -/
  | write (addr : Addr) (size : Nat) (value : Word)
  /-- `MemRead(addr, size)`. -/
  | read (addr : Addr) (size : Nat)
  /-- `load.sym`: SYM_IN gets these bytes, position 0. -/
  | loadSym (bytes : List Byte)
  /-- `rewind.sym`: `sym_in_pos <- 0`. -/
  | rewindSym
  /-- `load.bits`: BIT_IN gets these bits, position 0. -/
  | loadBits (bits : List Bool)
  /-- `load.bytes`: BIT_IN gets the unpacked bytes, position 0. -/
  | loadBytes (bytes : List Byte)
  /-- `clear.out`: BIT_OUT and SYM_OUT are emptied. -/
  | clearOut
  /-- `close.out`: BIT_OUT is padded and packed for the host. -/
  | closeOut
  /-- The reset input. -/
  | reset
deriving DecidableEq, Repr

/-- The faults of the model. -/
inductive Fault where
  /-- Raised by GEN_CODES and HDR_ENCODE (and COMPRESS, whose stages they are) when the node store has no
  tree of depth at most `MAX_CODE_LEN` at ROOT. No run reaches such a state (10_state R41, 41_code_table
  R131). Safe: the model stops where the pseudocode's walk would not end or its code would not fit. -/
  | treeTooDeep
deriving DecidableEq, Repr

/-- The refusals of the model: a host action that the spec gives no step (60_exceptions R225), and an
instruction that has no meaning. -/
inductive Refusal where
  /-- Raised by exec alone, for an instruction that has no meaning yet. Safe. -/
  | notModelled (mnemonic : String)
  /-- Raised by BUILD_TREE and COMPRESS when FREQ breaks the weight bound (40_tree_builder R117). Safe. -/
  | weightBound
  /-- Raised by a header token when no header decode is running (42_header_codec R145). Safe. -/
  | noHeaderDecode
  /-- Raised by a register access whose size is not 4 bytes (20_memory R70). Safe. -/
  | accessSize
  /-- Raised by a register access at an address that is not a multiple of 4 (20_memory R70, R73). Safe. -/
  | misaligned
  /-- Raised by a register access at an unmapped address (20_memory R70, R71). Safe. -/
  | unmapped
  /-- Raised by a write to a read-only register (20_memory R70). Safe. -/
  | readOnly
  /-- Raised by any host action but a read of STATUS (or a reset) while BUSY = 1 (20_memory R70,
  70_reset_and_hazards R240). Safe. -/
  | busy
deriving DecidableEq, Repr

/-- The state: the core's registers and tables (10_state R20), the hidden working state (R43), the four
channels (R44), and the model's own record of the host. -/
structure State where
  /-- CMD (10_state R24). -/
  cmd : Word
  /-- STATUS (10_state R25). -/
  status : Status
  /-- ERR.CODE: the kind of the last abort, `none` for code 0 (10_state R30). -/
  err : Option ErrKind
  /-- ERR.INFO_VALID and ERR_INFO: `none` is INFO_VALID = 0 and ERR_INFO = 0 (10_state R30; 60 R213). -/
  errInfo : Option Word
  /-- ROOT (10_state R33). -/
  root : NodeIdx
  /-- NODE_COUNT, 0..513 (10_state R33). -/
  nodeCount : Fin 514
  /-- CUR (10_state R34). -/
  cur : NodeIdx
  /-- FREQ[0..255] (10_state R37); FREQ[256] is the constant 1 (R38). -/
  freq : Vector Word 256
  /-- NODE[0..512] (10_state R35). -/
  nodes : Vector Node 513
  /-- NODE_W[0..512] (10_state R36). -/
  nodeW : Vector Word 513
  /-- CODE_LEN and CODE_VAL (10_state R39, R40). -/
  codes : CodeTable
  /-- SYM_IN and `sym_in_pos` (10_state R44). -/
  symIn : InChannel Byte
  /-- BIT_IN and `bit_in_pos` (10_state R44). -/
  bitIn : InChannel Bool
  /-- BIT_OUT, oldest bit first (10_state R44). -/
  bitOut : List Bool
  /-- SYM_OUT, oldest byte first (10_state R44). -/
  symOut : List Byte
  /-- The working state of a running header decode, `none` when none runs (10_state R43; log 14). -/
  work : Option HeaderWork
  /-- The model's own: the number of the current draw of values without meaning (10_state R47; log 8). -/
  draws : Nat
  /-- The host's pending actions, in its program order (10_state R22; log 1). -/
  host : List HostOp
  /-- The words the host's reads have returned, oldest first (log 13). -/
  reads : List Word
  /-- The bytes the host's last close of BIT_OUT gave (log 13). -/
  packed : List Byte
deriving DecidableEq, Repr

/-- The node store and code table a reset leaves: unspecified values, drawn with the number `k`
(10_state R46; log 7). -/
def resetNodes (k : Nat) : Vector Node 513 :=
  tabulate fun i => Config.resetNode k i.val

/-- See `resetNodes`; a weight has no bit at or above `WEIGHT_W` (10_state R36). -/
def resetNodeW (k : Nat) : Vector Word 513 :=
  tabulate fun i => lowBits Config.weightW (Config.resetNodeW k i.val)

/-- See `resetNodes`. -/
def resetCodes (k : Nat) : CodeTable where
  len := tabulate fun i => Config.resetCodeLen k i.val
  val := tabulate fun i => Config.resetCodeVal k i.val

/-- The state right after power-on reset (10_state R46; 70_reset_and_hazards R231 to R234): the core is
idle with no tree and no code table, the channels are empty, and the host has no pending action. -/
def State.reset : State where
  cmd := 0
  status := { busy := false, done := false, error := false, treeValid := false, codesValid := false }
  err := none
  errInfo := none
  root := 0
  nodeCount := 0
  cur := 0
  freq := Vector.replicate 256 0
  nodes := resetNodes 0
  nodeW := resetNodeW 0
  codes := resetCodes 0
  symIn := { data := [], pos := 0 }
  bitIn := { data := [], pos := 0 }
  bitOut := []
  symOut := []
  work := none
  draws := 0
  host := []
  reads := []
  packed := []

end Sys2Proof.Machine
end

