-- ==== Sys2Proof/Machine/Flags.lean ====
section
/-! DEFINITION. STATUS and ERR: the words they read as (10_state R25, R30), and what the start of a
command, its success and the loss of the tree do to them (10_state R26 to R29). -/

namespace Sys2Proof.Machine

/-- STATUS as it reads: BUSY, DONE, ERROR, TREE_VALID and CODES_VALID in bits 0 to 4 (10_state R25). -/
def Status.word (f : Status) : Word :=
  BitVec.ofNat 32 (f.busy.toNat + 2 * f.done.toNat + 4 * f.error.toNat + 8 * f.treeValid.toNat
    + 16 * f.codesValid.toNat)

/-- The codes of 60_exceptions R206. -/
def ErrKind.code : ErrKind → Nat
  | .badMagicHeader => 1
  | .malformedHeader => 2
  | .truncatedStream => 3
  | .internalEncodingGap => 4
  | .illegalCommand => 5
  | .sequenceError => 6
  | .capacityExceeded => 7

/-- ERR as it reads: CODE in bits 3..0, INFO_VALID in bit 8 (10_state R30). -/
def State.errWord (s : State) : Word :=
  BitVec.ofNat 32 ((s.err.elim 0 ErrKind.code) + 256 * s.errInfo.isSome.toNat)

/-- ERR_INFO as it reads: 0 when INFO_VALID = 0 (10_state R30). -/
def State.errInfoWord (s : State) : Word :=
  s.errInfo.getD 0

/-- A command starts: BUSY is set; DONE, ERROR, ERR and ERR_INFO are cleared (10_state R26, R27). -/
def State.start (s : State) : State :=
  { s with
    status := { s.status with busy := true, done := false, error := false }
    err := none
    errInfo := none }

/-- A command finishes without error: BUSY is cleared, DONE is set (10_state R26, R27). -/
def State.finish (s : State) : State :=
  { s with status := { s.status with busy := false, done := true } }

/-- The node store starts to be rewritten: TREE_VALID and CODES_VALID are cleared (10_state R28, R29;
90_conflicts C8), and what has no meaning from now on is a new draw (10_state R47; log 9). -/
def State.dropTree (s : State) : State :=
  { s with
    status := { s.status with treeValid := false, codesValid := false }
    draws := s.draws + 1 }

end Sys2Proof.Machine
end

