-- ==== Sys2Proof/Machine/Ops.lean ====
section
/-! DEFINITION. The operations the commands share: the channel primitives (00_scope R12), a command's
body, and the one operation that takes an error, an abort (60_exceptions R210). -/

namespace Sys2Proof.Machine

/-- What is left of an input channel. -/
def InChannel.rest {α : Type} (c : InChannel α) : List α :=
  c.data.drop c.pos

/-- The next `n` items and the channel past them; `none` is EOI, with the position unchanged
(20_memory R64, R69). -/
def InChannel.next {α : Type} (n : Nat) (c : InChannel α) : Option (List α × InChannel α) :=
  if c.pos + n ≤ c.data.length then some (c.rest.take n, { c with pos := c.pos + n }) else none

/-- `ReadBits(n)` (20_memory R64). -/
def State.readBits (n : Nat) (s : State) : Option (Nat × State) :=
  match s.bitIn.next n with
  | none => none
  | some (bits, c) => some (valOf bits, { s with bitIn := c })

/-- `WriteBits(n, v)` (20_memory R65). -/
def State.writeBits (n v : Nat) (s : State) : State :=
  { s with bitOut := s.bitOut ++ bitsOf n v }

/-- `ReadSym()` (20_memory R69). -/
def State.readSym (s : State) : Option (Byte × State) :=
  match s.symIn.next 1 with
  | some (b :: _, c) => some (b, { s with symIn := c })
  | _ => none

/-- `WriteSym(b)` (20_memory R69). -/
def State.writeSym (b : Byte) (s : State) : State :=
  { s with symOut := s.symOut ++ [b] }

/-- How a command's body, or a part of it, ends. -/
inductive Body where
  /-- It ran to its end. -/
  | ok (s : State)
  /-- `raise kind(info)` at this state (00_scope R13). -/
  | raised (kind : ErrKind) (info : Option Word) (s : State)
  /-- The model stops. -/
  | fault (f : Fault)
  /-- The spec gives no step (60_exceptions R225). -/
  | refused (r : Refusal)
deriving DecidableEq, Repr

/-- One stage after another: whatever ends the first early ends the whole (00_scope R13; 45 R193, R196). -/
def Body.andThen (b : Body) (next : State → Body) : Body :=
  match b with
  | .ok s => next s
  | .raised kind info s => .raised kind info s
  | .fault f => .fault f
  | .refused r => .refused r

/-- Taking an error: the abort of the running command (60_exceptions R210, R213). STATUS gets BUSY = 0,
DONE = 0 and ERROR = 1, ERR and ERR_INFO get the kind and its value, the hidden working state is gone
(10_state R43), and every effect before the raise stays. Nothing is saved and no vector is entered;
there is no return from an error (60_exceptions R216). -/
def State.abort (kind : ErrKind) (info : Option Word) (s : State) : State :=
  { s with
    status := { s.status with busy := false, done := false, error := true }
    err := some kind
    errInfo := info
    work := none }

/-- A command's end as a step of the machine: an abort is an architectural result (60_exceptions R225). -/
def Body.conclude : Body → Host.Outcome State Fault Refusal
  | .ok s => .next s.finish
  | .raised kind info s => .next (s.abort kind info)
  | .fault f => .fault f
  | .refused r => .refused r

/-- A command: it starts, its body runs, it ends (10_state R26, R27). -/
def runCommand (body : State → Body) (s : State) : Host.Outcome State Fault Refusal :=
  (body s.start).conclude

/-- A command that needs a flag raises SequenceError with its OP before anything else (60 R208). -/
def needs (flag : Bool) (op : Nat) (body : State → Body) (s : State) : Body :=
  if flag then body s else .raised .sequenceError (some (BitVec.ofNat 32 op)) s

/-- A write of an illegal word to CMD: IllegalCommand with the word (30_encoding R97; 60 R207). -/
def illegalCommand (w : Word) (s : State) : State :=
  s.start.abort .illegalCommand (some w)

end Sys2Proof.Machine
end

