-- ==== Sys2Proof/Machine/CodeTable.lean ====
section
/-! DEFINITION. The tree in the node store as a term, and the Code Table Generator: GEN_CODES
(41_code_table R126 to R134). -/

namespace Sys2Proof.Machine

/-- The shape of a tree (42_header_codec R149): its leaves' symbols, left before right. -/
inductive Tree where
  | leaf (sym : Sym)
  | node (left right : Tree)
deriving DecidableEq, Repr

/-- `Shape(i)` (42_header_codec R149), read no deeper than the first argument: `none` if the node store
holds no tree of that depth at `i`. -/
def shapeAt (nodes : Vector Node 513) : Nat → NodeIdx → Option Tree
  | 0, i =>
    match nodes[i] with
    | .leaf sym => some (.leaf sym)
    | .internal _ _ => none
  | d + 1, i =>
    match nodes[i] with
    | .leaf sym => some (.leaf sym)
    | .internal l r =>
      match shapeAt nodes d l, shapeAt nodes d r with
      | some a, some b => some (.node a b)
      | _, _ => none

/-- The tree at ROOT. No tree of a run is deeper than `MAX_CODE_LEN` (41_code_table R131; log 10). -/
def State.tree (s : State) : Option Tree :=
  shapeAt s.nodes Config.maxCodeLen s.root

/-- The table with no valid code (41_code_table R128, R132). -/
def emptyCodes : CodeTable where
  len := Vector.replicate 257 { valid := false, len := 0 }
  val := Vector.replicate 257 0

/-- `Bind(s, k, v)` (41_code_table R128, R129). -/
def CodeTable.bind (sym : Sym) (k v : Nat) (t : CodeTable) : CodeTable :=
  if h : sym.toNat < 257 then
    { len := t.len.set sym.toNat { valid := true, len := BitVec.ofNat 9 k }
      val := t.val.set sym.toNat (BitVec.ofNat 256 v) }
  else t

/-- `Walk(i, k, v)` (41_code_table R128): `k` is the path's length and `v` its value. -/
def Tree.walk : Tree → Nat → Nat → CodeTable → CodeTable
  | .leaf sym, k, v, t => t.bind sym k v
  | .node l r, k, v, t => r.walk (k + 1) (2 * v + 1) (l.walk (k + 1) (2 * v) t)

/-- The code table of a tree (41_code_table R128): a lone leaf gets the one-bit code 0 (R130). -/
def Tree.codeTable : Tree → CodeTable
  | .leaf sym => emptyCodes.bind sym 1 0
  | .node l r => (Tree.node l r).walk 0 0 emptyCodes

/-- GEN_CODES (41_code_table R128). -/
def genCodesBody (s : State) : Body :=
  needs s.status.treeValid 0x2 (fun s =>
    match s.tree with
    | some t => .ok { s with codes := t.codeTable, status := { s.status with codesValid := true } }
    | none => .fault .treeTooDeep) s

/-- GEN_CODES (41_code_table R126). -/
def execGenCodes (s : State) : Host.Outcome State Fault Refusal :=
  runCommand genCodesBody s

end Sys2Proof.Machine
end

