-- ==== Sys2Proof/Machine/HeaderCodec.lean ====
section
/-! DEFINITION. The Header Codec: HDR_ENCODE, HDR_DECODE (42_header_codec R141 to R151) and the two header
tokens they write and read (30_encoding R99). -/

namespace Sys2Proof.Machine

/-- `Emit(i)` (42_header_codec R142). -/
def Tree.emit : Tree → State → State
  | .leaf sym, s => (s.writeBits 1 1).writeBits 9 sym.toNat
  | .node l r, s => r.emit (l.emit (s.writeBits 1 0))

/-- HDR_ENCODE (42_header_codec R142). -/
def hdrEncodeBody (s : State) : Body :=
  needs s.status.treeValid 0x3 (fun s =>
    match s.tree with
    | some t => .ok (t.emit s)
    | none => .fault .treeTooDeep) s

/-- A header decode starts: the tree is dropped, no node is allocated and no node is pending
(42_header_codec R145). -/
def State.beginHeader (s : State) : State :=
  { s.dropTree with work := some { alloc := 0, stack := [] } }

/-- A node of a header is stored, with weight 0 (42_header_codec R145). -/
def State.setNode (i : NodeIdx) (node : Node) (s : State) : State :=
  { s with nodes := s.nodes.set i.val node, nodeW := s.nodeW.set i.val 0 }

/-- `DecodeNode` returns the index `i` with `n` nodes allocated (42_header_codec R145): the innermost
pending node takes it as its left subtree, or as its right one and is then itself returned; with no node
pending it is the root, and the header is complete. -/
def State.deliver (n : Nat) : NodeIdx → List Frame → State → State
  | i, [], s =>
    { s with
      root := i
      nodeCount := Fin.ofNat 514 n
      status := { s.status with treeValid := true }
      work := none }
  | i, .needLeft p :: stack, s => { s with work := some { alloc := n, stack := .needRight p i :: stack } }
  | i, .needRight p l :: stack, s => State.deliver n p stack (s.setNode p (.internal l i))

/-- An internal token: the next node is allocated and waits for its left subtree (42_header_codec R145).
A full node store is CapacityExceeded (R148). Outside a header decode a token has no meaning (log 3). -/
def internalBody (s : State) : Body :=
  match s.work with
  | none => .refused .noHeaderDecode
  | some w =>
    if w.alloc < Config.nodeCap then
      .ok { s with
        work := some { alloc := w.alloc + 1, stack := .needLeft (Fin.ofNat 513 w.alloc) :: w.stack } }
    else .raised .capacityExceeded none s

/-- A leaf token: the next node is allocated, stored as a leaf and returned (42_header_codec R145). -/
def leafBody (sym : Nat) (s : State) : Body :=
  match s.work with
  | none => .refused .noHeaderDecode
  | some w =>
    if w.alloc < Config.nodeCap then
      .ok (State.deliver (w.alloc + 1) (Fin.ofNat 513 w.alloc) w.stack
        (s.setNode (Fin.ofNat 513 w.alloc) (.leaf (BitVec.ofNat 9 sym))))
    else .raised .capacityExceeded none s

/-- What the core reads next from a header: a token and the state past its bits, or an error. -/
inductive Fetched where
  | token (i : Instr) (s : State)
  | raised (kind : ErrKind) (s : State)
deriving DecidableEq, Repr

/-- Reading a token of a header with `n` nodes allocated (42_header_codec R145), in its order: the tag bit
(EOI is MalformedHeader), the capacity test, and after a leaf tag the nine symbol bits. -/
def State.fetchToken (n : Nat) (s : State) : Fetched :=
  match s.readBits 1 with
  | none => .raised .malformedHeader s
  | some (_, s1) =>
    if n < Config.nodeCap then
      match decodeToken s.bitIn.rest with
      | .error _ => .raised .malformedHeader s1
      | .ok (i, _) =>
        match s.readBits (encodeWidth i) with
        | none => .raised .malformedHeader s1
        | some (_, s2) => .token i s2
    else .raised .capacityExceeded s1

/-- A header token's effect (30_encoding R99); a command word is no token. -/
def tokenBody (i : Instr) (s : State) : Body :=
  match i with
  | .internal => internalBody s
  | .leaf sym => leafBody sym s
  | .buildTree | .genCodes | .hdrEncode | .hdrDecode | .streamEncode | .streamDecode
  | .magicWrite | .magicCheck | .compress | .decompress => .refused .noHeaderDecode

/-- One token of the header being decoded: it is read, and it takes effect (42_header_codec R145). -/
def headerStep (s : State) : Body :=
  match s.work with
  | none => .ok s
  | some w =>
    match s.fetchToken w.alloc with
    | .raised kind s1 => .raised kind none s1
    | .token i s1 => tokenBody i s1

/-- `DecodeNode` for the whole header (42_header_codec R145). Every token allocates a node, so after as
many tokens as there are entries left the next one ends the decode (R148). -/
def headerLoop : Nat → State → Body
  | 0, s => headerStep s
  | k + 1, s =>
    (headerStep s).andThen fun t =>
      match t.work with
      | none => .ok t
      | some _ => headerLoop k t

/-- HDR_DECODE (42_header_codec R145). -/
def hdrDecodeBody (s : State) : Body :=
  headerLoop Config.nodeCap s.beginHeader

/-- HDR_ENCODE (42_header_codec R141). -/
def execHdrEncode (s : State) : Host.Outcome State Fault Refusal :=
  runCommand hdrEncodeBody s

/-- HDR_DECODE (42_header_codec R144). -/
def execHdrDecode (s : State) : Host.Outcome State Fault Refusal :=
  runCommand hdrDecodeBody s

/-- A token that ran inside HDR_DECODE: the command goes on while the header is incomplete (BUSY stays 1)
and finishes with it (42_header_codec R146). -/
def Body.concludeToken : Body → Host.Outcome State Fault Refusal
  | .ok s => if s.work.isNone then (Body.ok s).conclude else .next s
  | .raised kind info s => (Body.raised kind info s).conclude
  | .fault f => .fault f
  | .refused r => .refused r

/-- INTERNAL (30_encoding R99; 42_header_codec R145). -/
def execInternal (s : State) : Host.Outcome State Fault Refusal :=
  (internalBody s).concludeToken

/-- LEAF (30_encoding R99, R101; 42_header_codec R145). -/
def execLeaf (sym : Nat) (s : State) : Host.Outcome State Fault Refusal :=
  (leafBody sym s).concludeToken

end Sys2Proof.Machine
end

