-- ==== Sys2Proof/Machine/StreamDecoder.lean ====
section
/-! DEFINITION. The Stream Decoder: STREAM_DECODE (44_stream_decoder R171 to R180). -/

namespace Sys2Proof.Machine

/-- The node a bit leads to (44_stream_decoder R173, R174): bit 0 to the left child, bit 1 to the right
one, and at a leaf (only a leaf root) either bit stays there. -/
def stepNode (nodes : Vector Node 513) (cur : NodeIdx) (bit : Nat) : NodeIdx :=
  match nodes[cur] with
  | .leaf _ => cur
  | .internal l r => if bit = 0 then l else r

/-- `DecodeStep()` (44_stream_decoder R173): `none` is EOI; otherwise whether it returned END, and the
state after it. -/
def decodeStep (s : State) : Option (Bool × State) :=
  match s.readBits 1 with
  | none => none
  | some (bit, s1) =>
    match s1.nodes[stepNode s1.nodes s1.cur bit] with
    | .leaf sym =>
      if sym.toNat = Config.eos then some (true, { s1 with cur := stepNode s1.nodes s1.cur bit })
      else some (false, { s1.writeSym (sym.setWidth 8) with cur := s1.root })
    | .internal _ _ => some (false, { s1 with cur := stepNode s1.nodes s1.cur bit })

/-- The decoder's loop (44_stream_decoder R172). The first argument is how many bits BIT_IN still has:
with none left `ReadBits(1)` is EOI, and the body is truncated (R176). -/
def decodeLoop : Nat → State → Body
  | 0, s => .raised .truncatedStream none s
  | k + 1, s =>
    match decodeStep s with
    | none => .raised .truncatedStream none s
    | some (true, s1) => .ok s1
    | some (false, s1) => decodeLoop k s1

/-- STREAM_DECODE (44_stream_decoder R172). -/
def streamDecodeBody (s : State) : Body :=
  needs s.status.treeValid 0x6 (fun s => decodeLoop s.bitIn.rest.length { s with cur := s.root }) s

/-- STREAM_DECODE (44_stream_decoder R171). -/
def execStreamDecode (s : State) : Host.Outcome State Fault Refusal :=
  runCommand streamDecodeBody s

end Sys2Proof.Machine
end

