-- ==== Sys2Proof/Machine/StreamEncoder.lean ====
section
/-! DEFINITION. The Stream Encoder: STREAM_ENCODE (43_stream_encoder R161 to R166). -/

namespace Sys2Proof.Machine

/-- The code of a symbol goes to BIT_OUT; a symbol without one raises InternalEncodingGap
(43_stream_encoder R162, R163). -/
def State.writeCode (sym : Fin 257) (s : State) : Body :=
  if s.codes.len[sym].valid then
    .ok (s.writeBits s.codes.len[sym].len.toNat s.codes.val[sym].toNat)
  else .raised .internalEncodingGap (some (BitVec.ofNat 32 sym.val)) s

/-- The encoder's loop (43_stream_encoder R162). The first argument is how many bytes SYM_IN still has:
with none left `ReadSym` is EOI, and the code of EOS ends the body. -/
def encodeLoop : Nat → State → Body
  | 0, s => s.writeCode 256
  | k + 1, s =>
    match s.readSym with
    | none => s.writeCode 256
    | some (b, s1) => (s1.writeCode (Fin.ofNat 257 b.toNat)).andThen (encodeLoop k)

/-- STREAM_ENCODE (43_stream_encoder R162). -/
def streamEncodeBody (s : State) : Body :=
  needs s.status.codesValid 0x5 (fun s => encodeLoop s.symIn.rest.length s) s

/-- STREAM_ENCODE (43_stream_encoder R161). -/
def execStreamEncode (s : State) : Host.Outcome State Fault Refusal :=
  runCommand streamEncodeBody s

end Sys2Proof.Machine
end

