-- ==== Sys2Proof/Machine/TreeBuilder.lean ====
section
/-! DEFINITION. The Tree Builder: BUILD_TREE (40_tree_builder R111 to R124). -/

namespace Sys2Proof.Machine

/-- A node index from a number (below `NODE_CAP` wherever a command uses it). -/
def nodeIdx (n : Nat) : NodeIdx :=
  Fin.ofNat 513 n

/-- A node to be stored, with its weight. -/
structure Entry where
  node : Node
  weight : Nat
deriving DecidableEq, Repr

/-- A member of the working set `live`: a node's index and its weight (40_tree_builder R113). -/
structure Live where
  weight : Nat
  index : Nat
deriving DecidableEq, Repr

/-- The order of nodes, `(weight, index)` lexicographically (00_scope R15; 40_tree_builder R115). -/
def Live.before (a b : Live) : Bool :=
  decide (a.weight < b.weight) || (decide (a.weight = b.weight) && decide (a.index < b.index))

/-- `argmin` over the working set, and the set without it (40_tree_builder R113). -/
def takeLeast : List Live → Option (Live × List Live)
  | [] => none
  | x :: xs =>
    match takeLeast xs with
    | none => some (x, xs)
    | some (y, rest) => if y.before x then some (y, x :: rest) else some (x, xs)

/-- The counts of the 257 symbols: FREQ[0..255], and 1 for EOS (10_state R38; 40_tree_builder R113). -/
def counts (freq : Vector Word 256) : List Nat :=
  freq.toList.map BitVec.toNat ++ [1]

/-- The symbols with a non-zero count, ascending, each with its count (40_tree_builder R113, R114): `sym`
is the symbol of the first count. -/
def leafEntries : Nat → List Nat → List Entry
  | _, [] => []
  | sym, f :: fs =>
    if f = 0 then leafEntries (sym + 1) fs
    else { node := .leaf (BitVec.ofNat 9 sym), weight := f } :: leafEntries (sym + 1) fs

/-- The working set of the leaves: every index with its weight, the first index being `i`. -/
def liveOf : Nat → List Entry → List Live
  | _, [] => []
  | i, e :: es => { weight := e.weight, index := i } :: liveOf (i + 1) es

/-- The merge loop (40_tree_builder R113): while two nodes are live, the least becomes the left child and
the next the right child of a new node, whose weight is the exact sum of theirs (R115, R116). The first
argument is how many merges may still be made. -/
def mergeAll : Nat → List Live → List Entry → List Live × List Entry
  | 0, live, es => (live, es)
  | k + 1, live, es =>
    match takeLeast live with
    | none => (live, es)
    | some (a, live1) =>
      match takeLeast live1 with
      | none => (live, es)
      | some (b, live2) =>
        mergeAll k ({ weight := a.weight + b.weight, index := es.length } :: live2)
          (es ++ [{ node := .internal (nodeIdx a.index) (nodeIdx b.index), weight := a.weight + b.weight }])

/-- The Huffman tree of a list of counts (40_tree_builder R113): the index of its root and its nodes by
index. Every merge leaves one node fewer live, so as many merges as there are leaves suffice. -/
def huffman (fs : List Nat) : NodeIdx × List Entry :=
  let leaves := leafEntries 0 fs
  let merged := mergeAll leaves.length (liveOf 0 leaves) leaves
  (nodeIdx (merged.1.head?.elim 0 Live.index), merged.2)

/-- The nodes 0..n-1 are stored; the entries at and above n keep their values (40_tree_builder R112). -/
def State.storeTree (root : NodeIdx) (es : List Entry) (s : State) : State :=
  { s with
    nodes := tabulate fun i => (es[i.val]?).elim s.nodes[i] Entry.node
    nodeW := tabulate fun i => (es[i.val]?).elim s.nodeW[i] fun e => BitVec.ofNat 32 e.weight
    root := root
    nodeCount := Fin.ofNat 514 es.length
    status := { s.status with treeValid := true } }

/-- The weight bound, `Σ FREQ[0..255] + 1 ≤ 2^WEIGHT_W - 1` (40_tree_builder R117): the sum of all 257
counts has at most `weightW` bits. -/
def withinWeightBound (weightW : Nat) (freq : Vector Word 256) : Bool :=
  decide ((counts freq).sum.log2 < weightW)

/-- BUILD_TREE (40_tree_builder R113). A table over the weight bound has no step (R117). -/
def buildTreeBody (weightW : Nat) (s : State) : Body :=
  if withinWeightBound weightW s.freq then
    .ok (s.dropTree.storeTree (huffman (counts s.freq)).1 (huffman (counts s.freq)).2)
  else .refused .weightBound

/-- BUILD_TREE (40_tree_builder R111). -/
def execBuildTree (s : State) : Host.Outcome State Fault Refusal :=
  runCommand (buildTreeBody Config.weightW) s

end Sys2Proof.Machine
end

