-- ==== Sys2Proof/Machine/Container.lean ====
section
/-! DEFINITION. The container commands MAGIC_WRITE and MAGIC_CHECK, and the composite commands COMPRESS and
DECOMPRESS (45_container R186 to R197). -/

namespace Sys2Proof.Machine

/-- MAGIC_WRITE (45_container R186). -/
def magicWriteBody (magic : Word) (s : State) : Body :=
  .ok (s.writeBits 32 magic.toNat)

/-- MAGIC_CHECK (45_container R189). -/
def magicCheckBody (magic : Word) (s : State) : Body :=
  match s.readBits 32 with
  | none => .raised .badMagicHeader none s
  | some (v, s1) =>
    if v = magic.toNat then .ok s1 else .raised .badMagicHeader (some (BitVec.ofNat 32 v)) s1

/-- COMPRESS, its five stages in order (45_container R193). -/
def compressBody (weightW : Nat) (magic : Word) (s : State) : Body :=
  ((((buildTreeBody weightW s).andThen genCodesBody).andThen (magicWriteBody magic)).andThen
    hdrEncodeBody).andThen streamEncodeBody

/-- DECOMPRESS, its three stages in order (45_container R196). -/
def decompressBody (magic : Word) (s : State) : Body :=
  ((magicCheckBody magic s).andThen hdrDecodeBody).andThen streamDecodeBody

/-- MAGIC_WRITE (45_container R186). -/
def execMagicWrite (s : State) : Host.Outcome State Fault Refusal :=
  runCommand (magicWriteBody Config.magic) s

/-- MAGIC_CHECK (45_container R188). -/
def execMagicCheck (s : State) : Host.Outcome State Fault Refusal :=
  runCommand (magicCheckBody Config.magic) s

/-- COMPRESS (45_container R192). -/
def execCompress (s : State) : Host.Outcome State Fault Refusal :=
  runCommand (compressBody Config.weightW Config.magic) s

/-- DECOMPRESS (45_container R195). -/
def execDecompress (s : State) : Host.Outcome State Fault Refusal :=
  runCommand (decompressBody Config.magic) s

end Sys2Proof.Machine
end

