-- ==== Sys2Proof/Machine/Dispatch.lean ====
section
/-! DEFINITION. The meaning of every instruction: one arm for each row of the opcode table. -/

namespace Sys2Proof.Machine

/-- The effect of an instruction on a state. -/
def exec (i : Instr) (s : State) : Host.Outcome State Fault Refusal :=
  match i with
  | .buildTree => Sys2Proof.Machine.execBuildTree s
  | .genCodes => Sys2Proof.Machine.execGenCodes s
  | .hdrEncode => Sys2Proof.Machine.execHdrEncode s
  | .hdrDecode => Sys2Proof.Machine.execHdrDecode s
  | .streamEncode => Sys2Proof.Machine.execStreamEncode s
  | .streamDecode => Sys2Proof.Machine.execStreamDecode s
  | .magicWrite => Sys2Proof.Machine.execMagicWrite s
  | .magicCheck => Sys2Proof.Machine.execMagicCheck s
  | .compress => Sys2Proof.Machine.execCompress s
  | .decompress => Sys2Proof.Machine.execDecompress s
  | .internal => Sys2Proof.Machine.execInternal s
  | .leaf sym => Sys2Proof.Machine.execLeaf sym s

end Sys2Proof.Machine
end

