-- ==== Sys2Proof/Machine/Operands.lean ====
section
/-! DEFINITION. The register window: the words its registers hold (10_state R23 to R40), the address map
(20_memory R71) and what an access reads or stores. Commands have no operands (30_encoding R90). -/

namespace Sys2Proof.Machine

/-- The registers of the window (10_state R23). -/
inductive Reg where
  | cmd
  | status
  | err
  | errInfo
  | root
  | nodeCount
  | cur
  | magic
  | param
  | freq (sym : Fin 257)
  | node (i : NodeIdx)
  | nodeW (i : NodeIdx)
  | codeLen (sym : Fin 257)
  | codeVal (sym : Fin 257) (word : Fin 8)
deriving DecidableEq, Repr

/-- The first nine words of the window, by word number (20_memory R71; 10_state R23). -/
def controlReg : Nat → Option Reg
  | 0 => some .cmd
  | 1 => some .status
  | 2 => some .err
  | 3 => some .errInfo
  | 4 => some .root
  | 5 => some .nodeCount
  | 6 => some .cur
  | 7 => some .magic
  | 8 => some .param
  | _ => none

/-- The address map (20_memory R71), on word-aligned addresses: `none` is an unmapped address. -/
def regAt (addr : Addr) : Option Reg :=
  let a := addr.toNat
  if a < 0x0024 then controlReg (a / 4)
  else if 0x0400 ≤ a ∧ a < 0x0804 then some (.freq (Fin.ofNat 257 ((a - 0x0400) / 4)))
  else if 0x1000 ≤ a ∧ a < 0x1804 then some (.node (Fin.ofNat 513 ((a - 0x1000) / 4)))
  else if 0x2000 ≤ a ∧ a < 0x2804 then some (.nodeW (Fin.ofNat 513 ((a - 0x2000) / 4)))
  else if 0x3000 ≤ a ∧ a < 0x3404 then some (.codeLen (Fin.ofNat 257 ((a - 0x3000) / 4)))
  else if 0x4000 ≤ a ∧ a < 0x6020 then
    some (.codeVal (Fin.ofNat 257 ((a - 0x4000) / 32)) (Fin.ofNat 8 ((a - 0x4000) % 32 / 4)))
  else none

/-- A legal access: 4 bytes, aligned, mapped (20_memory R70). -/
def accessedReg (addr : Addr) (size : Nat) : Except Refusal Reg :=
  if size ≠ 4 then .error .accessSize
  else if addr.toNat % 4 ≠ 0 then .error .misaligned
  else match regAt addr with
    | some r => .ok r
    | none => .error .unmapped

/-- NODE's format (10_state R35): KIND in bit 31; a leaf's symbol in bits 8..0; an internal node's right
child in bits 25..16 and left child in bits 9..0. -/
def nodeWord : Node → Word
  | .leaf sym => BitVec.ofNat 32 (0x80000000 + sym.toNat)
  | .internal left right => BitVec.ofNat 32 (right.val * 65536 + left.val)

/-- A drawn NODE word: any, but its reserved bits read 0 (10_state R35; 93 I22; log 23). -/
def maskNodeWord (w : Word) : Word :=
  if w.getLsbD 31 then w &&& 0x800001FF#32 else w &&& 0x03FF03FF#32

/-- CODE_LEN's format (10_state R39): VALID in bit 31, LEN in bits 8..0. -/
def codeLenWord (e : CodeLen) : Word :=
  BitVec.ofNat 32 (0x80000000 * e.valid.toNat + e.len.toNat)

/-- Word `w` of CODE_VAL: bits 32w+31..32w (10_state R40). -/
def codeValWord (v : BitVec 256) (w : Fin 8) : Word :=
  v.extractLsb' (32 * w.val) 32

/-- PARAM (10_state R31): WEIGHT_W, NODE_CAP, SYM_W and the interface version 1. DESIGN CHOICE: bits 7..6,
which R31 names only through its value for WEIGHT_W = 32, are 0 for every WEIGHT_W (log 25). -/
def paramWord (weightW : Nat) : Word :=
  BitVec.ofNat 32 (weightW + Config.nodeCap * 2 ^ 8 + 9 * 2 ^ 24 + 1 * 2 ^ 28)

/-- Whether NODE[i] and NODE_W[i] have a meaning: they belong to the valid tree (10_state R47). -/
def State.nodeMeant (s : State) (i : NodeIdx) : Bool :=
  s.status.treeValid && decide (i.val < s.nodeCount.val)

/-- What a read of a register returns. An entry of the node store without meaning reads as a draw that
stays the same until the next draw number (10_state R47; 20_memory R74; log 6). -/
def readReg (r : Reg) (s : State) : Word :=
  match r with
  | .cmd => s.cmd
  | .status => s.status.word
  | .err => s.errWord
  | .errInfo => s.errInfoWord
  | .root => BitVec.ofNat 32 s.root.val
  | .nodeCount => BitVec.ofNat 32 s.nodeCount.val
  | .cur => BitVec.ofNat 32 s.cur.val
  | .magic => Config.magic
  | .param => paramWord Config.weightW
  | .freq sym => if h : sym.val < 256 then s.freq[sym.val] else 1
  | .node i => if s.nodeMeant i then nodeWord s.nodes[i] else maskNodeWord (Config.drawNode s.draws i.val)
  | .nodeW i =>
    if s.nodeMeant i then s.nodeW[i] else lowBits Config.weightW (Config.drawNodeW s.draws i.val)
  | .codeLen sym => codeLenWord s.codes.len[sym]
  | .codeVal sym w => codeValWord s.codes.val[sym] w

/-- `MemRead(addr, size)` (20_memory R70). -/
def memRead (addr : Addr) (size : Nat) (s : State) : Except Refusal Word :=
  match accessedReg addr size with
  | .ok r => .ok (readReg r s)
  | .error e => .error e

/-- A host write to FREQ[sym] keeps the low `weightW` bits (10_state R37); one to FREQ[256] is ignored
(10_state R38). -/
def State.writeFreq (weightW : Nat) (sym : Fin 257) (v : Word) (s : State) : State :=
  if h : sym.val < 256 then { s with freq := s.freq.set sym.val (lowBits weightW v) } else s

end Sys2Proof.Machine
end

