-- ==== Sys2Proof/Machine/HostPort.lean ====
section
/-! DEFINITION. The host's side: its register accesses and channel operations (20_memory R70; 30_encoding
R108, R109), the reset input (70_reset_and_hazards R231), and how a step takes the next action. -/

namespace Sys2Proof.Machine

/-- The reset input (70_reset_and_hazards R231): every register takes its reset value, with a new draw for
the tables; the channels and what the host has pending or holds stay (R234; log 19). -/
def State.resetCore (s : State) : State :=
  { State.reset with
    nodes := resetNodes (s.draws + 1)
    nodeW := resetNodeW (s.draws + 1)
    codes := resetCodes (s.draws + 1)
    draws := s.draws + 1
    symIn := s.symIn
    bitIn := s.bitIn
    bitOut := s.bitOut
    symOut := s.symOut
    host := s.host
    reads := s.reads
    packed := s.packed }

/-- Whether the host may act now: while BUSY = 1 it may only read STATUS (20_memory R70;
70_reset_and_hazards R240) or reset the core (R231). -/
def HostOp.allowed (op : HostOp) (busy : Bool) : Bool :=
  match op with
  | .read addr size => !busy || (decide (addr = 4) && decide (size = 4))
  | .reset => true
  | .write _ _ _ | .loadSym _ | .rewindSym | .loadBits _ | .loadBytes _ | .clearOut | .closeOut => !busy

/-- A write to CMD (10_state R24): the word is kept, and a legal word starts its command, an illegal one
is IllegalCommand (30_encoding R97). -/
def writeCmd (exec : Instr → State → Host.Outcome State Fault Refusal) (w : Word) (s : State) :
    Host.Outcome State Fault Refusal :=
  match decodeCmd w with
  | .ok i => exec i { s with cmd := w }
  | .error _ => .next (illegalCommand w { s with cmd := w })

/-- `MemWrite(addr, size, value)` (20_memory R70): CMD and FREQ can be written, no other register. -/
def memWrite (exec : Instr → State → Host.Outcome State Fault Refusal) (addr : Addr) (size : Nat)
    (v : Word) (s : State) : Host.Outcome State Fault Refusal :=
  match accessedReg addr size with
  | .error e => .refused e
  | .ok .cmd => writeCmd exec v s
  | .ok (.freq sym) => .next (s.writeFreq Config.weightW sym v)
  | .ok _ => .refused .readOnly

/-- A host action (30_encoding R108; 70_reset_and_hazards R231, R247). -/
def hostAct (exec : Instr → State → Host.Outcome State Fault Refusal) (op : HostOp) (s : State) :
    Host.Outcome State Fault Refusal :=
  if op.allowed s.status.busy then
    match op with
    | .write addr size v => memWrite exec addr size v s
    | .read addr size =>
      match memRead addr size s with
      | .ok v => .next { s with reads := s.reads ++ [v] }
      | .error e => .refused e
    | .loadSym bytes => .next { s with symIn := { data := bytes, pos := 0 } }
    | .rewindSym => .next { s with symIn := { s.symIn with pos := 0 } }
    | .loadBits bits => .next { s with bitIn := { data := bits, pos := 0 } }
    | .loadBytes bytes => .next { s with bitIn := { data := unpackBytes bytes, pos := 0 } }
    | .clearOut => .next { s with bitOut := [], symOut := [] }
    | .closeOut => .next { s with packed := packBits s.bitOut }
    | .reset => .next s.resetCore
  else .refused .busy

/-- One step. While a header decode runs the core moves: it reads the next token and executes it (log 22).
Otherwise the host performs its next action, and with none pending the core stays idle (60 R223). -/
def stepWith (exec : Instr → State → Host.Outcome State Fault Refusal) (s : State) :
    Host.Outcome State Fault Refusal :=
  match s.work with
  | some w =>
    match s.fetchToken w.alloc with
    | .token i t => exec i t
    | .raised kind t => .next (t.abort kind none)
  | none =>
    match s.host with
    | [] => .next s
    | op :: ops => hostAct exec op { s with host := ops }

/-- The host's `Histogram(S)[sym]` for a byte (00_scope R18). -/
def histogram (bytes : List Byte) (sym : Byte) : Nat :=
  bytes.count sym

/-- The address of FREQ[sym] (10_state R23). -/
def freqAddr (sym : Nat) : Addr :=
  BitVec.ofNat 16 (0x0400 + 4 * sym)

/-- `cmd OP`: the write to CMD that starts a command (30_encoding R108). -/
def cmdOp (i : Instr) : HostOp :=
  .write 0 4 (BitVec.ofNat 32 (encodeWord i))

/-- `freq.load S` (30_encoding R109). -/
def freqLoad (bytes : List Byte) : List HostOp :=
  (List.range 256).map fun sym =>
    .write (freqAddr sym) 4 (BitVec.ofNat 32 (histogram bytes (BitVec.ofNat 8 sym)))

/-- `freq.clear` (30_encoding R109). -/
def freqClear : List HostOp :=
  (List.range 256).map fun sym => .write (freqAddr sym) 4 0

/-- `wait`: in the atomic model one read of STATUS (30_encoding R109). -/
def waitIdle : List HostOp :=
  [.read 4 4]

/-- A state in which the next step fetches and runs the instruction with the opcode-table bits `w` of
`nbits` bits (log 2). A command word is the host's next action on an idle core; a header token's bits are
put before the rest of BIT_IN with a header decode at its first token. -/
def placeInstr (nbits w : Nat) (s : State) : State :=
  if nbits = 32 then
    { s with
      work := none
      status := { s.status with busy := false }
      host := .write 0 4 (BitVec.ofNat 32 w) :: s.host }
  else
    { s with
      work := some { alloc := 0, stack := [] }
      status := { s.status with busy := true, treeValid := false, codesValid := false }
      bitIn :=
        { data := s.bitIn.data.take s.bitIn.pos ++ (tokenWindow nbits w).getD [] ++ s.bitIn.rest
          pos := s.bitIn.pos } }

end Sys2Proof.Machine
end

