-- ==== Sys2Proof/Machine/Step.lean ====
section
/-! DEFINITION. The step of the machine, and the placing of one instruction where it fetches. -/

namespace Sys2Proof.Machine

/-- One step: `stepWith` over `exec`. -/
def step (s : State) : Host.Outcome State Fault Refusal :=
  stepWith exec s

/-- `placeInstr`: the next step runs the instruction with these opcode-table bits. -/
def State.withFetchWord (s : State) (nbits w : Nat) : State :=
  placeInstr nbits w s

end Sys2Proof.Machine
end

