-- ==== Sys2Proof/Safety.lean ====
section
/-! DEFINITION. The terms claims are stated in: trees and codes as the spec describes them, the invariant
of the machine, the host's duties, and what a safe step is. -/

namespace Sys2Proof.Machine

/-- The number of leaves of a tree (10_state R41's `L`). -/
def Tree.leafCount : Tree → Nat
  | .leaf _ => 1
  | .node l r => l.leafCount + r.leafCount

/-- The number of nodes of a tree. -/
def Tree.size : Tree → Nat
  | .leaf _ => 1
  | .node l r => 1 + l.size + r.size

/-- The header of a tree: its tokens in preorder (30_encoding R99, R100). -/
def Tree.header : Tree → List Bool
  | .leaf sym => true :: bitsOf 9 sym.toNat
  | .node l r => false :: (l.header ++ r.header)

/-- The leaves in preorder, each with the path that leads to it: `false` for left, `true` for right
(00_scope R17 "0 = left, 1 = right"; 41_code_table R128). -/
def Tree.paths : Tree → List (Sym × List Bool)
  | .leaf sym => [(sym, [])]
  | .node l r =>
    (l.paths.map fun e => (e.1, false :: e.2)) ++ (r.paths.map fun e => (e.1, true :: e.2))

/-- The codes a tree gives its leaves, in preorder: the paths, but `0` for a lone leaf (41_code_table
R128, R130). -/
def Tree.codePaths : Tree → List (Sym × List Bool)
  | .leaf sym => [(sym, [false])]
  | .node l r => (Tree.node l r).paths

/-- The code a list of leaves gives a symbol: that of its last leaf (41_code_table R129). -/
def lastCode (paths : List (Sym × List Bool)) (sym : Nat) : Option (List Bool) :=
  ((paths.filter fun e => e.1.toNat == sym).getLast?).map Prod.snd

/-- `code(s)` as the code table holds it (30_encoding R105); `none` when VALID = 0 (10_state R39, R40). -/
def CodeTable.codeOf (t : CodeTable) (sym : Fin 257) : Option (List Bool) :=
  if t.len[sym].valid then some (bitsOf t.len[sym].len.toNat t.val[sym].toNat) else none

/-- The codes of a sequence of symbols, one after another (30_encoding R106); `none` when one of them has
no code. -/
def CodeTable.bodyOf (t : CodeTable) : List (Fin 257) → Option (List Bool)
  | [] => some []
  | sym :: syms => (t.codeOf sym).bind fun code => (t.bodyOf syms).map (code ++ ·)

/-- A byte as a symbol (43_stream_encoder R162). -/
def byteSym (b : Byte) : Fin 257 :=
  Fin.ofNat 257 b.toNat

/-- `IsTreeAt nodes i t is`: the node at `i` is the root of a tree of shape `t`, whose nodes have the
indices `is`, in preorder. -/
inductive IsTreeAt (nodes : Vector Node 513) : NodeIdx → Tree → List Nat → Prop
  | leaf (i : NodeIdx) (sym : Sym) (h : nodes[i] = .leaf sym) : IsTreeAt nodes i (.leaf sym) [i.val]
  | node (i l r : NodeIdx) (tl tr : Tree) (il ir : List Nat) (h : nodes[i] = .internal l r)
      (hl : IsTreeAt nodes l tl il) (hr : IsTreeAt nodes r tr ir) :
      IsTreeAt nodes i (.node tl tr) (i.val :: (il ++ ir))

/-- `PreorderAt nodes i j t`: the tree `t` fills the indices `i..j-1` in preorder, as a header decode
stores it (42_header_codec R145). -/
def PreorderAt (nodes : Vector Node 513) : Nat → Nat → Tree → Prop
  | i, j, .leaf sym => j = i + 1 ∧ ∃ h : i < 513, nodes[i] = .leaf sym
  | i, j, .node l r => ∃ m, ∃ h : i < 513, PreorderAt nodes (i + 1) m l ∧ PreorderAt nodes m j r ∧
      ∃ (h1 : i + 1 < 513) (h2 : m < 513), nodes[i] = .internal ⟨i + 1, h1⟩ ⟨m, h2⟩

/-- The pending nodes of a header decode with `n` nodes allocated, innermost first: one that waits for its
left subtree was allocated last; one that waits for its right subtree has a complete left one between it
and `n` (42_header_codec R145). -/
def PendingAt (nodes : Vector Node 513) : Nat → List Frame → Prop
  | n, [] => n = 0
  | n, .needLeft p :: stack => n = p.val + 1 ∧ PendingAt nodes p.val stack
  | n, .needRight p l :: stack =>
    l.val = p.val + 1 ∧ (∃ t, PreorderAt nodes l.val n t) ∧ PendingAt nodes p.val stack

/-- Tree well-formedness (10_state R41): ROOT is the root of a tree whose nodes are, each once, the indices
below NODE_COUNT. -/
def State.TreeWf (s : State) : Prop :=
  ∃ t is, IsTreeAt s.nodes s.root t is ∧ is.Perm (List.range s.nodeCount.val)

/-- The leaves of a tree hold different symbols, none above 256 (10_state R41, for a built tree). -/
def Tree.distinct (t : Tree) : Prop :=
  (t.paths.map fun e => e.1.toNat).Nodup ∧ ∀ e ∈ t.paths, e.1.toNat ≤ 256

/-- Whether a node is a leaf (00_scope R14). -/
def Node.isLeaf : Node → Bool
  | .leaf _ => true
  | .internal _ _ => false

/-- The node a path leads to (00_scope R17 "0 = left, 1 = right"); `none` where it goes on below a leaf. -/
def nodeAtPath (nodes : Vector Node 513) : NodeIdx → List Bool → Option NodeIdx
  | i, [] => some i
  | i, b :: path =>
    match nodes[i] with
    | .leaf _ => none
    | .internal l r => nodeAtPath nodes (if b then r else l) path

/-- Pending nodes, each with its complete left child, that all wait for their right subtree, innermost first
(42_header_codec R145). -/
def waitingRight (ps : List (NodeIdx × NodeIdx)) : List Frame :=
  ps.map fun e => .needRight e.1 e.2

/-- The node store once the subtree at `i` completes the pending nodes `ps`: each is stored with its own left
child, and its right child is the node complete just before it (42_header_codec R145). -/
def closedNodes (ps : List (NodeIdx × NodeIdx)) (i : NodeIdx) (nodes : Vector Node 513) : Vector Node 513 :=
  (ps.zip (i :: ps.map Prod.fst)).foldl (fun ns e => ns.set e.1.1.val (.internal e.1.2 e.2)) nodes

/-- The weights of those nodes are 0 (10_state R36). -/
def closedWeights (ps : List (NodeIdx × NodeIdx)) (ws : Vector Word 513) : Vector Word 513 :=
  ps.foldl (fun ws e => ws.set e.1.val 0) ws

/-- The node that is complete last: the outermost of `ps`, or `i` where there is none. -/
def closedTop (ps : List (NodeIdx × NodeIdx)) (i : NodeIdx) : NodeIdx :=
  ps.getLast?.elim i Prod.fst

/-- The tokens of a tree, in preorder (30_encoding R99). -/
def Tree.tokens : Tree → List Instr
  | .leaf sym => [.leaf sym.toNat]
  | .node l r => .internal :: (l.tokens ++ r.tokens)

/-- The count of a symbol: FREQ[s], and 1 for EOS (10_state R37, R38). -/
def State.count (s : State) (sym : Fin 257) : Nat :=
  if h : sym.val < 256 then s.freq[sym.val].toNat else 1

/-- The symbols with a non-zero count, ascending (40_tree_builder R113, R114). -/
def State.counted (s : State) : List (Fin 257) :=
  (List.finRange 257).filter fun sym => s.count sym ≠ 0

/-- How many symbols below `sym` have a non-zero count (40_tree_builder R114). -/
def State.leafIndex (s : State) (sym : Fin 257) : Nat :=
  (s.counted.filter fun x => x < sym).length

/-- `(NODE_W[i], i) < (NODE_W[j], j)` (00_scope R15). -/
def State.lighter (s : State) (i j : NodeIdx) : Prop :=
  s.nodeW[i].toNat < s.nodeW[j].toNat ∨ (s.nodeW[i].toNat = s.nodeW[j].toNat ∧ i < j)

/-- `c` is in the working set when node `n` is made: it lies below `n`, and no node below `n` has taken it
as a child (40_tree_builder R113). -/
def State.liveAt (s : State) (n c : NodeIdx) : Prop :=
  c < n ∧ ∀ m l r : NodeIdx, m < n → s.nodes[m] = .internal l r → l ≠ c ∧ r ≠ c

/-- A command that ended well: BUSY = 0, DONE = 1, ERROR = 0, ERR = 0, ERR_INFO = 0 (10_state R26, R27,
R30). -/
def State.succeed (s : State) : State :=
  { s with
    status := { s.status with busy := false, done := true, error := false }
    err := none
    errInfo := none }

/-- The state with BIT_IN's position `n` further on. -/
def State.pastBits (n : Nat) (s : State) : State :=
  { s with bitIn := { s.bitIn with pos := s.bitIn.pos + n } }

/-- The state with SYM_IN's position `n` further on. -/
def State.pastSyms (n : Nat) (s : State) : State :=
  { s with symIn := { s.symIn with pos := s.symIn.pos + n } }

/-- `n` steps of the machine, or the stop that ends them. -/
def runSteps : Nat → State → Host.Outcome State Fault Refusal
  | 0, s => .next s
  | n + 1, s =>
    match step s with
    | .next t => runSteps n t
    | .fault f => .fault f
    | .refused r => .refused r

/-- The invariant of the machine. -/
structure State.Inv (s : State) : Prop where
  /-- BUSY is 1 exactly while there is hidden working state (10_state R26, R43). -/
  busy : s.status.busy = s.work.isSome
  /-- DONE and ERROR are never both 1, and neither is 1 while a command runs (10_state R27). -/
  ended : (s.status.done && s.status.error) = false ∧
    (s.status.busy && (s.status.done || s.status.error)) = false
  /-- ERROR is 1 exactly when ERR holds a code (10_state R30). -/
  error : s.status.error = s.err.isSome
  /-- ERR_INFO holds a value only with an error (10_state R30). -/
  info : s.err = none → s.errInfo = none
  /-- CODES_VALID = 1 implies TREE_VALID = 1 (60_exceptions R208). -/
  flags : s.status.codesValid = true → s.status.treeValid = true
  /-- The positions lie within their channels (10_state R44). -/
  positions : s.symIn.pos ≤ s.symIn.data.length ∧ s.bitIn.pos ≤ s.bitIn.data.length
  /-- Counts have no bit at or above WEIGHT_W (10_state R37; 93 I22). -/
  counts : ∀ i : Fin 256, s.freq[i].toNat < 2 ^ Config.weightW
  /-- Weights have no bit at or above WEIGHT_W (10_state R36; 93 I22). -/
  weights : ∀ i : NodeIdx, s.nodeW[i].toNat < 2 ^ Config.weightW
  /-- A valid tree is well formed (10_state R41). -/
  tree : s.status.treeValid = true → s.TreeWf
  /-- A valid code table was generated from the current tree (10_state R29). -/
  codes : s.status.codesValid = true → ∃ t, s.tree = some t ∧ s.codes = t.codeTable
  /-- While a header decode runs there is no valid tree, and the nodes stored so far are those of its
  pending nodes (42_header_codec R145). -/
  work : ∀ w, s.work = some w →
    s.status.treeValid = false ∧ w.alloc ≤ 513 ∧ PendingAt s.nodes w.alloc w.stack

/-- The weight bound of 40_tree_builder R117. -/
def State.WeightBound (s : State) : Prop :=
  (s.freq.toList.map BitVec.toNat).sum + 1 ≤ 2 ^ Config.weightW - 1

/-- The host's duty before COMPRESS for an input (70_reset_and_hazards R236 to R238): FREQ is the input's
histogram, the input is short enough, and SYM_IN holds it at position 0. -/
structure State.Presented (s : State) (input : List Byte) : Prop where
  freq : ∀ i : Fin 256, s.freq[i].toNat = histogram input (BitVec.ofNat 8 i.val)
  short : input.length ≤ 2 ^ Config.weightW - 2
  symIn : s.symIn = { data := input, pos := 0 }

/-- A safe step: it answers a next state. -/
def Safe (o : Host.Outcome State Fault Refusal) : Prop :=
  ∃ t, o = .next t

/-- The commands of 30_encoding R96, header tokens left out. -/
def commands : List Instr :=
  [.buildTree, .genCodes, .hdrEncode, .hdrDecode, .streamEncode, .streamDecode, .magicWrite,
    .magicCheck, .compress, .decompress]

end Sys2Proof.Machine
end

