-- ==== Sys2Proof/Certificates/Slice0/Obligations.lean ====
section
/-! DEFINITION. The statements for the provers. Each docstring names the rules of spec/ it formalises. -/

open Sys2Proof Sys2Proof.Machine

/-- 00_scope R10: `bits_N(v)` is the N-bit sequence of `v`, most significant bit first, and `val` is its
inverse, in which the first bit is the most significant. The two sequences are the rule's own examples. -/
def Obligations.BitSequences : Prop :=
  (∀ n v k, k < n → (bitsOf n v)[k]? = some (v.testBit (n - 1 - k))) ∧
  (∀ (b : Bool) (bits : List Bool), valOf (b :: bits) = b.toNat * 2 ^ bits.length + valOf bits) ∧
  (∀ n v, v < 2 ^ n → (bitsOf n v).length = n ∧ valOf (bitsOf n v) = v) ∧
  (∀ bits : List Bool, bitsOf bits.length (valOf bits) = bits) ∧
  valOf [] = 0 ∧
  bitsOf 9 256 = [true, false, false, false, false, false, false, false, false] ∧
  bitsOf 9 0x41 = [false, false, true, false, false, false, false, false, true]

/-- 20_memory R66 to R68: bit `k` of a stream is bit `7 - k mod 8` of byte `k div 8`; a closed stream has
`(8 - |B| mod 8) mod 8` zero bits after its own; unpacking is the inverse. -/
def Obligations.PackingRule : Prop :=
  (∀ bits : List Bool,
    8 * (packBits bits).length = bits.length + (8 - bits.length % 8) % 8 ∧
    (∀ k (h : k < bits.length), ∃ b, (packBits bits)[k / 8]? = some b ∧ b.getLsbD (7 - k % 8) = bits[k]) ∧
    unpackBytes (packBits bits) = bits ++ List.replicate ((8 - bits.length % 8) % 8) false) ∧
  ∀ bytes : List Byte,
    packBits (unpackBytes bytes) = bytes ∧
    ∀ j k, k < 8 → (unpackBytes bytes)[8 * j + k]? = (bytes[j]?).map fun b => b.getLsbD (7 - k)

/-- 00_scope R12: the four channel primitives. `none` is EOI, which leaves the position unchanged. -/
def Obligations.ChannelPrimitives : Prop :=
  ∀ s : State,
    (∀ n, s.bitIn.pos + n ≤ s.bitIn.data.length →
      s.readBits n = some (valOf ((s.bitIn.data.drop s.bitIn.pos).take n), s.pastBits n)) ∧
    (∀ n, s.bitIn.data.length < s.bitIn.pos + n → s.readBits n = none) ∧
    (∀ n v, s.writeBits n v = { s with bitOut := s.bitOut ++ bitsOf n v }) ∧
    (∀ h : s.symIn.pos < s.symIn.data.length,
      s.readSym = some (s.symIn.data[s.symIn.pos], s.pastSyms 1)) ∧
    (s.symIn.data.length ≤ s.symIn.pos → s.readSym = none) ∧
    ∀ b, s.writeSym b = { s with symOut := s.symOut ++ [b] }

/-- 30_encoding R88, R94: a word is a command exactly when RSVD = 0 and OP names one, and every word is
either one of the ten commands or illegal. -/
def Obligations.CommandDecode : Prop :=
  (∀ (w : Word) (i : Instr), decodeCmd w = .ok i ↔ i ∈ commands ∧ w = BitVec.ofNat 32 (encodeWord i)) ∧
  ∀ w : Word, (∃ e, decodeCmd w = .error e) ↔
    w.toNat / 16 ≠ 0 ∨ w.toNat % 16 ∈ [0x0, 0xB, 0xC, 0xD, 0xE, 0xF]

/-- 30_encoding R96, R99, R110: words of the opcode map and token bits, as the tables write them. -/
def Obligations.SampleWords : Prop :=
  decodeTableWord 32 0x00000001 = some .buildTree ∧
  decodeTableWord 32 0x00000002 = some .genCodes ∧
  decodeTableWord 32 0x00000003 = some .hdrEncode ∧
  decodeTableWord 32 0x00000004 = some .hdrDecode ∧
  decodeTableWord 32 0x00000005 = some .streamEncode ∧
  decodeTableWord 32 0x00000006 = some .streamDecode ∧
  decodeTableWord 32 0x00000007 = some .magicWrite ∧
  decodeTableWord 32 0x00000008 = some .magicCheck ∧
  decodeTableWord 32 0x00000009 = some .compress ∧
  decodeTableWord 32 0x0000000A = some .decompress ∧
  decodeTableWord 32 0x00000000 = none ∧
  decodeTableWord 32 0x0000000B = none ∧
  decodeTableWord 32 0x00000011 = none ∧
  decodeTableWord 8 0x0 = some .internal ∧
  decodeTableWord 16 0x241 = some (.leaf 0x41) ∧
  decodeTableWord 16 0x300 = some (.leaf 256)

/-- 30_encoding R94, R99: decoding what the encoder writes gives the instruction back, with every operand
at every value, whatever bits follow a token. -/
def Obligations.EncodeDecode : Prop :=
  ∀ i : Instr, i.wellFormed = true →
    (i ∈ commands → decodeCmd (BitVec.ofNat 32 (encodeWord i)) = .ok i) ∧
    (i ∉ commands → ∀ rest : List Bool, decodeToken (encodeBits i ++ rest) = .ok (i, rest))

/-- 30_encoding R100: a header of a tree with `L` leaves has `L - 1` internal tokens and `L` leaf tokens,
`11 L - 1` bits, and is self-delimiting. -/
def Obligations.HeaderSelfDelimiting : Prop :=
  (∀ t : Tree,
    t.header = t.tokens.flatMap encodeBits ∧
    t.tokens.count .internal = t.leafCount - 1 ∧
    (t.tokens.filter fun i => i ≠ .internal).length = t.leafCount ∧
    1 ≤ t.leafCount ∧
    t.header.length = 11 * t.leafCount - 1 ∧
    (t.leafCount ≤ 257 → 10 ≤ t.header.length ∧ t.header.length ≤ 2826)) ∧
  ∀ (t u : Tree) (r r' : List Bool), t.header ++ r = u.header ++ r' → t = u ∧ r = r'

/-- 30_encoding R102: every bit sequence begins with a complete header or is the beginning of one, so
HDR_DECODE meets no illegal token: it ends well, or BIT_IN ran out, or the node store is full. -/
def Obligations.HeaderDecodeTotal : Prop :=
  (∀ bits : List Bool,
    (∃ (t : Tree) (r : List Bool), bits = t.header ++ r) ∨
    (∃ (t : Tree) (x : List Bool), x ≠ [] ∧ bits ++ x = t.header)) ∧
  ∀ s : State, ∃ t, exec .hdrDecode s = .next t ∧
    (t.err = none ∨ t.err = some .malformedHeader ∨ t.err = some .capacityExceeded) ∧
    t = { s with
      nodes := t.nodes
      nodeW := t.nodeW
      root := t.root
      nodeCount := t.nodeCount
      bitIn := { data := s.bitIn.data, pos := t.bitIn.pos }
      draws := t.draws
      work := none
      status := t.status
      err := t.err
      errInfo := none }

/-- 20_memory R71: which register every mapped word is, and which addresses are unmapped. -/
def Obligations.RegisterMap : Prop :=
  regAt 0x0000 = some .cmd ∧ regAt 0x0004 = some .status ∧ regAt 0x0008 = some .err ∧
  regAt 0x000C = some .errInfo ∧ regAt 0x0010 = some .root ∧ regAt 0x0014 = some .nodeCount ∧
  regAt 0x0018 = some .cur ∧ regAt 0x001C = some .magic ∧ regAt 0x0020 = some .param ∧
  (∀ sym : Fin 257, regAt (BitVec.ofNat 16 (0x0400 + 4 * sym.val)) = some (.freq sym)) ∧
  (∀ i : NodeIdx, regAt (BitVec.ofNat 16 (0x1000 + 4 * i.val)) = some (.node i)) ∧
  (∀ i : NodeIdx, regAt (BitVec.ofNat 16 (0x2000 + 4 * i.val)) = some (.nodeW i)) ∧
  (∀ sym : Fin 257, regAt (BitVec.ofNat 16 (0x3000 + 4 * sym.val)) = some (.codeLen sym)) ∧
  (∀ (sym : Fin 257) (w : Fin 8),
    regAt (BitVec.ofNat 16 (0x4000 + 32 * sym.val + 4 * w.val)) = some (.codeVal sym w)) ∧
  ∀ addr : Addr, regAt addr = none ↔
    (0x0024 ≤ addr.toNat ∧ addr.toNat ≤ 0x03FF) ∨ (0x0804 ≤ addr.toNat ∧ addr.toNat ≤ 0x0FFF) ∨
    (0x1804 ≤ addr.toNat ∧ addr.toNat ≤ 0x1FFF) ∨ (0x2804 ≤ addr.toNat ∧ addr.toNat ≤ 0x2FFF) ∨
    (0x3404 ≤ addr.toNat ∧ addr.toNat ≤ 0x3FFF) ∨ 0x6020 ≤ addr.toNat

/-- 20_memory R70, R74: a legal read returns the register's word and has no side effect; every other size,
a misaligned or unmapped address, a write to a read-only register, and while BUSY = 1 any access but a read
of STATUS, are refused. That while BUSY = 1 the refusal is named `busy`, whatever other reason there is to
refuse, is the model's choice (log 24). (A write to CMD or FREQ has statements of its own.) -/
def Obligations.RegisterAccess : Prop :=
  ∀ (s : State) (ops : List HostOp), s.work = none →
    (∀ addr r, s.status.busy = false → s.host = .read addr 4 :: ops → addr.toNat % 4 = 0 →
      regAt addr = some r → step s = .next { s with host := ops, reads := s.reads ++ [readReg r s] }) ∧
    (∀ addr size, s.host = .read addr size :: ops → size ≠ 4 ∨ addr.toNat % 4 ≠ 0 ∨ regAt addr = none →
      ∃ e, step s = .refused e) ∧
    (∀ addr size v, s.host = .write addr size v :: ops →
      size ≠ 4 ∨ addr.toNat % 4 ≠ 0 ∨ regAt addr = none → ∃ e, step s = .refused e) ∧
    (∀ addr size v r, s.host = .write addr size v :: ops → regAt addr = some r → r ≠ .cmd →
      (∀ sym, r ≠ .freq sym) → ∃ e, step s = .refused e) ∧
    (s.status.busy = true → s.host = .read 0x0004 4 :: ops →
      step s = .next { s with host := ops, reads := s.reads ++ [s.status.word] }) ∧
    (s.status.busy = true → ∀ op, s.host = op :: ops → op ≠ .read 0x0004 4 → op ≠ .reset →
      step s = .refused .busy)

/-- 10_state R25, R30 to R34; 60_exceptions R206: the fields of the control registers, the constants and
the tree registers. That PARAM's bits 7..6 are 0 also for a WEIGHT_W other than 32 is the model's choice
(log 25). -/
def Obligations.ControlWords : Prop :=
  (∀ s : State,
    (readReg .status s).getLsbD 0 = s.status.busy ∧ (readReg .status s).getLsbD 1 = s.status.done ∧
    (readReg .status s).getLsbD 2 = s.status.error ∧ (readReg .status s).getLsbD 3 = s.status.treeValid ∧
    (readReg .status s).getLsbD 4 = s.status.codesValid ∧
    (∀ k, 5 ≤ k → (readReg .status s).getLsbD k = false) ∧
    (readReg .err s).toNat % 16 = s.err.elim 0 ErrKind.code ∧
    (readReg .err s).getLsbD 8 = s.errInfo.isSome ∧
    (∀ k, 4 ≤ k → k ≠ 8 → (readReg .err s).getLsbD k = false) ∧
    (s.errInfo = none → readReg .errInfo s = 0) ∧ (∀ v, s.errInfo = some v → readReg .errInfo s = v) ∧
    (readReg .root s).toNat = s.root.val ∧ (readReg .nodeCount s).toNat = s.nodeCount.val ∧
    (readReg .cur s).toNat = s.cur.val ∧
    readReg .magic s = Config.magic ∧
    (readReg .param s).toNat = Config.weightW + 0x201 * 2 ^ 8 + 9 * 2 ^ 24 + 1 * 2 ^ 28) ∧
  paramWord 32 = 0x19020120 ∧
  [ErrKind.badMagicHeader, .malformedHeader, .truncatedStream, .internalEncodingGap, .illegalCommand,
    .sequenceError, .capacityExceeded].map ErrKind.code = [1, 2, 3, 4, 5, 6, 7]

/-- 10_state R35: `Leaf(s)` reads `0x80000000 | s`, `Internal(l, r)` reads `(r << 16) | l`; the weight of a
meant node reads as it is stored (R36). -/
def Obligations.NodeWords : Prop :=
  ∀ (s : State) (i : NodeIdx), s.status.treeValid = true → i.val < s.nodeCount.val →
    (∀ sym, s.nodes[i] = .leaf sym → readReg (.node i) s = 0x80000000#32 ||| sym.setWidth 32) ∧
    (∀ l r : NodeIdx, s.nodes[i] = .internal l r →
      readReg (.node i) s = (BitVec.ofNat 32 r.val <<< 16) ||| BitVec.ofNat 32 l.val) ∧
    readReg (.nodeW i) s = s.nodeW[i]

/-- 10_state R39, R40: the words of a code-table entry: VALID in bit 31 and LEN in bits 8..0 of CODE_LEN,
and the eight words of CODE_VAL, which together hold its value. -/
def Obligations.CodeTableWords : Prop :=
  ∀ (s : State) (sym : Fin 257),
    (readReg (.codeLen sym) s).getLsbD 31 = s.codes.len[sym].valid ∧
    (readReg (.codeLen sym) s).toNat % 2 ^ 9 = s.codes.len[sym].len.toNat ∧
    (∀ k, 9 ≤ k → k < 31 → (readReg (.codeLen sym) s).getLsbD k = false) ∧
    (∀ (w : Fin 8) (k : Nat), k < 32 →
      (readReg (.codeVal sym w) s).getLsbD k = s.codes.val[sym].getLsbD (32 * w.val + k)) ∧
    s.codes.val[sym].toNat
      = ((List.finRange 8).map fun w => (readReg (.codeVal sym w) s).toNat * 2 ^ (32 * w.val)).sum

/-- 10_state R37, R38: a host write to FREQ[s] keeps the low WEIGHT_W bits, which a read then returns, and
changes nothing else; FREQ[256] reads 1 always, and a write to it is accepted and ignored. -/
def Obligations.FreqWrites : Prop :=
  ∀ (s : State) (ops : List HostOp) (sym : Fin 257) (v : Word), s.work = none → s.status.busy = false →
    s.host = .write (BitVec.ofNat 16 (0x0400 + 4 * sym.val)) 4 v :: ops →
    ∃ t, step s = .next t ∧ t = { s with host := ops, freq := t.freq } ∧
      (sym.val < 256 → (readReg (.freq sym) t).toNat = v.toNat % 2 ^ Config.weightW) ∧
      (sym.val = 256 → t.freq = s.freq) ∧
      (∀ x : Fin 257, x ≠ sym → readReg (.freq x) t = readReg (.freq x) s) ∧
      readReg (.freq 256) s = 1 ∧ readReg (.freq 256) t = 1

/-- 10_state R47: with TREE_VALID = 0 no read shows anything of the node store, and neither does a read of
NODE[i] or NODE_W[i] with i at or above NODE_COUNT. That the words drawn there keep the reserved bits of R35
and R36 at 0 is the model's choice (log 23). -/
def Obligations.MeaninglessReads : Prop :=
  (∀ (s : State) (nodes : Vector Node 513) (ws : Vector Word 513) (r : Reg), s.status.treeValid = false →
    readReg r { s with nodes := nodes, nodeW := ws } = readReg r s) ∧
  ∀ (s : State) (i : NodeIdx), s.status.treeValid = false ∨ s.nodeCount.val ≤ i.val →
    (∀ (nodes : Vector Node 513) (ws : Vector Word 513),
      readReg (.node i) { s with nodes := nodes, nodeW := ws } = readReg (.node i) s ∧
      readReg (.nodeW i) { s with nodes := nodes, nodeW := ws } = readReg (.nodeW i) s) ∧
    ((readReg (.node i) s).getLsbD 31 = true →
      ∀ k, 9 ≤ k → k < 31 → (readReg (.node i) s).getLsbD k = false) ∧
    ((readReg (.node i) s).getLsbD 31 = false →
      ∀ k, (10 ≤ k ∧ k < 16) ∨ (26 ≤ k ∧ k < 31) → (readReg (.node i) s).getLsbD k = false) ∧
    (readReg (.nodeW i) s).toNat < 2 ^ Config.weightW

/-- 10_state R24: a write of a command's word to CMD while BUSY = 0 keeps the word and runs the command;
while BUSY = 1 it is refused. CMD reads the last word written, a command's or not, and 0 after reset. -/
def Obligations.StepRunsTheWrittenCommand : Prop :=
  (∀ (s : State) (ops : List HostOp) (w : Word) (i : Instr), s.work = none → s.status.busy = false →
    s.host = .write 0x0000 4 w :: ops → decodeCmd w = .ok i →
    step s = exec i { s with host := ops, cmd := w }) ∧
  (∀ (s t : State) (ops : List HostOp) (w : Word), s.work = none → s.status.busy = false →
    s.host = .write 0x0000 4 w :: ops → step s = .next t → readReg .cmd t = w) ∧
  (∀ (s : State) (ops : List HostOp) (w : Word), s.work = none → s.status.busy = true →
    s.host = .write 0x0000 4 w :: ops → step s = .refused .busy) ∧
  readReg .cmd State.reset = 0

/-- 42_header_codec R145: a header decode reads the next token of BIT_IN, moves past its bits and takes its
effect; EOI at the tag or in the symbol is MalformedHeader, and a tag read into a full node store is
CapacityExceeded. That each token is a step of the machine of its own (log 3), taken before any pending host
action (log 22), is the model's choice: 00_scope R6 makes the whole command one step. -/
def Obligations.StepRunsTheFetchedToken : Prop :=
  ∀ (s : State) (w : HeaderWork), s.work = some w →
    (∀ i r, w.alloc < 513 → i.wellFormed = true → i ∉ commands → s.bitIn.rest = encodeBits i ++ r →
      step s = exec i (s.pastBits (encodeWidth i))) ∧
    (s.bitIn.rest = [] → step s = .next (s.abort .malformedHeader none)) ∧
    (∀ r, w.alloc < 513 → s.bitIn.rest = true :: r → r.length < 9 →
      step s = .next ((s.pastBits 1).abort .malformedHeader none)) ∧
    (513 ≤ w.alloc → s.bitIn.rest ≠ [] → step s = .next ((s.pastBits 1).abort .capacityExceeded none))

/-- 30_encoding R97: a write of an illegal word to CMD sets ERROR, ERR = 0x105 and ERR_INFO = the word, and
no other state changes (CMD keeps the word, 10_state R24). -/
def Obligations.IllegalCommandWords : Prop :=
  ∀ (s : State) (ops : List HostOp) (w : Word), s.work = none → s.status.busy = false →
    s.host = .write 0x0000 4 w :: ops →
    w.toNat / 16 ≠ 0 ∨ w.toNat % 16 ∈ [0x0, 0xB, 0xC, 0xD, 0xE, 0xF] →
    ∃ t, step s = .next t ∧ readReg .err t = 0x105 ∧ readReg .errInfo t = w ∧
      t = { s with
        host := ops
        cmd := w
        status := { s.status with done := false, error := true }
        err := some .illegalCommand
        errInfo := some w }

/-- 30_encoding R108; 20_memory R67, R68; 60_exceptions R223: the host's channel operations on an idle
core, and the idle core with nothing pending. That `close.out` leaves BIT_OUT itself as it is, is the
model's choice (log 12), as is the idle step (log 22). -/
def Obligations.HostActions : Prop :=
  ∀ (s : State) (ops : List HostOp), s.work = none → s.status.busy = false →
    (∀ bytes, s.host = .loadSym bytes :: ops →
      step s = .next { s with host := ops, symIn := { data := bytes, pos := 0 } }) ∧
    (s.host = .rewindSym :: ops →
      step s = .next { s with host := ops, symIn := { data := s.symIn.data, pos := 0 } }) ∧
    (∀ bits, s.host = .loadBits bits :: ops →
      step s = .next { s with host := ops, bitIn := { data := bits, pos := 0 } }) ∧
    (∀ bytes, s.host = .loadBytes bytes :: ops →
      step s = .next { s with host := ops, bitIn := { data := unpackBytes bytes, pos := 0 } }) ∧
    (s.host = .clearOut :: ops → step s = .next { s with host := ops, bitOut := [], symOut := [] }) ∧
    (s.host = .closeOut :: ops → step s = .next { s with host := ops, packed := packBits s.bitOut }) ∧
    (s.host = [] → step s = .next s)

/-- 70_reset_and_hazards R231 to R234: the reset input on an idle core puts every register the spec gives a
reset value to it, and does not change the channels. What the tables then hold is free. -/
def Obligations.ResetInput : Prop :=
  ∀ (s : State) (ops : List HostOp), s.work = none → s.host = .reset :: ops →
    ∃ t, step s = .next t ∧
      readReg .cmd t = 0 ∧ readReg .status t = 0 ∧ readReg .err t = 0 ∧ readReg .errInfo t = 0 ∧
      readReg .root t = 0 ∧ readReg .nodeCount t = 0 ∧ readReg .cur t = 0 ∧
      (∀ sym : Fin 257, readReg (.freq sym) t = if sym.val < 256 then 0 else 1) ∧
      readReg .magic t = readReg .magic s ∧ readReg .param t = readReg .param s ∧ t.work = none ∧
      t.symIn = s.symIn ∧ t.bitIn = s.bitIn ∧ t.bitOut = s.bitOut ∧ t.symOut = s.symOut ∧ t.host = ops

/-- 10_state R46: what power-on reset leaves. The node store and the code table are free. -/
def Obligations.ResetState : Prop :=
  readReg .cmd State.reset = 0 ∧ readReg .status State.reset = 0 ∧ readReg .err State.reset = 0 ∧
  readReg .errInfo State.reset = 0 ∧ readReg .root State.reset = 0 ∧ readReg .nodeCount State.reset = 0 ∧
  readReg .cur State.reset = 0 ∧ readReg .magic State.reset = Config.magic ∧
  readReg .param State.reset = paramWord Config.weightW ∧
  (∀ sym : Fin 257, readReg (.freq sym) State.reset = if sym.val < 256 then 0 else 1) ∧
  State.reset.work = none ∧
  State.reset.symIn = { data := [], pos := 0 } ∧ State.reset.bitIn = { data := [], pos := 0 } ∧
  State.reset.bitOut = [] ∧ State.reset.symOut = []

/-- 70_reset_and_hazards R235: every command is defined from the reset state. BUILD_TREE builds the
single-leaf tree, and the four commands that need a tree or a code table raise SequenceError. -/
def Obligations.CommandsFromReset : Prop :=
  (∀ i ∈ commands, ∃ t, exec i State.reset = .next t ∧
    (t.err = some .sequenceError ↔ i ∈ [Instr.genCodes, .hdrEncode, .streamDecode, .streamEncode])) ∧
  ∃ t, exec .buildTree State.reset = .next t ∧ t.nodes[(0 : NodeIdx)] = .leaf 256 ∧ t.root = 0 ∧
    t.nodeCount = 1 ∧ t.nodeW[(0 : NodeIdx)] = 1

/-- 10_state R27, R30: a command that ends has cleared BUSY and set exactly one of DONE and ERROR, ERROR
exactly when ERR holds a code; ERR_INFO holds a value only with an error. After reset both are 0. -/
def Obligations.CommandsEnd : Prop :=
  (∀ i ∈ commands, ∀ s t : State, exec i s = .next t →
    t.status.busy = false ∧ t.status.done = !t.status.error ∧ t.status.error = t.err.isSome ∧
    (t.err = none → readReg .err t = 0 ∧ readReg .errInfo t = 0)) ∧
  State.reset.status.done = false ∧ State.reset.status.error = false

/-- 60_exceptions R208: the sequence checks. Each command that needs a flag and lacks it raises
SequenceError with its OP and changes nothing else; the others never raise it; and every instruction keeps
"CODES_VALID = 1 implies TREE_VALID = 1". -/
def Obligations.SequenceErrors : Prop :=
  (∀ s : State, s.work = none → s.status.busy = false →
    (s.status.treeValid = false → ∀ i ∈ [Instr.genCodes, .hdrEncode, .streamDecode],
      exec i s = .next { s with
        status := { s.status with done := false, error := true }
        err := some .sequenceError
        errInfo := some (BitVec.ofNat 32 (encodeWord i)) }) ∧
    (s.status.codesValid = false →
      exec .streamEncode s = .next { s with
        status := { s.status with done := false, error := true }
        err := some .sequenceError
        errInfo := some 0x5 })) ∧
  (∀ i ∈ [Instr.buildTree, .hdrDecode, .magicWrite, .magicCheck, .compress, .decompress],
    ∀ s t : State, exec i s = .next t → t.err ≠ some .sequenceError) ∧
  ∀ (i : Instr) (s t : State), (s.status.codesValid = true → s.status.treeValid = true) →
    exec i s = .next t → t.status.codesValid = true → t.status.treeValid = true

/-- 60_exceptions R206, R213: which errors a command can end with, and what ERR_INFO then holds. -/
def Obligations.ErrorKinds : Prop :=
  ∀ i ∈ commands, ∀ s t : State, exec i s = .next t →
    match t.err with
    | none => t.errInfo = none
    | some .badMagicHeader => i ∈ [Instr.magicCheck, .decompress] ∧
        (t.errInfo = none ∨ ∃ v, v ≠ Config.magic ∧ t.errInfo = some v)
    | some .malformedHeader => i ∈ [Instr.hdrDecode, .decompress] ∧ t.errInfo = none
    | some .truncatedStream => i ∈ [Instr.streamDecode, .decompress] ∧ t.errInfo = none
    | some .internalEncodingGap => i ∈ [Instr.streamEncode, .compress] ∧
        ∃ sym : Fin 257, t.errInfo = some (BitVec.ofNat 32 sym.val)
    | some .illegalCommand => False
    | some .sequenceError => i ∈ [Instr.genCodes, .hdrEncode, .streamEncode, .streamDecode] ∧
        t.errInfo = some (BitVec.ofNat 32 (encodeWord i))
    | some .capacityExceeded => i ∈ [Instr.hdrDecode, .decompress] ∧ t.errInfo = none

/-- 20_memory R75, R83, R85; 10_state R37: no instruction writes SYM_IN, BIT_IN, FREQ, CMD or the host's
record; input positions only advance, and the outputs only grow. -/
def Obligations.ChannelDiscipline : Prop :=
  ∀ (i : Instr) (s t : State), exec i s = .next t →
    t.symIn.data = s.symIn.data ∧ t.bitIn.data = s.bitIn.data ∧
    s.symIn.pos ≤ t.symIn.pos ∧ s.bitIn.pos ≤ t.bitIn.pos ∧
    s.bitOut <+: t.bitOut ∧ s.symOut <+: t.symOut ∧
    t.freq = s.freq ∧ t.cmd = s.cmd ∧ t.host = s.host ∧ t.reads = s.reads ∧ t.packed = s.packed

/-- 40_tree_builder R120, R122: BUILD_TREE within the weight bound ends well from any state, and its tree
with `L` leaves has `2 L - 1` nodes and root `2 L - 2`, leaves below `L`, internal nodes from `L` on, each
with children of lower index. -/
def Obligations.BuildTreeShape : Prop :=
  ∀ s : State, s.WeightBound → ∃ t, exec .buildTree s = .next t ∧
    t.err = none ∧ t.status = { busy := false, done := true, error := false, treeValid := true, codesValid := false } ∧
    1 ≤ s.counted.length ∧ s.counted.length ≤ 257 ∧
    t.nodeCount.val = 2 * s.counted.length - 1 ∧ t.root.val = 2 * s.counted.length - 2 ∧
    t.nodeCount.val ≤ 513 ∧
    (∀ i : NodeIdx, i.val < s.counted.length → ∃ sym, t.nodes[i] = .leaf sym) ∧
    (∀ i : NodeIdx, s.counted.length ≤ i.val → i.val < t.nodeCount.val →
      ∃ l r : NodeIdx, t.nodes[i] = .internal l r ∧ l < i ∧ r < i)

/-- 40_tree_builder R114: the leaf of a symbol has as its index the number of smaller symbols with a
non-zero count, and EOS has index `L - 1`. -/
def Obligations.BuildTreeLeafOrder : Prop :=
  ∀ s t : State, exec .buildTree s = .next t →
    (∀ sym : Fin 257, s.count sym ≠ 0 → ∃ h : s.leafIndex sym < 513,
      t.nodes[s.leafIndex sym] = .leaf (BitVec.ofNat 9 sym.val) ∧
      t.nodeW[s.leafIndex sym].toNat = s.count sym) ∧
    s.leafIndex 256 + 1 = s.counted.length ∧
    (∀ sym sym' : Fin 257, s.count sym ≠ 0 → sym < sym' → s.leafIndex sym < s.leafIndex sym')

/-- 40_tree_builder R115: each internal node takes the two least nodes under the key (weight, index) of
those still live when it is made: the least is its left child, the next its right child. -/
def Obligations.BuildTreeMergeOrder : Prop :=
  ∀ s t : State, exec .buildTree s = .next t →
    ∀ n : NodeIdx, s.counted.length ≤ n.val → n.val < t.nodeCount.val →
      ∃ a b : NodeIdx, t.nodes[n] = .internal a b ∧ t.liveAt n a ∧ t.liveAt n b ∧ t.lighter a b ∧
        ∀ c, t.liveAt n c → c ≠ a → c ≠ b → t.lighter b c

/-- 40_tree_builder R116: a leaf's weight is at least 1, an internal node's weight is the exact sum of its
children's weights, and no weight has a bit at or above WEIGHT_W. -/
def Obligations.BuildTreeWeights : Prop :=
  ∀ s t : State, exec .buildTree s = .next t → ∀ i : NodeIdx, i.val < t.nodeCount.val →
    1 ≤ t.nodeW[i].toNat ∧ t.nodeW[i].toNat ≤ 2 ^ Config.weightW - 1 ∧
    ∀ l r : NodeIdx, t.nodes[i] = .internal l r → t.nodeW[i].toNat = t.nodeW[l].toNat + t.nodeW[r].toNat

/-- 40_tree_builder R117: the model refuses BUILD_TREE and COMPRESS beyond the weight bound; within it the
root's weight is the total and every other weight is smaller; with the histogram of an input the bound is
the input's length limit. -/
def Obligations.WeightBoundRule : Prop :=
  (∀ s : State, ¬ s.WeightBound →
    exec .buildTree s = .refused .weightBound ∧ exec .compress s = .refused .weightBound) ∧
  (∀ s t : State, s.WeightBound → exec .buildTree s = .next t →
    t.nodeW[t.root].toNat = (s.freq.toList.map BitVec.toNat).sum + 1 ∧
    ∀ i : NodeIdx, i.val < t.nodeCount.val → i ≠ t.root → t.nodeW[i].toNat < t.nodeW[t.root].toNat) ∧
  ∀ (s : State) (input : List Byte),
    (∀ i : Fin 256, s.freq[i].toNat = histogram input (BitVec.ofNat 8 i.val)) →
    (s.WeightBound ↔ input.length ≤ 2 ^ Config.weightW - 2)

/-- 40_tree_builder R118, R119: the single-leaf tree of an all-zero table, and the two-leaf tree of a table
with one counted byte, for every WEIGHT_W in 1..32, the configured one among them. -/
def Obligations.SmallTrees : Prop :=
  (∀ s : State, exec .buildTree s = runCommand (buildTreeBody Config.weightW) s) ∧
  1 ≤ Config.weightW ∧ Config.weightW ≤ 32 ∧
  ∀ (width : Nat) (s : State), 1 ≤ width → width ≤ 32 →
    ((∀ x : Fin 256, s.freq[x] = 0) →
      ∃ t, runCommand (buildTreeBody width) s = .next t ∧ t.nodes[(0 : NodeIdx)] = .leaf 256 ∧
        t.nodeW[(0 : NodeIdx)] = 1 ∧ t.root = 0 ∧ t.nodeCount = 1) ∧
    (∀ x : Fin 256, s.freq[x] ≠ 0 → (∀ y : Fin 256, y ≠ x → s.freq[y] = 0) →
      s.freq[x].toNat + 1 ≤ 2 ^ width - 1 →
      ∃ t, runCommand (buildTreeBody width) s = .next t ∧
        t.nodes[(0 : NodeIdx)] = .leaf (BitVec.ofNat 9 x.val) ∧ t.nodes[(1 : NodeIdx)] = .leaf 256 ∧
        t.root = 2 ∧ t.nodeCount = 3 ∧
        (2 ≤ s.freq[x].toNat → t.nodes[(2 : NodeIdx)] = .internal 1 0) ∧
        (s.freq[x].toNat = 1 → t.nodes[(2 : NodeIdx)] = .internal 0 1))

/-- 40_tree_builder R112: BUILD_TREE clears CODES_VALID, sets TREE_VALID, writes the node store below the
new NODE_COUNT, ROOT and NODE_COUNT, and changes no other register and no channel. -/
def Obligations.BuildTreeFrame : Prop :=
  ∀ s t : State, exec .buildTree s = .next t →
    t = { s with
      nodes := t.nodes
      nodeW := t.nodeW
      root := t.root
      nodeCount := t.nodeCount
      draws := t.draws
      status := { busy := false, done := true, error := false, treeValid := true, codesValid := false }
      err := none
      errInfo := none } ∧
    ∀ i : NodeIdx, t.nodeCount.val ≤ i.val → t.nodes[i] = s.nodes[i] ∧ t.nodeW[i] = s.nodeW[i]

/-- 40_tree_builder R121; 45_container R199: BUILD_TREE's tree depends on FREQ alone, and what COMPRESS
appends depends on FREQ, the bytes left in SYM_IN and MAGIC alone. -/
def Obligations.Determinism : Prop :=
  ∀ s s' t t' : State, s.freq = s'.freq →
    (exec .buildTree s = .next t → exec .buildTree s' = .next t' →
      t.root = t'.root ∧ t.nodeCount = t'.nodeCount ∧
      ∀ i : NodeIdx, i.val < t.nodeCount.val → t.nodes[i] = t'.nodes[i] ∧ t.nodeW[i] = t'.nodeW[i]) ∧
    (s.symIn.rest = s'.symIn.rest → exec .compress s = .next t → exec .compress s' = .next t' →
      ∃ out, t.bitOut = s.bitOut ++ out ∧ t'.bitOut = s'.bitOut ++ out)

/-- 41_code_table R127 to R132; 30_encoding R107: GEN_CODES on a valid tree writes the whole code table and
changes no other register but STATUS, ERR and ERR_INFO. A symbol's code is the path to its last leaf in
preorder, `0` for a lone leaf, of 1 to 256 bits, right-aligned in CODE_VAL; a symbol of no leaf has an entry
of zeros. -/
def Obligations.GenCodesResult : Prop :=
  ∀ (s : State) (t : Tree) (is : List Nat), s.status.treeValid = true → IsTreeAt s.nodes s.root t is →
    t.leafCount ≤ 257 →
    ∃ c : CodeTable,
      exec .genCodes s = .next { s.succeed with
        codes := c
        status := { busy := false, done := true, error := false, treeValid := true, codesValid := true } } ∧
      ∀ sym : Fin 257,
        (∀ code, lastCode t.codePaths sym.val = some code →
          c.len[sym] = { valid := true, len := BitVec.ofNat 9 code.length } ∧
          c.val[sym].toNat = valOf code ∧ 1 ≤ code.length ∧ code.length ≤ 256) ∧
        (lastCode t.codePaths sym.val = none → c.len[sym] = { valid := false, len := 0 } ∧ c.val[sym] = 0)

/-- 41_code_table R133; 10_state R42: no valid code begins another one; after BUILD_TREE the symbols with a
code are those with a non-zero count. -/
def Obligations.CodesPrefixFree : Prop :=
  (∀ (s u : State) (t : Tree) (is : List Nat), s.status.treeValid = true → IsTreeAt s.nodes s.root t is →
    t.leafCount ≤ 257 → exec .genCodes s = .next u →
    ∀ (a b : Fin 257) (ca cb : List Bool), a ≠ b → u.codes.codeOf a = some ca → u.codes.codeOf b = some cb →
      ¬ ca <+: cb) ∧
  ∀ s t u : State, exec .buildTree s = .next t → exec .genCodes t = .next u →
    u.status.codesValid = true ∧ ∀ sym : Fin 257, (u.codes.codeOf sym).isSome = true ↔ s.count sym ≠ 0

/-- 42_header_codec R143: HDR_ENCODE on a valid tree appends its header, `11 L - 1` bits, and changes
nothing else but STATUS, ERR and ERR_INFO. -/
def Obligations.HdrEncodeAppendsHeader : Prop :=
  ∀ (s : State) (t : Tree) (is : List Nat), s.status.treeValid = true → IsTreeAt s.nodes s.root t is →
    t.leafCount ≤ 257 →
    exec .hdrEncode s = .next { s.succeed with bitOut := s.bitOut ++ t.header } ∧
    t.header.length = 11 * t.leafCount - 1

/-- 42_header_codec R146, R150: HDR_DECODE of a complete header stores its tree in preorder from index 0
with every weight 0, as a well-formed tree, stands at the first bit after the header, and changes nothing else; node-store entries
from NODE_COUNT on keep what they held. -/
def Obligations.HdrDecodeRebuilds : Prop :=
  ∀ (s : State) (t : Tree) (r : List Bool), s.bitIn.rest = t.header ++ r → t.leafCount ≤ 257 →
    ∃ u, exec .hdrDecode s = .next u ∧
      PreorderAt u.nodes 0 t.size t ∧ u.TreeWf ∧ u.root = 0 ∧ u.nodeCount.val = 2 * t.leafCount - 1 ∧
      u.nodeCount.val = t.size ∧
      (∀ i : NodeIdx, i.val < u.nodeCount.val → u.nodeW[i] = 0) ∧
      (∀ i : NodeIdx, u.nodeCount.val ≤ i.val → u.nodes[i] = s.nodes[i] ∧ u.nodeW[i] = s.nodeW[i]) ∧
      u.bitIn = { data := s.bitIn.data, pos := s.bitIn.pos + (11 * t.leafCount - 1) } ∧
      u.bitIn.rest = r ∧
      u = { s with
        nodes := u.nodes
        nodeW := u.nodeW
        root := u.root
        nodeCount := u.nodeCount
        bitIn := u.bitIn
        draws := u.draws
        work := none
        status := { busy := false, done := true, error := false, treeValid := true, codesValid := false }
        err := none
        errInfo := none }

/-- 42_header_codec R147, R148: HDR_DECODE of a header that BIT_IN cuts short is MalformedHeader, and of one
with more than 257 leaves CapacityExceeded; the tree is lost, and ROOT, NODE_COUNT and everything else but
the node store and BIT_IN's position stay. A cut header leaves fewer than nine bits unread. -/
def Obligations.HdrDecodeAborts : Prop :=
  ∀ (s : State) (t : Tree),
    (∀ x, x ≠ [] → s.bitIn.rest ++ x = t.header → t.leafCount ≤ 257 →
      ∃ u, exec .hdrDecode s = .next u ∧ u.bitIn.rest.length < 9 ∧ u.bitIn.data = s.bitIn.data ∧
        u = { s with
          nodes := u.nodes
          nodeW := u.nodeW
          bitIn := u.bitIn
          draws := u.draws
          work := none
          status := { busy := false, done := false, error := true, treeValid := false, codesValid := false }
          err := some .malformedHeader
          errInfo := none }) ∧
    (∀ r, s.bitIn.rest = t.header ++ r → 257 < t.leafCount →
      ∃ u, exec .hdrDecode s = .next u ∧ u.bitIn.data = s.bitIn.data ∧
        u = { s with
          nodes := u.nodes
          nodeW := u.nodeW
          bitIn := u.bitIn
          draws := u.draws
          work := none
          status := { busy := false, done := false, error := true, treeValid := false, codesValid := false }
          err := some .capacityExceeded
          errInfo := none })

/-- 42_header_codec R149: HDR_DECODE of what HDR_ENCODE appended rebuilds the tree's shape, whatever bits
follow; HDR_ENCODE then appends the same header and GEN_CODES gives the same code table. -/
def Obligations.HeaderSelfConsistency : Prop :=
  ∀ (s : State) (t : Tree) (is : List Nat), s.status.treeValid = true → IsTreeAt s.nodes s.root t is →
    t.leafCount ≤ 257 →
    ∃ (u : State) (h : List Bool), exec .hdrEncode s = .next u ∧ u.bitOut = s.bitOut ++ h ∧
      ∀ (v : State) (r : List Bool), v.bitIn.rest = h ++ r →
        ∃ w, exec .hdrDecode v = .next w ∧ w.err = none ∧ w.bitIn.rest = r ∧
          (∃ js, IsTreeAt w.nodes w.root t js) ∧
          (∃ x, exec .hdrEncode w = .next x ∧ x.bitOut = w.bitOut ++ h) ∧
          ∃ x y, exec .genCodes s = .next x ∧ exec .genCodes w = .next y ∧ x.codes = y.codes

/-- 42_header_codec R145, R148: an internal token takes the next index and waits for its left subtree; with
513 nodes allocated it is CapacityExceeded. Outside a header decode it is refused (log 3). -/
def Obligations.InternalToken : Prop :=
  ∀ s : State,
    (∀ w (h : w.alloc < 513), s.work = some w →
      exec .internal s = .next { s with
        work := some { alloc := w.alloc + 1, stack := .needLeft ⟨w.alloc, h⟩ :: w.stack } }) ∧
    (∀ w, s.work = some w → 513 ≤ w.alloc →
      exec .internal s = .next (s.abort .capacityExceeded none)) ∧
    (s.work = none → exec .internal s = .refused .noHeaderDecode)

/-- 42_header_codec R145, R148: a leaf token is stored at the next index with weight 0. With no pending node
it is the root and the header is complete; it completes the left subtree of a node that waits for one; it
completes a node that waits for its right subtree, which is stored and is complete in turn, and so on up the
stack to the root, or to a node that waits for its left subtree. With 513 nodes allocated it is
CapacityExceeded. Whatever is pending it answers a next state, in which nothing but the
node store, the tree registers, STATUS, ERR and the working state has changed. Outside a header decode it
is refused (log 3). -/
def Obligations.LeafToken : Prop :=
  ∀ (s : State) (sym : Nat), sym < 512 →
    (∀ w (h : w.alloc < 513), s.work = some w →
      (w.stack = [] →
        exec (.leaf sym) s = .next { s with
          nodes := s.nodes.set w.alloc (.leaf (BitVec.ofNat 9 sym))
          nodeW := s.nodeW.set w.alloc 0
          root := ⟨w.alloc, h⟩
          nodeCount := ⟨w.alloc + 1, by omega⟩
          work := none
          status := { s.status with busy := false, done := true, treeValid := true } }) ∧
      (∀ p rest, w.stack = .needLeft p :: rest →
        exec (.leaf sym) s = .next { s with
          nodes := s.nodes.set w.alloc (.leaf (BitVec.ofNat 9 sym))
          nodeW := s.nodeW.set w.alloc 0
          work := some { alloc := w.alloc + 1, stack := .needRight p ⟨w.alloc, h⟩ :: rest } }) ∧
      (∀ p l q rest, w.stack = .needRight p l :: .needLeft q :: rest →
        exec (.leaf sym) s = .next { s with
          nodes := (s.nodes.set w.alloc (.leaf (BitVec.ofNat 9 sym))).set p.val (.internal l ⟨w.alloc, h⟩)
          nodeW := (s.nodeW.set w.alloc 0).set p.val 0
          work := some { alloc := w.alloc + 1, stack := .needRight q p :: rest } }) ∧
      (∀ ps : List (NodeIdx × NodeIdx),
        (w.stack = waitingRight ps →
          exec (.leaf sym) s = .next { s with
            nodes := closedNodes ps ⟨w.alloc, h⟩ (s.nodes.set w.alloc (.leaf (BitVec.ofNat 9 sym)))
            nodeW := closedWeights ps (s.nodeW.set w.alloc 0)
            root := closedTop ps ⟨w.alloc, h⟩
            nodeCount := ⟨w.alloc + 1, by omega⟩
            work := none
            status := { s.status with busy := false, done := true, treeValid := true } }) ∧
        (∀ q rest, w.stack = waitingRight ps ++ .needLeft q :: rest →
          exec (.leaf sym) s = .next { s with
            nodes := closedNodes ps ⟨w.alloc, h⟩ (s.nodes.set w.alloc (.leaf (BitVec.ofNat 9 sym)))
            nodeW := closedWeights ps (s.nodeW.set w.alloc 0)
            work := some { alloc := w.alloc + 1, stack := .needRight q (closedTop ps ⟨w.alloc, h⟩) :: rest } })) ∧
      (∃ t, exec (.leaf sym) s = .next t ∧ t.err = s.err ∧
        t = { s with
          nodes := t.nodes
          nodeW := t.nodeW
          root := t.root
          nodeCount := t.nodeCount
          work := t.work
          status := { s.status with
            busy := t.status.busy, done := t.status.done, treeValid := t.status.treeValid } })) ∧
    (∀ w, s.work = some w → 513 ≤ w.alloc →
      exec (.leaf sym) s = .next (s.abort .capacityExceeded none)) ∧
    (s.work = none → exec (.leaf sym) s = .refused .noHeaderDecode)

/-- 42_header_codec R145: HDR_DECODE is the header decode run one token a step, from a state with no node
allocated to the end of the decode. That a token is a step of its own is the model's choice (logs 3, 14, 22). -/
def Obligations.HeaderDecodeByTokens : Prop :=
  ∀ s : State, ∃ n, n ≤ 514 ∧ runSteps n s.start.beginHeader = exec .hdrDecode s

/-- 30_encoding R105; 43_stream_encoder R162, R166: STREAM_ENCODE with a code for every byte left in SYM_IN
and for EOS appends their codes in order, stands at the end of SYM_IN, and changes nothing else but STATUS,
ERR and ERR_INFO. -/
def Obligations.StreamEncodeResult : Prop :=
  ∀ (s : State) (body : List Bool), s.status.codesValid = true →
    s.codes.bodyOf (s.symIn.rest.map byteSym ++ [256]) = some body →
    exec .streamEncode s
      = .next { (s.pastSyms s.symIn.rest.length).succeed with bitOut := s.bitOut ++ body } ∧
    body.length = ((s.symIn.rest.map byteSym ++ [256]).map fun (sym : Fin 257) => s.codes.len[sym].len.toNat).sum

/-- 43_stream_encoder R163: a byte without a code is InternalEncodingGap with the byte; SYM_IN stands after
it, and BIT_OUT has the codes of the bytes before it and nothing for it. The same with 256 where every byte
has a code and EOS has none. -/
def Obligations.StreamEncodeGap : Prop :=
  ∀ s : State, s.status.codesValid = true →
    (∀ before b after body, s.symIn.rest = before ++ b :: after →
      s.codes.bodyOf (before.map byteSym) = some body → s.codes.codeOf (byteSym b) = none →
      exec .streamEncode s
        = .next { (s.pastSyms (before.length + 1)).abort .internalEncodingGap (some (b.setWidth 32)) with
            bitOut := s.bitOut ++ body }) ∧
    (∀ body, s.codes.bodyOf (s.symIn.rest.map byteSym) = some body → s.codes.codeOf 256 = none →
      exec .streamEncode s
        = .next { (s.pastSyms s.symIn.rest.length).abort .internalEncodingGap (some 256) with
            bitOut := s.bitOut ++ body })

/-- 44_stream_decoder R173, R175, R177: STREAM_DECODE follows the body's codes down the tree, emits the low
eight bits of every leaf symbol but 256, ends well at the first EOS leaf with CUR there, leaves the later
bits unread, and changes nothing else but STATUS, ERR and ERR_INFO. -/
def Obligations.StreamDecodeResult : Prop :=
  ∀ (s : State) (t : Tree) (is : List Nat) (body : List (Sym × List Bool)) (stop : Sym × List Bool)
    (r : List Bool), s.status.treeValid = true → IsTreeAt s.nodes s.root t is →
    (∀ e ∈ body, e ∈ t.codePaths ∧ e.1 ≠ 256) → stop ∈ t.codePaths → stop.1 = 256 →
    s.bitIn.rest = body.flatMap Prod.snd ++ stop.2 ++ r →
    ∃ c : NodeIdx, s.nodes[c] = .leaf 256 ∧
      exec .streamDecode s
        = .next { (s.pastBits ((body.flatMap Prod.snd).length + stop.2.length)).succeed with
            cur := c
            symOut := s.symOut ++ body.map fun e => e.1.setWidth 8 }

/-- 44_stream_decoder R172, R175, R176, R178, R180: STREAM_DECODE with a valid tree always ends, with CUR at
an EOS leaf or in TruncatedStream with all of BIT_IN read; in the latter whenever no leaf of the tree holds
256. It changes no state but CUR, BIT_IN's position, SYM_OUT, STATUS, ERR and ERR_INFO. Where BIT_IN ends
between two codes or at an internal node, after codes of other symbols than 256, the bytes of those symbols
stay in SYM_OUT, and CUR is the node where the walk stood. -/
def Obligations.StreamDecodeOutcomes : Prop :=
  (∀ s : State, s.status.treeValid = true → s.work = none → s.bitIn.pos ≤ s.bitIn.data.length →
    ∃ u, exec .streamDecode s = .next u ∧
      ((u.err = none ∧ u.nodes[u.cur] = .leaf 256) ∨
        (u.err = some .truncatedStream ∧ u.errInfo = none ∧ u.bitIn.pos = u.bitIn.data.length)) ∧
      (∀ t is, IsTreeAt s.nodes s.root t is → (∀ e ∈ t.paths, e.1 ≠ 256) → u.err = some .truncatedStream) ∧
      u = { s with
        cur := u.cur
        bitIn := { data := s.bitIn.data, pos := u.bitIn.pos }
        symOut := u.symOut
        status := { s.status with busy := false, done := u.status.done, error := u.status.error }
        err := u.err
        errInfo := none }) ∧
  ∀ (s : State) (t : Tree) (is : List Nat) (body : List (Sym × List Bool)) (path : List Bool) (c : NodeIdx),
    s.status.treeValid = true → IsTreeAt s.nodes s.root t is → (∀ e ∈ body, e ∈ t.codePaths ∧ e.1 ≠ 256) →
    nodeAtPath s.nodes s.root path = some c → path = [] ∨ s.nodes[c].isLeaf = false →
    s.bitIn.rest = body.flatMap Prod.snd ++ path →
    exec .streamDecode s
      = .next { (s.pastBits ((body.flatMap Prod.snd).length + path.length)).abort .truncatedStream none with
          cur := c
          symOut := s.symOut ++ body.map fun e => e.1.setWidth 8 }

/-- 44_stream_decoder R174: where ROOT is a leaf, a bit of either value reaches it: an EOS leaf ends the
command, another one emits its byte and the decoding goes on after the bit. -/
def Obligations.LeafRootDecode : Prop :=
  ∀ (s : State) (sym : Sym) (b : Bool) (r : List Bool), s.status.treeValid = true →
    s.nodes[s.root] = .leaf sym → s.bitIn.rest = b :: r →
    (sym = 256 → exec .streamDecode s = .next { (s.pastBits 1).succeed with cur := s.root }) ∧
    (sym ≠ 256 → exec .streamDecode s
      = exec .streamDecode { s.pastBits 1 with symOut := s.symOut ++ [sym.setWidth 8] })

/-- 45_container R186: MAGIC_WRITE appends the 32 bits of MAGIC and changes nothing else but STATUS, ERR and
ERR_INFO. The sequence is the rule's own example. -/
def Obligations.MagicWriteAppends : Prop :=
  (∀ s : State,
    exec .magicWrite s = .next { s.succeed with bitOut := s.bitOut ++ bitsOf 32 Config.magic.toNat }) ∧
  bitsOf 32 0x48554646
    = bitsOf 8 0b01001000 ++ bitsOf 8 0b01010101 ++ bitsOf 8 0b01000110 ++ bitsOf 8 0b01000110

/-- 45_container R189, R190: MAGIC_CHECK with fewer than 32 bits left is BadMagicHeader with no value and
moves nothing; with other 32 bits it is BadMagicHeader with them, and they are consumed; with MAGIC it ends
well after them. It changes nothing else. -/
def Obligations.MagicCheckOutcomes : Prop :=
  ∀ s : State,
    (s.bitIn.rest.length < 32 → exec .magicCheck s = .next (s.abort .badMagicHeader none)) ∧
    ∀ (v : Word) (r : List Bool), s.bitIn.rest = bitsOf 32 v.toNat ++ r →
      (v ≠ Config.magic → exec .magicCheck s = .next ((s.pastBits 32).abort .badMagicHeader (some v))) ∧
      (v = Config.magic → exec .magicCheck s = .next (s.pastBits 32).succeed)

/-- 45_container R193, R194: COMPRESS leaves what BUILD_TREE, GEN_CODES, MAGIC_WRITE, HDR_ENCODE and
STREAM_ENCODE leave one after another; within the weight bound the first four end well, and the fifth is
the only one that can raise. -/
def Obligations.CompressIsItsStages : Prop :=
  ∀ s : State, s.WeightBound →
    ∃ a b c d e, exec .buildTree s = .next a ∧ exec .genCodes a = .next b ∧ exec .magicWrite b = .next c ∧
      exec .hdrEncode c = .next d ∧ exec .streamEncode d = .next e ∧
      a.err = none ∧ b.err = none ∧ c.err = none ∧ d.err = none ∧
      (e.err = none ∨ e.err = some .internalEncodingGap) ∧
      exec .compress s = .next e

/-- 30_encoding R103; 45_container R200: COMPRESS with a non-zero count for every byte left in SYM_IN ends
well with the magic word, the header of the tree it leaves and the body appended to BIT_OUT, and the
container has the length of R200. It changes no other register and no other channel but SYM_IN's
position. -/
def Obligations.CompressContainer : Prop :=
  ∀ s : State, s.WeightBound → (∀ b ∈ s.symIn.rest, s.count (byteSym b) ≠ 0) →
    ∃ (u : State) (t : Tree) (is : List Nat) (body : List Bool), exec .compress s = .next u ∧
      IsTreeAt u.nodes u.root t is ∧
      u.codes.bodyOf (s.symIn.rest.map byteSym ++ [256]) = some body ∧
      u.bitOut = s.bitOut ++ (bitsOf 32 Config.magic.toNat ++ t.header ++ body) ∧
      u.bitOut.length = s.bitOut.length + (32 + (11 * t.leafCount - 1) +
        ((s.symIn.rest.map byteSym ++ [256]).map fun (sym : Fin 257) => u.codes.len[sym].len.toNat).sum) ∧
      u = { s with
        nodes := u.nodes
        nodeW := u.nodeW
        root := u.root
        nodeCount := u.nodeCount
        codes := u.codes
        draws := u.draws
        bitOut := u.bitOut
        symIn := { data := s.symIn.data, pos := s.symIn.pos + s.symIn.rest.length }
        status := { busy := false, done := true, error := false, treeValid := true, codesValid := true }
        err := none
        errInfo := none }

/-- 45_container R194: COMPRESS of bytes of which one has count 0 is InternalEncodingGap with the first
such byte, read; the tree and the code table stay valid, and BIT_OUT keeps the magic word, the header and
the codes of the bytes before it. It changes no other register and no other channel but SYM_IN's position. -/
def Obligations.CompressGap : Prop :=
  ∀ (s : State) (before after : List Byte) (b : Byte), s.WeightBound →
    s.symIn.rest = before ++ b :: after → (∀ x ∈ before, s.count (byteSym x) ≠ 0) →
    s.count (byteSym b) = 0 →
    ∃ (u : State) (t : Tree) (is : List Nat) (body : List Bool), exec .compress s = .next u ∧
      u.err = some .internalEncodingGap ∧ u.errInfo = some (b.setWidth 32) ∧
      u.status = { busy := false, done := false, error := true, treeValid := true, codesValid := true } ∧
      u.symIn = { data := s.symIn.data, pos := s.symIn.pos + (before.length + 1) } ∧
      IsTreeAt u.nodes u.root t is ∧ u.codes.bodyOf (before.map byteSym) = some body ∧
      u.bitOut = s.bitOut ++ (bitsOf 32 Config.magic.toNat ++ t.header ++ body) ∧
      u = { s with
        nodes := u.nodes
        nodeW := u.nodeW
        root := u.root
        nodeCount := u.nodeCount
        codes := u.codes
        draws := u.draws
        work := none
        bitOut := u.bitOut
        symIn := u.symIn
        status := u.status
        err := u.err
        errInfo := u.errInfo }

/-- 45_container R196: DECOMPRESS leaves what MAGIC_CHECK, HDR_DECODE and STREAM_DECODE leave one after
another, up to the first that aborts. An abort of the first leaves the node store and both validity flags as
they were, of the second both flags 0, of the third the decoded tree valid. However it ends, it changes
nothing but the node store, ROOT, NODE_COUNT, CUR, BIT_IN's position, SYM_OUT, STATUS, ERR and ERR_INFO
(R195). -/
def Obligations.DecompressIsItsStages : Prop :=
  (∀ s t : State, s.work = none → exec .decompress s = .next t →
    t = { s with
      nodes := t.nodes
      nodeW := t.nodeW
      root := t.root
      nodeCount := t.nodeCount
      cur := t.cur
      bitIn := { data := s.bitIn.data, pos := t.bitIn.pos }
      symOut := t.symOut
      draws := t.draws
      status := t.status
      err := t.err
      errInfo := t.errInfo }) ∧
  ∀ s a b c : State,
    (exec .magicCheck s = .next a → a.err ≠ none →
      exec .decompress s = .next a ∧ a.nodes = s.nodes ∧ a.nodeW = s.nodeW ∧
      a.status.treeValid = s.status.treeValid ∧ a.status.codesValid = s.status.codesValid) ∧
    (exec .magicCheck s = .next a → a.err = none → exec .hdrDecode a = .next b → b.err ≠ none →
      exec .decompress s = .next b ∧ b.status.treeValid = false ∧ b.status.codesValid = false) ∧
    (exec .magicCheck s = .next a → a.err = none → exec .hdrDecode a = .next b → b.err = none →
      exec .streamDecode b = .next c →
      exec .decompress s = .next c ∧ c.status.treeValid = true ∧ c.nodes = b.nodes ∧ c.root = b.root)

/-- 45_container R195, R196; 30_encoding R103 to R105: DECOMPRESS of the magic word, a header of at most 257
leaves, codes of its tree but EOS's and then a code of EOS ends well, whatever bits follow: it stores the
tree in preorder, emits the low eight bits of every symbol, stands after the code of EOS with CUR at its
leaf, and changes nothing else. -/
def Obligations.DecompressContainer : Prop :=
  ∀ (s : State) (t : Tree) (body : List (Sym × List Bool)) (stop : Sym × List Bool) (r : List Bool),
    t.leafCount ≤ 257 → (∀ e ∈ body, e ∈ t.codePaths ∧ e.1 ≠ 256) → stop ∈ t.codePaths → stop.1 = 256 →
    s.bitIn.rest = bitsOf 32 Config.magic.toNat ++ t.header ++ body.flatMap Prod.snd ++ stop.2 ++ r →
    ∃ u, exec .decompress s = .next u ∧ PreorderAt u.nodes 0 t.size t ∧ u.root = 0 ∧
      u.nodeCount.val = t.size ∧ u.nodes[u.cur] = .leaf 256 ∧
      u.symOut = s.symOut ++ (body.map fun e => e.1.setWidth 8) ∧ u.bitIn.rest = r ∧
      u = { s with
        nodes := u.nodes
        nodeW := u.nodeW
        root := u.root
        nodeCount := u.nodeCount
        cur := u.cur
        bitIn := { data := s.bitIn.data, pos := s.bitIn.pos + (32 + (11 * t.leafCount - 1) +
          (body.flatMap Prod.snd).length + stop.2.length) }
        symOut := u.symOut
        draws := u.draws
        work := none
        status := { busy := false, done := true, error := false, treeValid := true, codesValid := false }
        err := none
        errInfo := none }

/-- 45_container R198: for every input short enough, COMPRESS with its histogram ends well and appends a
container; DECOMPRESS of that container, whatever bits follow it and whatever core state it starts from,
ends well, emits the input and stands just after the container. -/
def Obligations.RoundTrip : Prop :=
  ∀ (s : State) (input : List Byte), s.Presented input →
    ∃ (u : State) (container : List Bool), exec .compress s = .next u ∧ u.status.done = true ∧
      u.err = none ∧ u.bitOut = s.bitOut ++ container ∧
      ∀ (v : State) (r : List Bool), v.bitIn.rest = container ++ r →
        ∃ w, exec .decompress v = .next w ∧ w.status.done = true ∧ w.err = none ∧
          w.symOut = v.symOut ++ input ∧ w.bitIn.pos = v.bitIn.pos + container.length ∧ w.bitIn.rest = r

/-- 10_state R41: what the invariant's tree clause says of the node store: `2 L - 1` nodes, ROOT and every
child below NODE_COUNT, every node but ROOT the child of exactly one, ROOT of none, and no cycle. -/
def Obligations.TreeWellFormed : Prop :=
  ∀ s : State, s.Inv → s.status.treeValid = true →
    (∃ leaves, 1 ≤ leaves ∧ leaves ≤ 257 ∧ s.nodeCount.val = 2 * leaves - 1 ∧
      leaves = ((List.finRange 513).filter fun i =>
        decide (i.val < s.nodeCount.val) && s.nodes[i].isLeaf).length) ∧
    s.root.val < s.nodeCount.val ∧
    (∀ i l r : NodeIdx, i.val < s.nodeCount.val → s.nodes[i] = .internal l r →
      l.val < s.nodeCount.val ∧ r.val < s.nodeCount.val ∧ l ≠ r ∧ l ≠ s.root ∧ r ≠ s.root) ∧
    (∀ c : NodeIdx, c.val < s.nodeCount.val → c ≠ s.root →
      ∃! p : NodeIdx, p.val < s.nodeCount.val ∧ ∃ l r : NodeIdx, s.nodes[p] = .internal l r ∧ (l = c ∨ r = c)) ∧
    ∃ rank : NodeIdx → Nat, ∀ i l r : NodeIdx, i.val < s.nodeCount.val → s.nodes[i] = .internal l r →
      rank l < rank i ∧ rank r < rank i

/-- 10_state R41: after BUILD_TREE the leaves hold different symbols, none above 256. -/
def Obligations.BuiltTreeDistinct : Prop :=
  ∀ s t : State, exec .buildTree s = .next t →
    ∃ tree is, IsTreeAt t.nodes t.root tree is ∧ tree.leafCount = s.counted.length ∧ tree.distinct

/-- 10_state R46: the invariant holds right after reset. -/
def Obligations.ResetInv : Prop :=
  State.reset.Inv

/-- 10_state R26 to R30, R36, R37, R41, R44; 60_exceptions R208; 41_code_table R131: from every state that
meets the invariant, a step that goes on gives one that meets it, and no step ends in a fault. -/
def Obligations.StepKeepsInv : Prop :=
  ∀ s : State, s.Inv → (∀ t, step s = .next t → t.Inv) ∧ ∀ f, step s ≠ .fault f
end

