-- ==== Sys2Proof/Laws/Bits.lean ====
section
/-! SUPPORT. Bit sequences and the numbers they spell (00_scope R10), and packing (20_memory R66 to R68). -/

namespace Sys2Proof.Machine

@[simp] theorem bitsOf_length (n v : Nat) : (bitsOf n v).length = n := by
  induction n with
  | zero => rfl
  | succ n ih => simp [bitsOf, ih]

@[simp] theorem valOf_nil : valOf [] = 0 := rfl

theorem valOf_foldl (bits : List Bool) (v : Nat) :
    bits.foldl (fun v b => 2 * v + b.toNat) v = v * 2 ^ bits.length + valOf bits := by
  induction bits generalizing v with
  | nil => simp
  | cons b bits ih =>
    have h0 := ih b.toNat
    simp only [List.foldl_cons, List.length_cons, valOf] at *
    rw [ih, Nat.mul_zero, Nat.zero_add, h0, pow_succ]
    ring

theorem valOf_cons (b : Bool) (bits : List Bool) :
    valOf (b :: bits) = b.toNat * 2 ^ bits.length + valOf bits := by
  rw [← valOf_foldl]; simp [valOf]

theorem valOf_append (a b : List Bool) : valOf (a ++ b) = valOf a * 2 ^ b.length + valOf b := by
  rw [← valOf_foldl]; simp [valOf]

theorem valOf_lt (bits : List Bool) : valOf bits < 2 ^ bits.length := by
  induction bits with
  | nil => simp
  | cons b bits ih =>
    rw [valOf_cons, List.length_cons, pow_succ]
    cases b <;> simp <;> omega

/-- `val` undoes `bits_n` (00_scope R10). -/
theorem valOf_bitsOf_mod (n v : Nat) : valOf (bitsOf n v) = v % 2 ^ n := by
  induction n with
  | zero => simp [bitsOf, Nat.mod_one]
  | succ n ih =>
    rw [bitsOf, valOf_cons, bitsOf_length, ih, Nat.mod_pow_succ, Nat.testBit_eq_decide_div_mod_eq]
    have h := Nat.mod_two_eq_zero_or_one (v / 2 ^ n)
    rcases h with h | h <;> simp [h, Nat.add_comm]

theorem valOf_bitsOf {n v : Nat} (h : v < 2 ^ n) : valOf (bitsOf n v) = v := by
  rw [valOf_bitsOf_mod, Nat.mod_eq_of_lt h]

theorem bitsOf_mod (n m v : Nat) (h : n ≤ m) : bitsOf n (v % 2 ^ m) = bitsOf n v := by
  induction n with
  | zero => rfl
  | succ n ih =>
    rw [bitsOf, bitsOf, ih (by omega), Nat.testBit_mod_two_pow]
    simp [show n < m by omega]

theorem bitsOf_add_mul (n m v b : Nat) (h : n ≤ m) : bitsOf n (b * 2 ^ m + v) = bitsOf n v := by
  rw [← bitsOf_mod n m (b * 2 ^ m + v) h, ← bitsOf_mod n m v h, Nat.mul_add_mod_self_right]

/-- `bits_n` undoes `val` (00_scope R10). -/
theorem bitsOf_valOf (bits : List Bool) : bitsOf bits.length (valOf bits) = bits := by
  induction bits with
  | nil => rfl
  | cons b bits ih =>
    rw [List.length_cons, bitsOf, valOf_cons, bitsOf_add_mul _ _ _ _ le_rfl, ih]
    have h := valOf_lt bits
    congr 1
    cases b
    · simpa using Nat.testBit_lt_two_pow h
    · have := Nat.testBit_two_pow_add_eq (valOf bits) bits.length
      rw [Nat.testBit_lt_two_pow h] at this
      simpa using this

/-- A path one bit longer has twice the value, plus the bit (30_encoding R107). -/
theorem bitsOf_double (k v : Nat) (b : Bool) : bitsOf (k + 1) (2 * v + b.toNat) = bitsOf k v ++ [b] := by
  have h : valOf (bitsOf k v ++ [b]) = 2 * (v % 2 ^ k) + b.toNat := by
    rw [valOf_append, valOf_bitsOf_mod, valOf_cons]; simp [Nat.mul_comm]
  rw [← bitsOf_valOf (bitsOf k v ++ [b]), h]
  simp only [List.length_append, bitsOf_length, List.length_cons, List.length_nil, Nat.zero_add]
  rw [← bitsOf_mod (k + 1) (k + 1) (2 * v + b.toNat) le_rfl]
  congr 1
  have hb := Bool.toNat_lt b
  rw [pow_succ]
  have := Nat.div_add_mod v (2 ^ k)
  have hm := Nat.mod_lt v (Nat.two_pow_pos k)
  conv_lhs => rw [← this]
  rw [show 2 * (2 ^ k * (v / 2 ^ k) + v % 2 ^ k) + b.toNat
    = (2 * (v % 2 ^ k) + b.toNat) + 2 ^ k * 2 * (v / 2 ^ k) by ring, Nat.add_mul_mod_self_left]
  exact Nat.mod_eq_of_lt (by omega)

theorem bitsOf_inj {n v w : Nat} (hv : v < 2 ^ n) (hw : w < 2 ^ n) (h : bitsOf n v = bitsOf n w) : v = w := by
  rw [← valOf_bitsOf hv, ← valOf_bitsOf hw, h]

theorem closeBits_length (bits : List Bool) : (closeBits bits).length % 8 = 0 := by
  simp only [closeBits, padBits, List.length_append, List.length_replicate]
  omega

theorem unpack_cons (b : Byte) (bytes : List Byte) :
    unpackBytes (b :: bytes) = bitsOf 8 b.toNat ++ unpackBytes bytes := rfl

theorem bitsOf_byteOf (bits : List Bool) (h : bits.length = 8) : bitsOf 8 (byteOf bits).toNat = bits := by
  have hl := valOf_lt bits
  rw [h] at hl
  rw [byteOf, BitVec.toNat_ofNat, Nat.mod_eq_of_lt hl]
  conv_rhs => rw [← bitsOf_valOf bits, h]

theorem byteOf_bitsOf (b : Byte) : byteOf (bitsOf 8 b.toNat) = b := by
  rw [byteOf, valOf_bitsOf b.isLt]; simp

theorem unpack_packBytes (k : Nat) (bits : List Bool) (h : bits.length = 8 * k) :
    unpackBytes (packBytes k bits) = bits := by
  induction k generalizing bits with
  | zero => simp [packBytes, unpackBytes, List.length_eq_zero_iff.mp (by simpa using h)]
  | succ k ih =>
    rw [packBytes, unpack_cons, ih _ (by simp; omega), bitsOf_byteOf _ (by simp; omega)]
    exact List.take_append_drop 8 bits

theorem packBytes_unpack (bytes : List Byte) (bits : List Bool) :
    packBytes bytes.length (unpackBytes bytes ++ bits) = bytes := by
  induction bytes with
  | nil => rfl
  | cons b bytes ih =>
    rw [List.length_cons, packBytes, unpack_cons, List.append_assoc,
      List.take_append_of_le_length (by simp), List.drop_append_of_le_length (by simp),
      List.take_of_length_le (by simp), List.drop_of_length_le (by simp), List.nil_append, ih,
      byteOf_bitsOf]

theorem unpack_length (bytes : List Byte) : (unpackBytes bytes).length = 8 * bytes.length := by
  induction bytes with
  | nil => rfl
  | cons b bytes ih => rw [unpack_cons, List.length_append, ih, bitsOf_length, List.length_cons]; omega

/-- `bits_n` has its most significant bit first (00_scope R10). -/
theorem bitsOf_getElem? {n k : Nat} (v : Nat) (h : k < n) : (bitsOf n v)[k]? = some (v.testBit (n - 1 - k)) := by
  induction n generalizing k with
  | zero => omega
  | succ n ih =>
    cases k with
    | zero => rfl
    | succ k =>
      rw [bitsOf, List.getElem?_cons_succ, ih (by omega)]
      congr 2
      omega

end Sys2Proof.Machine
end

