-- ==== Sys2Proof/Laws/State.lean ====
section
/-! SUPPORT. What each update of the state does to each field, and the entries of a tabulated table. -/

namespace Sys2Proof.Machine

variable (s : State)

@[simp] theorem tabulate_get {α : Type} {n : Nat} (f : Fin n → α) (i : Nat) (h : i < n) :
    (tabulate f)[i] = f ⟨i, h⟩ := by
  simp [tabulate]

@[simp] theorem start_cmd : s.start.cmd = s.cmd := rfl
@[simp] theorem start_status :
    s.start.status = { s.status with busy := true, done := false, error := false } := rfl
@[simp] theorem start_err : s.start.err = none := rfl
@[simp] theorem start_errInfo : s.start.errInfo = none := rfl
@[simp] theorem start_root : s.start.root = s.root := rfl
@[simp] theorem start_nodeCount : s.start.nodeCount = s.nodeCount := rfl
@[simp] theorem start_cur : s.start.cur = s.cur := rfl
@[simp] theorem start_freq : s.start.freq = s.freq := rfl
@[simp] theorem start_nodes : s.start.nodes = s.nodes := rfl
@[simp] theorem start_nodeW : s.start.nodeW = s.nodeW := rfl
@[simp] theorem start_codes : s.start.codes = s.codes := rfl
@[simp] theorem start_symIn : s.start.symIn = s.symIn := rfl
@[simp] theorem start_bitIn : s.start.bitIn = s.bitIn := rfl
@[simp] theorem start_bitOut : s.start.bitOut = s.bitOut := rfl
@[simp] theorem start_symOut : s.start.symOut = s.symOut := rfl
@[simp] theorem start_work : s.start.work = s.work := rfl
@[simp] theorem start_draws : s.start.draws = s.draws := rfl
@[simp] theorem start_host : s.start.host = s.host := rfl
@[simp] theorem start_reads : s.start.reads = s.reads := rfl
@[simp] theorem start_packed : s.start.packed = s.packed := rfl

@[simp] theorem finish_cmd : s.finish.cmd = s.cmd := rfl
@[simp] theorem finish_status : s.finish.status = { s.status with busy := false, done := true } := rfl
@[simp] theorem finish_err : s.finish.err = s.err := rfl
@[simp] theorem finish_errInfo : s.finish.errInfo = s.errInfo := rfl
@[simp] theorem finish_root : s.finish.root = s.root := rfl
@[simp] theorem finish_nodeCount : s.finish.nodeCount = s.nodeCount := rfl
@[simp] theorem finish_cur : s.finish.cur = s.cur := rfl
@[simp] theorem finish_freq : s.finish.freq = s.freq := rfl
@[simp] theorem finish_nodes : s.finish.nodes = s.nodes := rfl
@[simp] theorem finish_nodeW : s.finish.nodeW = s.nodeW := rfl
@[simp] theorem finish_codes : s.finish.codes = s.codes := rfl
@[simp] theorem finish_symIn : s.finish.symIn = s.symIn := rfl
@[simp] theorem finish_bitIn : s.finish.bitIn = s.bitIn := rfl
@[simp] theorem finish_bitOut : s.finish.bitOut = s.bitOut := rfl
@[simp] theorem finish_symOut : s.finish.symOut = s.symOut := rfl
@[simp] theorem finish_work : s.finish.work = s.work := rfl
@[simp] theorem finish_draws : s.finish.draws = s.draws := rfl
@[simp] theorem finish_host : s.finish.host = s.host := rfl
@[simp] theorem finish_reads : s.finish.reads = s.reads := rfl
@[simp] theorem finish_packed : s.finish.packed = s.packed := rfl

@[simp] theorem dropTree_cmd : s.dropTree.cmd = s.cmd := rfl
@[simp] theorem dropTree_status :
    s.dropTree.status = { s.status with treeValid := false, codesValid := false } := rfl
@[simp] theorem dropTree_err : s.dropTree.err = s.err := rfl
@[simp] theorem dropTree_errInfo : s.dropTree.errInfo = s.errInfo := rfl
@[simp] theorem dropTree_root : s.dropTree.root = s.root := rfl
@[simp] theorem dropTree_nodeCount : s.dropTree.nodeCount = s.nodeCount := rfl
@[simp] theorem dropTree_cur : s.dropTree.cur = s.cur := rfl
@[simp] theorem dropTree_freq : s.dropTree.freq = s.freq := rfl
@[simp] theorem dropTree_nodes : s.dropTree.nodes = s.nodes := rfl
@[simp] theorem dropTree_nodeW : s.dropTree.nodeW = s.nodeW := rfl
@[simp] theorem dropTree_codes : s.dropTree.codes = s.codes := rfl
@[simp] theorem dropTree_symIn : s.dropTree.symIn = s.symIn := rfl
@[simp] theorem dropTree_bitIn : s.dropTree.bitIn = s.bitIn := rfl
@[simp] theorem dropTree_bitOut : s.dropTree.bitOut = s.bitOut := rfl
@[simp] theorem dropTree_symOut : s.dropTree.symOut = s.symOut := rfl
@[simp] theorem dropTree_work : s.dropTree.work = s.work := rfl
@[simp] theorem dropTree_draws : s.dropTree.draws = s.draws + 1 := rfl
@[simp] theorem dropTree_host : s.dropTree.host = s.host := rfl
@[simp] theorem dropTree_reads : s.dropTree.reads = s.reads := rfl
@[simp] theorem dropTree_packed : s.dropTree.packed = s.packed := rfl

@[simp] theorem abort_cmd (kind : ErrKind) (info : Option Word) : (s.abort kind info).cmd = s.cmd := rfl
@[simp] theorem abort_status (kind : ErrKind) (info : Option Word) :
    (s.abort kind info).status = { s.status with busy := false, done := false, error := true } := rfl
@[simp] theorem abort_err (kind : ErrKind) (info : Option Word) : (s.abort kind info).err = some kind := rfl
@[simp] theorem abort_errInfo (kind : ErrKind) (info : Option Word) :
    (s.abort kind info).errInfo = info := rfl
@[simp] theorem abort_root (kind : ErrKind) (info : Option Word) : (s.abort kind info).root = s.root := rfl
@[simp] theorem abort_nodeCount (kind : ErrKind) (info : Option Word) :
    (s.abort kind info).nodeCount = s.nodeCount := rfl
@[simp] theorem abort_cur (kind : ErrKind) (info : Option Word) : (s.abort kind info).cur = s.cur := rfl
@[simp] theorem abort_freq (kind : ErrKind) (info : Option Word) : (s.abort kind info).freq = s.freq := rfl
@[simp] theorem abort_nodes (kind : ErrKind) (info : Option Word) : (s.abort kind info).nodes = s.nodes := rfl
@[simp] theorem abort_nodeW (kind : ErrKind) (info : Option Word) : (s.abort kind info).nodeW = s.nodeW := rfl
@[simp] theorem abort_codes (kind : ErrKind) (info : Option Word) : (s.abort kind info).codes = s.codes := rfl
@[simp] theorem abort_symIn (kind : ErrKind) (info : Option Word) : (s.abort kind info).symIn = s.symIn := rfl
@[simp] theorem abort_bitIn (kind : ErrKind) (info : Option Word) : (s.abort kind info).bitIn = s.bitIn := rfl
@[simp] theorem abort_bitOut (kind : ErrKind) (info : Option Word) :
    (s.abort kind info).bitOut = s.bitOut := rfl
@[simp] theorem abort_symOut (kind : ErrKind) (info : Option Word) :
    (s.abort kind info).symOut = s.symOut := rfl
@[simp] theorem abort_work (kind : ErrKind) (info : Option Word) : (s.abort kind info).work = none := rfl
@[simp] theorem abort_draws (kind : ErrKind) (info : Option Word) : (s.abort kind info).draws = s.draws := rfl
@[simp] theorem abort_host (kind : ErrKind) (info : Option Word) : (s.abort kind info).host = s.host := rfl
@[simp] theorem abort_reads (kind : ErrKind) (info : Option Word) : (s.abort kind info).reads = s.reads := rfl
@[simp] theorem abort_packed (kind : ErrKind) (info : Option Word) :
    (s.abort kind info).packed = s.packed := rfl

@[simp] theorem writeBits_cmd (n v : Nat) : (s.writeBits n v).cmd = s.cmd := rfl
@[simp] theorem writeBits_status (n v : Nat) : (s.writeBits n v).status = s.status := rfl
@[simp] theorem writeBits_err (n v : Nat) : (s.writeBits n v).err = s.err := rfl
@[simp] theorem writeBits_errInfo (n v : Nat) : (s.writeBits n v).errInfo = s.errInfo := rfl
@[simp] theorem writeBits_root (n v : Nat) : (s.writeBits n v).root = s.root := rfl
@[simp] theorem writeBits_nodeCount (n v : Nat) : (s.writeBits n v).nodeCount = s.nodeCount := rfl
@[simp] theorem writeBits_cur (n v : Nat) : (s.writeBits n v).cur = s.cur := rfl
@[simp] theorem writeBits_freq (n v : Nat) : (s.writeBits n v).freq = s.freq := rfl
@[simp] theorem writeBits_nodes (n v : Nat) : (s.writeBits n v).nodes = s.nodes := rfl
@[simp] theorem writeBits_nodeW (n v : Nat) : (s.writeBits n v).nodeW = s.nodeW := rfl
@[simp] theorem writeBits_codes (n v : Nat) : (s.writeBits n v).codes = s.codes := rfl
@[simp] theorem writeBits_symIn (n v : Nat) : (s.writeBits n v).symIn = s.symIn := rfl
@[simp] theorem writeBits_bitIn (n v : Nat) : (s.writeBits n v).bitIn = s.bitIn := rfl
@[simp] theorem writeBits_bitOut (n v : Nat) : (s.writeBits n v).bitOut = s.bitOut ++ bitsOf n v := rfl
@[simp] theorem writeBits_symOut (n v : Nat) : (s.writeBits n v).symOut = s.symOut := rfl
@[simp] theorem writeBits_work (n v : Nat) : (s.writeBits n v).work = s.work := rfl
@[simp] theorem writeBits_draws (n v : Nat) : (s.writeBits n v).draws = s.draws := rfl
@[simp] theorem writeBits_host (n v : Nat) : (s.writeBits n v).host = s.host := rfl
@[simp] theorem writeBits_reads (n v : Nat) : (s.writeBits n v).reads = s.reads := rfl
@[simp] theorem writeBits_packed (n v : Nat) : (s.writeBits n v).packed = s.packed := rfl

@[simp] theorem writeSym_cmd (b : Byte) : (s.writeSym b).cmd = s.cmd := rfl
@[simp] theorem writeSym_status (b : Byte) : (s.writeSym b).status = s.status := rfl
@[simp] theorem writeSym_err (b : Byte) : (s.writeSym b).err = s.err := rfl
@[simp] theorem writeSym_errInfo (b : Byte) : (s.writeSym b).errInfo = s.errInfo := rfl
@[simp] theorem writeSym_root (b : Byte) : (s.writeSym b).root = s.root := rfl
@[simp] theorem writeSym_nodeCount (b : Byte) : (s.writeSym b).nodeCount = s.nodeCount := rfl
@[simp] theorem writeSym_cur (b : Byte) : (s.writeSym b).cur = s.cur := rfl
@[simp] theorem writeSym_freq (b : Byte) : (s.writeSym b).freq = s.freq := rfl
@[simp] theorem writeSym_nodes (b : Byte) : (s.writeSym b).nodes = s.nodes := rfl
@[simp] theorem writeSym_nodeW (b : Byte) : (s.writeSym b).nodeW = s.nodeW := rfl
@[simp] theorem writeSym_codes (b : Byte) : (s.writeSym b).codes = s.codes := rfl
@[simp] theorem writeSym_symIn (b : Byte) : (s.writeSym b).symIn = s.symIn := rfl
@[simp] theorem writeSym_bitIn (b : Byte) : (s.writeSym b).bitIn = s.bitIn := rfl
@[simp] theorem writeSym_bitOut (b : Byte) : (s.writeSym b).bitOut = s.bitOut := rfl
@[simp] theorem writeSym_symOut (b : Byte) : (s.writeSym b).symOut = s.symOut ++ [b] := rfl
@[simp] theorem writeSym_work (b : Byte) : (s.writeSym b).work = s.work := rfl
@[simp] theorem writeSym_draws (b : Byte) : (s.writeSym b).draws = s.draws := rfl
@[simp] theorem writeSym_host (b : Byte) : (s.writeSym b).host = s.host := rfl
@[simp] theorem writeSym_reads (b : Byte) : (s.writeSym b).reads = s.reads := rfl
@[simp] theorem writeSym_packed (b : Byte) : (s.writeSym b).packed = s.packed := rfl

@[simp] theorem beginHeader_cmd : s.beginHeader.cmd = s.cmd := rfl
@[simp] theorem beginHeader_status :
    s.beginHeader.status = { s.status with treeValid := false, codesValid := false } := rfl
@[simp] theorem beginHeader_err : s.beginHeader.err = s.err := rfl
@[simp] theorem beginHeader_errInfo : s.beginHeader.errInfo = s.errInfo := rfl
@[simp] theorem beginHeader_root : s.beginHeader.root = s.root := rfl
@[simp] theorem beginHeader_nodeCount : s.beginHeader.nodeCount = s.nodeCount := rfl
@[simp] theorem beginHeader_cur : s.beginHeader.cur = s.cur := rfl
@[simp] theorem beginHeader_freq : s.beginHeader.freq = s.freq := rfl
@[simp] theorem beginHeader_nodes : s.beginHeader.nodes = s.nodes := rfl
@[simp] theorem beginHeader_nodeW : s.beginHeader.nodeW = s.nodeW := rfl
@[simp] theorem beginHeader_codes : s.beginHeader.codes = s.codes := rfl
@[simp] theorem beginHeader_symIn : s.beginHeader.symIn = s.symIn := rfl
@[simp] theorem beginHeader_bitIn : s.beginHeader.bitIn = s.bitIn := rfl
@[simp] theorem beginHeader_bitOut : s.beginHeader.bitOut = s.bitOut := rfl
@[simp] theorem beginHeader_symOut : s.beginHeader.symOut = s.symOut := rfl
@[simp] theorem beginHeader_work : s.beginHeader.work = some { alloc := 0, stack := [] } := rfl
@[simp] theorem beginHeader_draws : s.beginHeader.draws = s.draws + 1 := rfl
@[simp] theorem beginHeader_host : s.beginHeader.host = s.host := rfl
@[simp] theorem beginHeader_reads : s.beginHeader.reads = s.reads := rfl
@[simp] theorem beginHeader_packed : s.beginHeader.packed = s.packed := rfl

@[simp] theorem setNode_cmd (i : NodeIdx) (node : Node) : (s.setNode i node).cmd = s.cmd := rfl
@[simp] theorem setNode_status (i : NodeIdx) (node : Node) : (s.setNode i node).status = s.status := rfl
@[simp] theorem setNode_err (i : NodeIdx) (node : Node) : (s.setNode i node).err = s.err := rfl
@[simp] theorem setNode_errInfo (i : NodeIdx) (node : Node) : (s.setNode i node).errInfo = s.errInfo := rfl
@[simp] theorem setNode_root (i : NodeIdx) (node : Node) : (s.setNode i node).root = s.root := rfl
@[simp] theorem setNode_nodeCount (i : NodeIdx) (node : Node) :
    (s.setNode i node).nodeCount = s.nodeCount := rfl
@[simp] theorem setNode_cur (i : NodeIdx) (node : Node) : (s.setNode i node).cur = s.cur := rfl
@[simp] theorem setNode_freq (i : NodeIdx) (node : Node) : (s.setNode i node).freq = s.freq := rfl
@[simp] theorem setNode_nodes (i : NodeIdx) (node : Node) :
    (s.setNode i node).nodes = s.nodes.set i.val node := rfl
@[simp] theorem setNode_nodeW (i : NodeIdx) (node : Node) :
    (s.setNode i node).nodeW = s.nodeW.set i.val 0 := rfl
@[simp] theorem setNode_codes (i : NodeIdx) (node : Node) : (s.setNode i node).codes = s.codes := rfl
@[simp] theorem setNode_symIn (i : NodeIdx) (node : Node) : (s.setNode i node).symIn = s.symIn := rfl
@[simp] theorem setNode_bitIn (i : NodeIdx) (node : Node) : (s.setNode i node).bitIn = s.bitIn := rfl
@[simp] theorem setNode_bitOut (i : NodeIdx) (node : Node) : (s.setNode i node).bitOut = s.bitOut := rfl
@[simp] theorem setNode_symOut (i : NodeIdx) (node : Node) : (s.setNode i node).symOut = s.symOut := rfl
@[simp] theorem setNode_work (i : NodeIdx) (node : Node) : (s.setNode i node).work = s.work := rfl
@[simp] theorem setNode_draws (i : NodeIdx) (node : Node) : (s.setNode i node).draws = s.draws := rfl
@[simp] theorem setNode_host (i : NodeIdx) (node : Node) : (s.setNode i node).host = s.host := rfl
@[simp] theorem setNode_reads (i : NodeIdx) (node : Node) : (s.setNode i node).reads = s.reads := rfl
@[simp] theorem setNode_packed (i : NodeIdx) (node : Node) : (s.setNode i node).packed = s.packed := rfl

@[simp] theorem storeTree_cmd (r : NodeIdx) (es : List Entry) : (s.storeTree r es).cmd = s.cmd := rfl
@[simp] theorem storeTree_status (r : NodeIdx) (es : List Entry) :
    (s.storeTree r es).status = { s.status with treeValid := true } := rfl
@[simp] theorem storeTree_err (r : NodeIdx) (es : List Entry) : (s.storeTree r es).err = s.err := rfl
@[simp] theorem storeTree_errInfo (r : NodeIdx) (es : List Entry) :
    (s.storeTree r es).errInfo = s.errInfo := rfl
@[simp] theorem storeTree_root (r : NodeIdx) (es : List Entry) : (s.storeTree r es).root = r := rfl
@[simp] theorem storeTree_nodeCount (r : NodeIdx) (es : List Entry) :
    (s.storeTree r es).nodeCount = Fin.ofNat 514 es.length := rfl
@[simp] theorem storeTree_cur (r : NodeIdx) (es : List Entry) : (s.storeTree r es).cur = s.cur := rfl
@[simp] theorem storeTree_freq (r : NodeIdx) (es : List Entry) : (s.storeTree r es).freq = s.freq := rfl
@[simp] theorem storeTree_nodes (r : NodeIdx) (es : List Entry) :
    (s.storeTree r es).nodes = tabulate fun i => (es[i.val]?).elim s.nodes[i] Entry.node := rfl
@[simp] theorem storeTree_nodeW (r : NodeIdx) (es : List Entry) :
    (s.storeTree r es).nodeW = tabulate fun i => (es[i.val]?).elim s.nodeW[i] fun e => BitVec.ofNat 32 e.weight := rfl
@[simp] theorem storeTree_codes (r : NodeIdx) (es : List Entry) : (s.storeTree r es).codes = s.codes := rfl
@[simp] theorem storeTree_symIn (r : NodeIdx) (es : List Entry) : (s.storeTree r es).symIn = s.symIn := rfl
@[simp] theorem storeTree_bitIn (r : NodeIdx) (es : List Entry) : (s.storeTree r es).bitIn = s.bitIn := rfl
@[simp] theorem storeTree_bitOut (r : NodeIdx) (es : List Entry) : (s.storeTree r es).bitOut = s.bitOut := rfl
@[simp] theorem storeTree_symOut (r : NodeIdx) (es : List Entry) : (s.storeTree r es).symOut = s.symOut := rfl
@[simp] theorem storeTree_work (r : NodeIdx) (es : List Entry) : (s.storeTree r es).work = s.work := rfl
@[simp] theorem storeTree_draws (r : NodeIdx) (es : List Entry) : (s.storeTree r es).draws = s.draws := rfl
@[simp] theorem storeTree_host (r : NodeIdx) (es : List Entry) : (s.storeTree r es).host = s.host := rfl
@[simp] theorem storeTree_reads (r : NodeIdx) (es : List Entry) : (s.storeTree r es).reads = s.reads := rfl
@[simp] theorem storeTree_packed (r : NodeIdx) (es : List Entry) : (s.storeTree r es).packed = s.packed := rfl

end Sys2Proof.Machine
end

