-- ==== Sys2Proof/Laws/Ops.lean ====
section
/-! SUPPORT. One law for each shared operation: the channel reads, a body's stages and its end. -/

namespace Sys2Proof.Machine

theorem rest_length {α : Type} (c : InChannel α) : c.rest.length = c.data.length - c.pos := by
  simp [InChannel.rest]

theorem pastBits_rest (n : Nat) (s : State) : (s.pastBits n).bitIn.rest = s.bitIn.rest.drop n := by
  simp [State.pastBits, InChannel.rest]

theorem pastSyms_rest (n : Nat) (s : State) : (s.pastSyms n).symIn.rest = s.symIn.rest.drop n := by
  simp [State.pastSyms, InChannel.rest]

theorem pastBits_pastBits (n m : Nat) (s : State) : (s.pastBits n).pastBits m = s.pastBits (n + m) := by
  simp [State.pastBits, Nat.add_assoc]

theorem pastSyms_pastSyms (n m : Nat) (s : State) : (s.pastSyms n).pastSyms m = s.pastSyms (n + m) := by
  simp [State.pastSyms, Nat.add_assoc]

@[simp] theorem pastBits_zero (s : State) : s.pastBits 0 = s := rfl

@[simp] theorem pastSyms_zero (s : State) : s.pastSyms 0 = s := rfl

/-- Everything `ReadBits` can do (20_memory R64). -/
theorem readBits_cases (n : Nat) (s : State) :
    (s.bitIn.pos + n ≤ s.bitIn.data.length ∧
      s.readBits n = some (valOf (s.bitIn.rest.take n), s.pastBits n)) ∨
    (s.bitIn.data.length < s.bitIn.pos + n ∧ s.readBits n = none) := by
  by_cases h : s.bitIn.pos + n ≤ s.bitIn.data.length
  · exact .inl ⟨h, by simp [State.readBits, InChannel.next, h, State.pastBits]⟩
  · exact .inr ⟨by omega, by simp [State.readBits, InChannel.next, h]⟩

theorem readBits_of_rest {n : Nat} {s : State} {bits r : List Bool} (h : s.bitIn.rest = bits ++ r)
    (hn : bits.length = n) (h0 : 0 < n) : s.readBits n = some (valOf bits, s.pastBits n) := by
  have hl := congrArg List.length h
  rw [rest_length, List.length_append] at hl
  rcases readBits_cases n s with ⟨_, e⟩ | ⟨hlt, _⟩
  · rw [e, h, List.take_append_of_le_length (by omega), List.take_of_length_le (by omega)]
  · omega

theorem readBits_none {n : Nat} {s : State} (h : s.bitIn.rest.length < n) : s.readBits n = none := by
  rw [rest_length] at h
  rcases readBits_cases n s with ⟨hle, _⟩ | ⟨_, e⟩
  · omega
  · exact e

/-- Everything `ReadSym` can do (20_memory R69). -/
theorem readSym_cons {s : State} {b : Byte} {r : List Byte} (h : s.symIn.rest = b :: r) :
    s.readSym = some (b, s.pastSyms 1) := by
  have hl := congrArg List.length h
  rw [rest_length, List.length_cons] at hl
  have hp : s.symIn.pos + 1 ≤ s.symIn.data.length := by omega
  simp [State.readSym, InChannel.next, hp, h, State.pastSyms]

theorem readSym_none {s : State} (h : s.symIn.rest = []) : s.readSym = none := by
  have hl := congrArg List.length h
  rw [rest_length, List.length_nil] at hl
  have hp : ¬ s.symIn.pos + 1 ≤ s.symIn.data.length := by omega
  simp [State.readSym, InChannel.next, hp]

@[simp] theorem andThen_ok (s : State) (f : State → Body) : (Body.ok s).andThen f = f s := rfl

@[simp] theorem andThen_raised (k : ErrKind) (info : Option Word) (s : State) (f : State → Body) :
    (Body.raised k info s).andThen f = .raised k info s := rfl

@[simp] theorem andThen_fault (e : Fault) (f : State → Body) : (Body.fault e).andThen f = .fault e := rfl

@[simp] theorem andThen_refused (e : Refusal) (f : State → Body) :
    (Body.refused e).andThen f = .refused e := rfl

/-- A chain of stages that runs to its end ran every stage to its end. -/
theorem andThen_eq_ok {b : Body} {f : State → Body} {t : State} (h : b.andThen f = .ok t) :
    ∃ s, b = .ok s ∧ f s = .ok t := by
  cases b with
  | ok s => exact ⟨s, rfl, h⟩
  | raised => cases h
  | fault => cases h
  | refused => cases h

@[simp] theorem conclude_ok (s : State) : (Body.ok s).conclude = .next s.finish := rfl

@[simp] theorem conclude_raised (k : ErrKind) (info : Option Word) (s : State) :
    (Body.raised k info s).conclude = .next (s.abort k info) := rfl

@[simp] theorem conclude_fault (e : Fault) : (Body.fault e).conclude = .fault e := rfl

@[simp] theorem conclude_refused (e : Refusal) : (Body.refused e).conclude = .refused e := rfl

/-- Everything a command that answers a next state can have done: its body ran to its end or raised. -/
theorem runCommand_next {body : State → Body} {s t : State} (h : runCommand body s = .next t) :
    (∃ u, body s.start = .ok u ∧ t = u.finish) ∨
    (∃ k info u, body s.start = .raised k info u ∧ t = u.abort k info) := by
  unfold runCommand at h
  generalize body s.start = b at h ⊢
  cases b with
  | ok u => exact .inl ⟨u, rfl, by simpa using h.symm⟩
  | raised k info u => exact .inr ⟨k, info, u, rfl, by simpa using h.symm⟩
  | fault => simp at h
  | refused => simp at h

@[simp] theorem needs_true (op : Nat) (body : State → Body) (s : State) : needs true op body s = body s := rfl

@[simp] theorem needs_false (op : Nat) (body : State → Body) (s : State) :
    needs false op body s = .raised .sequenceError (some (BitVec.ofNat 32 op)) s := rfl

end Sys2Proof.Machine
end

