-- ==== Sys2Proof/Laws/Header.lean ====
section
/-! SUPPORT. The Header Codec: what HDR_ENCODE appends, and how a header is read back token by token. -/

namespace Sys2Proof.Machine

theorem leafCount_pos (t : Tree) : 0 < t.leafCount := by
  induction t with
  | leaf => simp [Tree.leafCount]
  | node l r ihl _ => simp only [Tree.leafCount]; omega

/-- A full binary tree has one internal node fewer than leaves (10_state R41). -/
theorem size_eq (t : Tree) : t.size = 2 * t.leafCount - 1 := by
  induction t with
  | leaf => rfl
  | node l r ihl ihr =>
    have := leafCount_pos l
    have := leafCount_pos r
    simp only [Tree.size, Tree.leafCount]; omega

theorem size_pos (t : Tree) : 0 < t.size := by
  have := leafCount_pos t
  rw [size_eq]; omega

/-- A header's length (30_encoding R100). -/
theorem header_length (t : Tree) : t.header.length = 11 * t.leafCount - 1 := by
  induction t with
  | leaf => simp [Tree.header, Tree.leafCount]
  | node l r ihl ihr =>
    have := leafCount_pos l
    have := leafCount_pos r
    simp only [Tree.header, Tree.leafCount, List.length_cons, List.length_append]; omega

/-- `Emit` appends the header and does nothing else (42_header_codec R142, R143). -/
theorem emit_eq (t : Tree) (s : State) : t.emit s = { s with bitOut := s.bitOut ++ t.header } := by
  induction t generalizing s with
  | leaf sym => simp [Tree.emit, Tree.header, State.writeBits, bitsOf]
  | node l r ihl ihr => simp [Tree.emit, Tree.header, State.writeBits, bitsOf, ihl, ihr]

/-- A node index below `NODE_CAP` is itself. -/
theorem ofNat_val {n : Nat} (h : n < 513) : (Fin.ofNat 513 n).val = n := by
  simp [Fin.ofNat, Nat.mod_eq_of_lt h]

theorem decode_internal (r : List Bool) : decodeToken (false :: r) = .ok (.internal, r) := rfl

theorem decode_leaf {v : Nat} (hv : v < 512) (r : List Bool) :
    decodeToken (true :: (bitsOf 9 v ++ r)) = .ok (.leaf v, r) := by
  have h : ¬ (bitsOf 9 v ++ r).length < 9 := by simp
  simp only [decodeToken, if_neg h]
  rw [List.take_append_of_le_length (by simp), List.drop_append_of_le_length (by simp),
    List.take_of_length_le (by simp), List.drop_of_length_le (by simp), valOf_bitsOf hv]
  rfl

/-- Reading an internal token (42_header_codec R145). -/
theorem fetch_internal {s : State} {r : List Bool} {n : Nat} (hn : n < 513) (h : s.bitIn.rest = false :: r) :
    s.fetchToken n = .token .internal (s.pastBits 1) := by
  have h1 := readBits_of_rest (n := 1) (bits := [false]) (r := r) h rfl one_pos
  simp [State.fetchToken, h1, Config.nodeCap, hn, h, decode_internal, encodeWidth]

/-- Reading a leaf token (42_header_codec R145). -/
theorem fetch_leaf {s : State} {r : List Bool} {n v : Nat} (hn : n < 513) (hv : v < 512)
    (h : s.bitIn.rest = true :: (bitsOf 9 v ++ r)) :
    s.fetchToken n = .token (.leaf v) (s.pastBits 10) := by
  have h1 := readBits_of_rest (n := 1) (bits := [true]) h rfl one_pos
  have h10 := readBits_of_rest (n := 10) (s := s) (bits := true :: bitsOf 9 v) (r := r) h (by simp) (by omega)
  simp [State.fetchToken, h1, h10, Config.nodeCap, hn, h, decode_leaf hv, encodeWidth]

/-- A tag bit read into a full node store (42_header_codec R148). -/
theorem fetch_full {s : State} {n : Nat} (hn : 513 ≤ n) (h : s.bitIn.rest ≠ []) :
    s.fetchToken n = .raised .capacityExceeded (s.pastBits 1) := by
  obtain ⟨b, r, hr⟩ := List.exists_cons_of_ne_nil h
  have h1 := readBits_of_rest (n := 1) (bits := [b]) (r := r) hr rfl one_pos
  simp [State.fetchToken, h1, Config.nodeCap, show ¬ n < 513 by omega]

/-- No tag bit left (42_header_codec R145). -/
theorem fetch_empty {s : State} {n : Nat} (h : s.bitIn.rest = []) :
    s.fetchToken n = .raised .malformedHeader s := by
  simp [State.fetchToken, readBits_none (n := 1) (s := s) (by simp [h])]

/-- A leaf tag with too few bits after it (42_header_codec R145). -/
theorem fetch_cut {s : State} {r : List Bool} {n : Nat} (hn : n < 513) (h : s.bitIn.rest = true :: r)
    (hr : r.length < 9) : s.fetchToken n = .raised .malformedHeader (s.pastBits 1) := by
  have h1 := readBits_of_rest (n := 1) (bits := [true]) (r := r) h rfl one_pos
  simp [State.fetchToken, h1, Config.nodeCap, hn, h, decodeToken, hr]

/-- Everything reading a token can do (42_header_codec R145). -/
theorem fetch_cases (s : State) (n : Nat) :
    (s.bitIn.rest = [] ∧ s.fetchToken n = .raised .malformedHeader s) ∨
    (513 ≤ n ∧ s.bitIn.rest ≠ [] ∧ s.fetchToken n = .raised .capacityExceeded (s.pastBits 1)) ∨
    (n < 513 ∧ (∃ r, s.bitIn.rest = true :: r ∧ r.length < 9) ∧
      s.fetchToken n = .raised .malformedHeader (s.pastBits 1)) ∨
    (n < 513 ∧ (∃ r, s.bitIn.rest = false :: r) ∧ s.fetchToken n = .token .internal (s.pastBits 1)) ∨
    (n < 513 ∧ ∃ v r, v < 512 ∧ s.bitIn.rest = true :: (bitsOf 9 v ++ r) ∧
      s.fetchToken n = .token (.leaf v) (s.pastBits 10)) := by
  rcases hrest : s.bitIn.rest with _ | ⟨b, r⟩
  · exact .inl ⟨rfl, fetch_empty hrest⟩
  by_cases hn : n < 513
  · cases b with
    | false => exact .inr (.inr (.inr (.inl ⟨hn, ⟨r, rfl⟩, fetch_internal hn hrest⟩)))
    | true =>
      by_cases hr : r.length < 9
      · exact .inr (.inr (.inl ⟨hn, ⟨r, rfl, hr⟩, fetch_cut hn hrest hr⟩))
      · have hlt := valOf_lt (r.take 9)
        have hlen : (r.take 9).length = 9 := by simp; omega
        rw [hlen] at hlt
        have e : r = bitsOf 9 (valOf (r.take 9)) ++ r.drop 9 := by
          have hb := bitsOf_valOf (r.take 9)
          rw [hlen] at hb
          rw [hb, List.take_append_drop]
        refine .inr (.inr (.inr (.inr ⟨hn, valOf (r.take 9), r.drop 9, hlt, ?_, ?_⟩)))
        · rw [← e]
        · exact fetch_leaf hn hlt (by rw [hrest, ← e])
  · exact .inr (.inl ⟨by omega, by simp, fetch_full (by omega) (by simp [hrest])⟩)

/-- What a header decode does after a token: it ends with the header, or reads on. -/
def resume (k : Nat) (u : State) : Body :=
  match u.work with
  | none => .ok u
  | some _ => headerLoop k u

theorem headerLoop_succ (k : Nat) (s : State) : headerLoop (k + 1) s = (headerStep s).andThen (resume k) := rfl

theorem step_internal {s : State} {w : HeaderWork} {r : List Bool} (hw : s.work = some w)
    (hn : w.alloc < 513) (h : s.bitIn.rest = false :: r) :
    headerStep s = .ok { s.pastBits 1 with
      work := some { alloc := w.alloc + 1, stack := .needLeft (Fin.ofNat 513 w.alloc) :: w.stack } } := by
  have hw1 : (s.pastBits 1).work = some w := hw
  simp [headerStep, hw, fetch_internal hn h, tokenBody, internalBody, hw1, Config.nodeCap, hn]

theorem step_leaf {s : State} {w : HeaderWork} {r : List Bool} {sym : Sym} (hw : s.work = some w)
    (hn : w.alloc < 513) (h : s.bitIn.rest = true :: (bitsOf 9 sym.toNat ++ r)) :
    headerStep s = .ok (State.deliver (w.alloc + 1) (Fin.ofNat 513 w.alloc) w.stack
      ((s.pastBits 10).setNode (Fin.ofNat 513 w.alloc) (.leaf sym))) := by
  have hw1 : (s.pastBits 10).work = some w := hw
  simp [headerStep, hw, fetch_leaf hn sym.isLt h, tokenBody, leafBody, hw1, Config.nodeCap, hn]

/-- Delivering a node replaces the working state whatever it was. -/
theorem deliver_work (n : Nat) (i : NodeIdx) (stack : List Frame) (s : State) (w : Option HeaderWork) :
    State.deliver n i stack { s with work := w } = State.deliver n i stack s := by
  induction stack generalizing i s with
  | nil => rfl
  | cons f stack ih =>
    cases f with
    | needLeft p => rfl
    | needRight p l => exact ih p (s.setNode p (.internal l i))

/-- The nodes a header decode stores for a tree whose root takes index `n`, in preorder. -/
def Tree.preorder : Tree → Nat → List Node
  | .leaf sym, _ => [.leaf sym]
  | .node l r, n =>
    .internal (Fin.ofNat 513 (n + 1)) (Fin.ofNat 513 (n + 1 + l.size)) ::
      (l.preorder (n + 1) ++ r.preorder (n + 1 + l.size))

@[simp] theorem preorder_length (t : Tree) (n : Nat) : (t.preorder n).length = t.size := by
  induction t generalizing n with
  | leaf => rfl
  | node l r ihl ihr => simp [Tree.preorder, Tree.size, ihl, ihr]; omega

/-- The node store with a list of nodes put at the indices from `n` on. -/
def putNodes (nodes : Vector Node 513) (n : Nat) (l : List Node) : Vector Node 513 :=
  tabulate fun i => if n ≤ i.val then (l[i.val - n]?).getD nodes[i] else nodes[i]

/-- The weights with `m` of them, from index `n` on, made 0. -/
def zeroWeights (ws : Vector Word 513) (n m : Nat) : Vector Word 513 :=
  tabulate fun i => if n ≤ i.val ∧ i.val < n + m then 0 else ws[i]

theorem putNodes_one (nodes : Vector Node 513) {n : Nat} (hn : n < 513) (x : Node) :
    nodes.set (Fin.ofNat 513 n).val x = putNodes nodes n [x] := by
  have hv := ofNat_val hn
  apply Vector.ext
  intro i hi
  simp only [putNodes, Fin.getElem_fin, tabulate_get, Vector.getElem_set, hv]
  by_cases h : n = i
  · simp [h]
  · by_cases h2 : n ≤ i
    · have : 1 ≤ i - n := by omega
      simp [h, h2, List.getElem?_eq_none, this]
    · simp [h, h2]

theorem putNodes_node (nodes : Vector Node 513) {n : Nat} (hn : n < 513) (x : Node) (l r : List Node) :
    (putNodes (putNodes nodes (n + 1) l) (n + 1 + l.length) r).set (Fin.ofNat 513 n).val x
      = putNodes nodes n (x :: (l ++ r)) := by
  have hv := ofNat_val hn
  apply Vector.ext
  intro i hi
  simp only [putNodes, Fin.getElem_fin, tabulate_get, Vector.getElem_set, hv]
  by_cases h : n = i
  · subst h; simp
  · rw [if_neg h]
    by_cases h1 : n ≤ i
    · have e : i - n = (i - (n + 1)) + 1 := by omega
      rw [if_pos h1, e, List.getElem?_cons_succ, List.getElem?_append]
      by_cases h2 : i - (n + 1) < l.length
      · rw [if_pos h2, if_neg (by omega), if_pos (by omega)]
      · rw [if_neg h2, if_pos (by omega), if_pos (by omega),
          show i - (n + 1) - l.length = i - (n + 1 + l.length) by omega,
          List.getElem?_eq_none (l := l) (by omega)]
        rfl
    · rw [if_neg (by omega), if_neg (by omega), if_neg h1]

theorem zeroWeights_one (ws : Vector Word 513) {n : Nat} (hn : n < 513) :
    ws.set (Fin.ofNat 513 n).val 0 = zeroWeights ws n 1 := by
  have hv := ofNat_val hn
  apply Vector.ext
  intro i hi
  simp only [zeroWeights, Fin.getElem_fin, tabulate_get, Vector.getElem_set, hv]
  by_cases h : n = i
  · rw [if_pos h, if_pos (by omega)]
  · rw [if_neg h, if_neg (by omega)]

theorem zeroWeights_node (ws : Vector Word 513) {n : Nat} (hn : n < 513) (a b : Nat) :
    (zeroWeights (zeroWeights ws (n + 1) a) (n + 1 + a) b).set (Fin.ofNat 513 n).val 0
      = zeroWeights ws n (1 + a + b) := by
  have hv := ofNat_val hn
  apply Vector.ext
  intro i hi
  simp only [zeroWeights, Fin.getElem_fin, tabulate_get, Vector.getElem_set, hv]
  split_ifs <;> first | rfl | omega

/-- The state with a decoded tree stored from index `n` on, and its header read. -/
def State.stored (n : Nat) (t : Tree) (s : State) : State :=
  { s.pastBits t.header.length with
    nodes := putNodes s.nodes n (t.preorder n)
    nodeW := zeroWeights s.nodeW n t.size }

theorem stored_leaf {n : Nat} (hn : n < 513) (sym : Sym) (s : State) :
    (s.pastBits 10).setNode (Fin.ofNat 513 n) (.leaf sym) = s.stored n (.leaf sym) := by
  unfold State.setNode
  rw [putNodes_one _ hn, zeroWeights_one _ hn]
  simp [State.stored, Tree.header, Tree.preorder, Tree.size, State.pastBits]

theorem stored_node {n : Nat} {l r : Tree} (hn : n < 513) (s : State) (w1 w2 : Option HeaderWork) :
    (({ ({ s.pastBits 1 with work := w1 }.stored (n + 1) l) with work := w2 }).stored (n + 1 + l.size)
      r).setNode (Fin.ofNat 513 n) (.internal (Fin.ofNat 513 (n + 1)) (Fin.ofNat 513 (n + 1 + l.size)))
      = { s.stored n (.node l r) with work := w2 } := by
  have e := putNodes_node s.nodes hn (.internal (Fin.ofNat 513 (n + 1)) (Fin.ofNat 513 (n + 1 + l.size)))
    (l.preorder (n + 1)) (r.preorder (n + 1 + l.size))
  rw [preorder_length] at e
  have e2 := zeroWeights_node s.nodeW hn l.size r.size
  simp only [State.setNode, State.stored, State.pastBits, Tree.preorder, Tree.size]
  rw [e, e2]
  simp [Tree.header, Nat.add_assoc, Nat.add_comm]

theorem stored_bits (n : Nat) (t : Tree) (s : State) : (s.stored n t).bitIn.rest
    = s.bitIn.rest.drop t.header.length := by
  simpa [State.stored] using pastBits_rest t.header.length s

/-- A complete header is read back: its nodes are stored in preorder from the next free index on, and its
root is delivered to the pending nodes (42_header_codec R145). -/
theorem headerLoop_tree (t : Tree) (n k : Nat) (s : State) (stack : List Frame) (r : List Bool)
    (hw : s.work = some { alloc := n, stack := stack }) (hr : s.bitIn.rest = t.header ++ r)
    (hn : n + t.size ≤ 513) :
    headerLoop (t.size + k) s
      = resume k (State.deliver (n + t.size) (Fin.ofNat 513 n) stack (s.stored n t)) := by
  induction t generalizing n k s stack r with
  | leaf sym =>
    simp only [Tree.size] at hn ⊢
    have hlt : n < 513 := by omega
    rw [Nat.add_comm 1 k, headerLoop_succ, step_leaf hw hlt (by simpa [Tree.header] using hr),
      andThen_ok, stored_leaf hlt]
  | node l r' ihl ihr =>
    simp only [Tree.size] at hn ⊢
    have hl := size_pos l
    have hr' := size_pos r'
    have hlt : n < 513 := by omega
    simp only [Tree.header, List.cons_append, List.append_assoc] at hr
    rw [show 1 + l.size + r'.size + k = (l.size + (r'.size + k)) + 1 by omega, headerLoop_succ,
      step_internal hw hlt hr, andThen_ok]
    simp only [resume]
    have hr1 : ({ s.pastBits 1 with work := some { alloc := n + 1, stack := .needLeft (Fin.ofNat 513 n) :: stack } }
        : State).bitIn.rest = l.header ++ (r'.header ++ r) := by
      simpa [hr] using pastBits_rest 1 s
    rw [ihl (n + 1) (r'.size + k) _ _ _ rfl hr1 (by omega)]
    simp only [State.deliver, resume]
    have hr2 : ({ ({ s.pastBits 1 with work := some { alloc := n + 1, stack := .needLeft (Fin.ofNat 513 n) :: stack } }
        : State).stored (n + 1) l with
        work := some { alloc := n + 1 + l.size, stack := .needRight (Fin.ofNat 513 n) (Fin.ofNat 513 (n + 1)) :: stack } }
        : State).bitIn.rest = r'.header ++ r := by
      have := stored_bits (n + 1) l { s.pastBits 1 with work := some { alloc := n + 1, stack := .needLeft (Fin.ofNat 513 n) :: stack } }
      rw [hr1] at this
      simpa using this
    rw [ihr (n + 1 + l.size) k _ _ _ rfl hr2 (by omega)]
    simp only [State.deliver]
    rw [stored_node (by omega), deliver_work]
    simp only [resume]
    rw [show n + 1 + l.size + r'.size = n + (1 + l.size + r'.size) by omega]

end Sys2Proof.Machine
end

