-- ==== Sys2Proof/Laws/Tree.lean ====
section
/-! SUPPORT. Trees in the node store: preorder storage, the tree at ROOT, and the node indices it uses. -/

namespace Sys2Proof.Machine

/-- The longest path of a tree. -/
def Tree.depth : Tree → Nat
  | .leaf _ => 0
  | .node l r => 1 + max l.depth r.depth

/-- A tree with `L` leaves has depth at most `L - 1` (41_code_table R131). -/
theorem depth_lt_leafCount (t : Tree) : t.depth < t.leafCount := by
  induction t with
  | leaf => simp [Tree.depth, Tree.leafCount]
  | node l r ihl ihr => simp only [Tree.depth, Tree.leafCount]; omega

theorem isTreeAt_length {nodes : Vector Node 513} {i : NodeIdx} {t : Tree} {is : List Nat}
    (h : IsTreeAt nodes i t is) : is.length = t.size := by
  induction h with
  | leaf => rfl
  | node i l r tl tr il ir h hl hr ihl ihr => simp [Tree.size, ihl, ihr]; omega

/-- The tree at an index is unique, and reading it deep enough finds it. -/
theorem shapeAt_of_isTreeAt {nodes : Vector Node 513} {i : NodeIdx} {t : Tree} {is : List Nat}
    (h : IsTreeAt nodes i t is) (d : Nat) (hd : t.depth ≤ d) : shapeAt nodes d i = some t := by
  induction h generalizing d with
  | leaf i sym h => cases d <;> simp [shapeAt, h]
  | node i l r tl tr il ir h hl hr ihl ihr =>
    simp only [Tree.depth] at hd
    obtain ⟨d, rfl⟩ : ∃ e, d = e + 1 := ⟨d - 1, by omega⟩
    simp [shapeAt, h, ihl d (by omega), ihr d (by omega)]

/-- What a reading of the node store finds is a tree there. -/
theorem isTreeAt_of_shapeAt {nodes : Vector Node 513} (d : Nat) {i : NodeIdx} {t : Tree}
    (h : shapeAt nodes d i = some t) : ∃ is, IsTreeAt nodes i t is := by
  induction d generalizing i t with
  | zero =>
    simp only [shapeAt] at h
    split at h
    · rename_i sym hn
      cases h
      exact ⟨_, .leaf i sym hn⟩
    · cases h
  | succ d ih =>
    simp only [shapeAt] at h
    split at h
    · rename_i sym hn
      cases h
      exact ⟨_, .leaf i sym hn⟩
    · rename_i l r hn
      split at h
      · rename_i a b ha hb
        cases h
        obtain ⟨il, hl⟩ := ih ha
        obtain ⟨ir, hr⟩ := ih hb
        exact ⟨_, .node i l r a b il ir hn hl hr⟩
      · cases h

/-- A well-formed tree (10_state R41) is the one GEN_CODES and HDR_ENCODE read. -/
theorem treeWf_tree {s : State} (h : s.TreeWf) :
    ∃ t is, IsTreeAt s.nodes s.root t is ∧ is.Perm (List.range s.nodeCount.val) ∧ s.tree = some t ∧
      t.size = s.nodeCount.val ∧ t.leafCount ≤ 257 := by
  obtain ⟨t, is, ht, hp⟩ := h
  have hlen := isTreeAt_length ht
  rw [hp.length_eq, List.length_range] at hlen
  have hc := s.nodeCount.isLt
  have hs := size_eq t
  have hd := depth_lt_leafCount t
  have hpos := leafCount_pos t
  exact ⟨t, is, ht, hp, shapeAt_of_isTreeAt ht _ (by simp only [Config.maxCodeLen]; omega), hlen.symm,
    by omega⟩

theorem preorderAt_size {nodes : Vector Node 513} {t : Tree} {i j : Nat} (h : PreorderAt nodes i j t) :
    j = i + t.size ∧ j ≤ 513 := by
  induction t generalizing i j with
  | leaf sym =>
    obtain ⟨rfl, hi, _⟩ := h
    exact ⟨rfl, hi⟩
  | node l r ihl ihr =>
    obtain ⟨m, hi, hl, hr, _⟩ := h
    have := ihl hl
    have := ihr hr
    simp only [Tree.size]; omega

/-- A stored subtree depends on its own indices only. -/
theorem preorderAt_congr {nodes nodes' : Vector Node 513} {t : Tree} {i j : Nat}
    (h : PreorderAt nodes i j t) (he : ∀ k (hk : k < 513), i ≤ k → k < j → nodes'[k] = nodes[k]) :
    PreorderAt nodes' i j t := by
  induction t generalizing i j with
  | leaf sym =>
    obtain ⟨rfl, hi, hn⟩ := h
    exact ⟨rfl, hi, by rw [he i hi le_rfl (by omega), hn]⟩
  | node l r ihl ihr =>
    obtain ⟨m, hi, hl, hr, h1, h2, hn⟩ := h
    have sl := preorderAt_size hl
    have sr := preorderAt_size hr
    have := size_pos r
    refine ⟨m, hi, ihl hl fun k hk a b => he k hk (by omega) (by omega),
      ihr hr fun k hk a b => he k hk (by omega) b, h1, h2, ?_⟩
    rw [he i hi le_rfl (by omega), hn]

/-- A tree stored in preorder is a tree there, with its indices in a row. -/
theorem isTreeAt_of_preorderAt {nodes : Vector Node 513} {t : Tree} {i j : Nat}
    (h : PreorderAt nodes i j t) (hi : i < 513) : IsTreeAt nodes ⟨i, hi⟩ t (List.range' i t.size) := by
  induction t generalizing i j with
  | leaf sym =>
    obtain ⟨_, _, hn⟩ := h
    exact .leaf _ sym hn
  | node l r ihl ihr =>
    obtain ⟨m, _, hl, hr, h1, h2, hn⟩ := h
    have sl := preorderAt_size hl
    have e : List.range' i (Tree.node l r).size
        = i :: (List.range' (i + 1) l.size ++ List.range' m r.size) := by
      simp only [Tree.size]
      rw [show 1 + l.size + r.size = (l.size + r.size) + 1 by omega, List.range'_succ, sl.1,
        List.range'_append_1]
    rw [e]
    exact .node _ ⟨i + 1, h1⟩ ⟨m, h2⟩ l r _ _ hn (ihl hl h1) (ihr hr h2)

/-- Storing a tree's preorder listing stores the tree. -/
theorem preorderAt_of_get {nodes : Vector Node 513} {t : Tree} {n : Nat} (hn : n + t.size ≤ 513)
    (h : ∀ k (hk : n + k < 513), k < t.size → (t.preorder n)[k]? = some nodes[n + k]) :
    PreorderAt nodes n (n + t.size) t := by
  induction t generalizing n with
  | leaf sym =>
    simp only [Tree.size] at hn h ⊢
    have := h 0 (by omega) (by omega)
    simp only [Tree.preorder, Nat.add_zero, List.getElem?_cons_zero, Option.some.injEq] at this
    exact ⟨rfl, by omega, this.symm⟩
  | node l r ihl ihr =>
    simp only [Tree.size] at hn h ⊢
    have hl := size_pos l
    have hr := size_pos r
    have h0 := h 0 (by omega) (by omega)
    simp only [Tree.preorder, Nat.add_zero, List.getElem?_cons_zero, Option.some.injEq] at h0
    refine ⟨n + 1 + l.size, by omega, ihl (by omega) fun k hk hlt => ?_, ?_, by omega, by omega, ?_⟩
    · have := h (k + 1) (by omega) (by omega)
      rw [Tree.preorder, List.getElem?_cons_succ, List.getElem?_append_left (by simpa using hlt)] at this
      simpa [show n + (k + 1) = n + 1 + k by omega] using this
    · rw [show n + (1 + l.size + r.size) = n + 1 + l.size + r.size by omega]
      refine ihr (by omega) fun k hk hlt => ?_
      have := h (l.size + k + 1) (by omega) (by omega)
      rw [Tree.preorder, List.getElem?_cons_succ, List.getElem?_append_right (by simp)] at this
      simpa [show n + (l.size + k + 1) = n + 1 + l.size + k by omega] using this
    · rw [← h0]
      congr 1 <;> exact Fin.ext (ofNat_val (by omega))

theorem preorderAt_putNodes (nodes : Vector Node 513) {t : Tree} {n : Nat} (hn : n + t.size ≤ 513) :
    PreorderAt (putNodes nodes n (t.preorder n)) n (n + t.size) t := by
  refine preorderAt_of_get hn fun k hk hlt => ?_
  simp only [putNodes, tabulate_get, Nat.le_add_right, if_true, Nat.add_sub_cancel_left]
  rw [List.getElem?_eq_getElem (by simpa using hlt)]
  simp

end Sys2Proof.Machine
end

