-- ==== Sys2Proof/Laws/TreeBuild.lean ====
section
/-! SUPPORT. The Tree Builder: the working set, the leaves, and what every merge keeps. -/

namespace Sys2Proof.Machine

/-- A node's key orders it strictly before another's (00_scope R15). -/
def Live.le (a b : Live) : Prop :=
  a.weight < b.weight ∨ (a.weight = b.weight ∧ a.index ≤ b.index)

theorem not_before {a b : Live} : ¬ (b.before a = true) ↔ a.le b := by
  simp only [Live.before, Live.le, Bool.or_eq_true, Bool.and_eq_true, decide_eq_true_eq]; omega

theorem Live.le.trans {a b c : Live} (h : a.le b) (g : b.le c) : a.le c := by
  unfold Live.le at *; omega

theorem before_le {a b : Live} (h : a.before b = true) : a.le b := by
  simp only [Live.before, Bool.or_eq_true, Bool.and_eq_true, decide_eq_true_eq] at h
  unfold Live.le; omega

/-- `takeLeast` answers a least member and the others (40_tree_builder R113, R115). -/
theorem takeLeast_spec {live rest : List Live} {a : Live} (h : takeLeast live = some (a, rest)) :
    (a :: rest).Perm live ∧ ∀ x ∈ rest, a.le x := by
  induction live generalizing a rest with
  | nil => simp [takeLeast] at h
  | cons x xs ih =>
    rw [takeLeast] at h
    rcases hx : takeLeast xs with _ | ⟨y, ys⟩
    · rw [hx] at h
      cases h
      refine ⟨.refl _, fun z hz => ?_⟩
      cases xs with
      | nil => simp at hz
      | cons w ws =>
        rw [takeLeast] at hx
        split at hx
        · cases hx
        · split at hx <;> cases hx
    · rw [hx] at h
      obtain ⟨hp, hle⟩ := ih hx
      simp only at h
      split at h
      · rename_i hb
        cases h
        refine ⟨(List.Perm.swap _ _ _).trans (hp.cons x), fun z hz => ?_⟩
        rcases List.mem_cons.mp hz with rfl | hz
        · exact before_le hb
        · exact hle z hz
      · rename_i hb
        cases h
        refine ⟨.refl _, fun z hz => ?_⟩
        have hxy := not_before.mp hb
        rcases List.mem_cons.mp (hp.mem_iff.mpr hz) with rfl | hz
        · exact hxy
        · exact hxy.trans (hle z hz)

theorem takeLeast_none {live : List Live} (h : takeLeast live = none) : live = [] := by
  cases live with
  | nil => rfl
  | cons x xs =>
    rw [takeLeast] at h
    split at h
    · cases h
    · split at h <;> cases h

/-- The number of merges needed: one fewer than the live nodes. -/
theorem takeLeast_length {live rest : List Live} {a : Live} (h : takeLeast live = some (a, rest)) :
    live.length = rest.length + 1 := by
  simpa using (takeLeast_spec h).1.length_eq.symm

/-- The trees of a list of nodes, as `IsTreeAt` is of the node store. -/
inductive IsTreeIn (es : List Entry) : Nat → Tree → List Nat → Prop
  | leaf (i : Nat) (sym : Sym) (w : Nat) (h : es[i]? = some ⟨.leaf sym, w⟩) : IsTreeIn es i (.leaf sym) [i]
  | node (i : Nat) (l r : NodeIdx) (w : Nat) (tl tr : Tree) (il ir : List Nat)
      (h : es[i]? = some ⟨.internal l r, w⟩) (hl : IsTreeIn es l.val tl il) (hr : IsTreeIn es r.val tr ir) :
      IsTreeIn es i (.node tl tr) (i :: (il ++ ir))

theorem IsTreeIn.append {es : List Entry} {i : Nat} {t : Tree} {is : List Nat} (h : IsTreeIn es i t is)
    (es' : List Entry) : IsTreeIn (es ++ es') i t is := by
  induction h with
  | leaf i sym w h => exact .leaf i sym w (by rw [List.getElem?_append_left (List.getElem?_eq_some_iff.mp h).1, h])
  | node i l r w tl tr il ir h _ _ ihl ihr =>
    exact .node i l r w tl tr il ir
      (by rw [List.getElem?_append_left (List.getElem?_eq_some_iff.mp h).1, h]) ihl ihr

/-- The symbols of a tree's leaves, in preorder. -/
def Tree.syms (t : Tree) : List Sym :=
  t.paths.map Prod.fst

theorem syms_leaf (sym : Sym) : (Tree.leaf sym).syms = [sym] := rfl

theorem syms_node (l r : Tree) : (Tree.node l r).syms = l.syms ++ r.syms := by
  simp [Tree.syms, Tree.paths, Function.comp_def]

/-- The leaf symbols of a list of entries. -/
def leafSyms (es : List Entry) : List Sym :=
  es.filterMap fun e => match e.node with
    | .leaf sym => some sym
    | .internal _ _ => none

/-- No node below `n` has `c` as a child. -/
def Unused (es : List Entry) (n c : Nat) : Prop :=
  ∀ m, m < n → ∀ l r w, es[m]? = some ⟨.internal l r, w⟩ → l.val ≠ c ∧ r.val ≠ c

/-- The entry at `n` merges the two least of the nodes below `n` that no earlier merge has taken
(40_tree_builder R113, R115, R116). -/
def Merged (es : List Entry) (n : Nat) : Prop :=
  ∃ (a b : NodeIdx) (wa wb : Nat), es[n]? = some ⟨.internal a b, wa + wb⟩ ∧ a.val < n ∧ b.val < n ∧
    (es[a.val]?).map Entry.weight = some wa ∧ (es[b.val]?).map Entry.weight = some wb ∧ a ≠ b ∧
    (Live.mk wa a.val).le ⟨wb, b.val⟩ ∧ Unused es n a.val ∧ Unused es n b.val ∧
    ∀ c wc, c < n → (es[c]?).map Entry.weight = some wc → c ≠ a.val → c ≠ b.val → Unused es n c →
      (Live.mk wb b.val).le ⟨wc, c⟩

/-- What holds at every turn of the merge loop, for `L` leaves. -/
structure Stage (leaves : List Entry) (live : List Live) (es : List Entry) : Prop where
  leaf : ∀ e ∈ leaves, ∃ s, e.node = .leaf s
  pre : leaves <+: es
  count : live.length + es.length = 2 * leaves.length
  some_live : 0 < live.length
  forest : ∃ ts : List (Tree × List Nat),
    List.Forall₂ (fun x t => IsTreeIn es x.index t.1 t.2) live ts ∧
    (ts.flatMap Prod.snd).Perm (List.range es.length) ∧
    (ts.flatMap fun t => t.1.syms).Perm (leafSyms leaves)
  weight : ∀ x ∈ live, (es[x.index]?).map Entry.weight = some x.weight
  sum : (live.map Live.weight).sum = (leaves.map Entry.weight).sum
  bound : ∀ e ∈ es, e.weight ≤ (leaves.map Entry.weight).sum
  nodup : (live.map Live.index).Nodup
  mem : ∀ c, c ∈ live.map Live.index ↔ c < es.length ∧ Unused es es.length c
  merged : ∀ n, leaves.length ≤ n → n < es.length → Merged es n

theorem liveOf_length (i : Nat) (es : List Entry) : (liveOf i es).length = es.length := by
  induction es generalizing i with
  | nil => rfl
  | cons e es ih => simp [liveOf, ih]

theorem liveOf_get (i : Nat) (es : List Entry) (k : Nat) :
    (liveOf i es)[k]? = (es[k]?).map fun e => ⟨e.weight, i + k⟩ := by
  induction es generalizing i k with
  | nil => simp [liveOf]
  | cons e es ih =>
    cases k with
    | zero => simp [liveOf]
    | succ k => simp [liveOf, ih, Nat.add_assoc, Nat.add_comm 1 k]

theorem liveOf_index (i : Nat) (es : List Entry) : (liveOf i es).map Live.index = List.range' i es.length := by
  induction es generalizing i with
  | nil => rfl
  | cons e es ih => simp [liveOf, ih, List.range'_succ]

theorem liveOf_weight (i : Nat) (es : List Entry) : (liveOf i es).map Live.weight = es.map Entry.weight := by
  induction es generalizing i with
  | nil => rfl
  | cons e es ih => simp [liveOf, ih]

/-- Every entry of the leaves is a leaf. -/
theorem leafEntries_leaf {sym : Nat} {fs : List Nat} {e : Entry} (h : e ∈ leafEntries sym fs) :
    ∃ s, e.node = .leaf s := by
  induction fs generalizing sym with
  | nil => simp [leafEntries] at h
  | cons f fs ih =>
    rw [leafEntries] at h
    split at h
    · exact ih h
    · rcases List.mem_cons.mp h with rfl | h
      · exact ⟨_, rfl⟩
      · exact ih h

/-- The leaves, each a tree of its own. -/
theorem stage_leaves {leaves : List Entry} (hl : ∀ e ∈ leaves, ∃ s, e.node = .leaf s) (h0 : 0 < leaves.length) :
    Stage leaves (liveOf 0 leaves) leaves := by
  have unused : ∀ n c, Unused leaves n c := by
    intro n c m _ l r w h
    obtain ⟨s, hs⟩ := hl _ (List.mem_of_getElem? h)
    cases hs
  refine ⟨hl, List.prefix_refl _, by rw [liveOf_length]; omega, by rw [liveOf_length]; exact h0, ?_, ?_, ?_, ?_, ?_, ?_, ?_⟩
  · refine ⟨(leaves.zipIdx).map fun p => (match p.1.node with
      | .leaf s => Tree.leaf s
      | .internal _ _ => Tree.leaf 0, [p.2]), ?_, ?_, ?_⟩
    · rw [List.forall₂_iff_get]
      refine ⟨by simp [liveOf_length], fun i h1 h2 => ?_⟩
      have hi : i < leaves.length := by simpa [liveOf_length] using h1
      obtain ⟨s, hs⟩ := hl leaves[i] (List.getElem_mem hi)
      have e1 : (liveOf 0 leaves)[i]? = some (liveOf 0 leaves)[i] := List.getElem?_eq_getElem h1
      rw [liveOf_get, List.getElem?_eq_getElem hi] at e1
      simp only [Option.map_some, Option.some.injEq, Nat.zero_add] at e1
      simp only [List.get_eq_getElem, ← e1, List.getElem_map, List.getElem_zipIdx, Nat.zero_add, hs]
      exact .leaf i s leaves[i].weight (by rw [List.getElem?_eq_getElem hi, ← hs])
    · have : (leaves.zipIdx.flatMap fun p => [p.2]) = List.range leaves.length := by
        rw [← List.map_eq_flatMap, List.zipIdx_map_snd, List.range_eq_range']
      rw [List.flatMap_map]
      exact this ▸ .refl _
    · have : ∀ (es : List Entry) (k : Nat), (∀ e ∈ es, ∃ s, e.node = .leaf s) →
          (((es.zipIdx k).map fun p => ((match p.1.node with
            | .leaf s => Tree.leaf s
            | .internal _ _ => Tree.leaf 0 : Tree), [p.2])).flatMap fun t => t.1.syms) = leafSyms es := by
        intro es
        induction es with
        | nil => intro _ _; rfl
        | cons e es ih =>
          intro k h
          obtain ⟨s, hs⟩ := h e (by simp)
          have ih' := ih (k + 1) fun e he => h e (by simp [he])
          simp only [List.zipIdx_cons, List.map_cons, List.flatMap_cons, ih', leafSyms, hs, syms_leaf]
          simp [hs]
      rw [this leaves 0 hl]
  · intro x hx
    obtain ⟨i, hi, rfl⟩ := List.getElem_of_mem hx
    have e1 : (liveOf 0 leaves)[i]? = some (liveOf 0 leaves)[i] := List.getElem?_eq_getElem hi
    rw [liveOf_length] at hi
    rw [liveOf_get, List.getElem?_eq_getElem hi] at e1
    simp only [Option.map_some, Option.some.injEq, Nat.zero_add] at e1
    rw [← e1]
    simp [List.getElem?_eq_getElem hi]
  · rw [liveOf_weight]
  · intro e he
    exact List.single_le_sum (fun _ _ => Nat.zero_le _) _ (List.mem_map_of_mem he)
  · rw [liveOf_index]; exact List.nodup_range'
  · intro c
    rw [liveOf_index]
    simp [List.mem_range'_1, unused]
  · intro n h1 h2; omega

/-- One merge (40_tree_builder R113). -/
theorem stage_merge {leaves : List Entry} {live live1 live2 : List Live} {es : List Entry} {a b : Live}
    (h : Stage leaves live es) (hL : leaves.length ≤ 257) (ha : takeLeast live = some (a, live1))
    (hb : takeLeast live1 = some (b, live2)) :
    Stage leaves ({ weight := a.weight + b.weight, index := es.length } :: live2)
      (es ++ [{ node := .internal (nodeIdx a.index) (nodeIdx b.index), weight := a.weight + b.weight }]) := by
  obtain ⟨pa, la⟩ := takeLeast_spec ha
  obtain ⟨pb, lb⟩ := takeLeast_spec hb
  have lena := takeLeast_length ha
  have lenb := takeLeast_length hb
  have hp : (a :: b :: live2).Perm live := (pb.cons a).trans pa
  have mema : a ∈ live := hp.mem_iff.mp (by simp)
  have memb : b ∈ live := hp.mem_iff.mp (by simp)
  have hcount := h.count
  have hlen : es.length < 513 := by omega
  have ia := (h.mem a.index).mp (List.mem_map_of_mem mema)
  have ib := (h.mem b.index).mp (List.mem_map_of_mem memb)
  have va : (nodeIdx a.index).val = a.index := ofNat_val (by omega)
  have vb : (nodeIdx b.index).val = b.index := ofNat_val (by omega)
  have wa := h.weight a mema
  have wb := h.weight b memb
  have hnd : ((a :: b :: live2).map Live.index).Nodup := ((hp.map Live.index).nodup_iff).mpr h.nodup
  simp only [List.map_cons, List.nodup_cons, List.mem_cons, not_or] at hnd
  obtain ⟨⟨hab, ha2⟩, hb2, hnd2⟩ := hnd
  have hmem : ∀ c, c ∈ live.map Live.index ↔ c = a.index ∨ c = b.index ∨ c ∈ live2.map Live.index := by
    intro c
    rw [← (hp.map Live.index).mem_iff]; simp
  have hsum : a.weight + (b.weight + (live2.map Live.weight).sum) = (leaves.map Entry.weight).sum := by
    rw [← h.sum, ← (hp.map Live.weight).sum_eq]; simp
  set e : Entry := { node := .internal (nodeIdx a.index) (nodeIdx b.index), weight := a.weight + b.weight } with he
  have get_old : ∀ c, c < es.length → (es ++ [e])[c]? = es[c]? := fun c hc => List.getElem?_append_left hc
  have get_new : (es ++ [e])[es.length]? = some e := by simp
  have unused_old : ∀ n c, n ≤ es.length → (Unused (es ++ [e]) n c ↔ Unused es n c) := by
    intro n c hn
    constructor
    · intro hu m hm l r w hg
      exact hu m hm l r w (by rw [get_old m (by omega), hg])
    · intro hu m hm l r w hg
      exact hu m hm l r w (by rw [← get_old m (by omega), hg])
  have unused_new : ∀ c, Unused (es ++ [e]) (es.length + 1) c ↔
      Unused es es.length c ∧ c ≠ a.index ∧ c ≠ b.index := by
    intro c
    constructor
    · intro hu
      refine ⟨(unused_old _ c le_rfl).mp fun m hm => hu m (by omega), ?_⟩
      have := hu es.length (by omega) _ _ _ (by rw [get_new])
      rw [va, vb] at this
      exact ⟨Ne.symm this.1, Ne.symm this.2⟩
    · rintro ⟨hu, h1, h2⟩ m hm l r w hg
      by_cases hme : m = es.length
      · subst hme
        rw [get_new] at hg
        simp only [he, Option.some.injEq, Entry.mk.injEq, Node.internal.injEq] at hg
        obtain ⟨⟨rfl, rfl⟩, _⟩ := hg
        rw [va, vb]
        exact ⟨Ne.symm h1, Ne.symm h2⟩
      · exact hu m (by omega) l r w (by rw [← get_old m (by omega), hg])
  have unused_self : Unused es es.length es.length := by
    intro m hm l r w hg
    by_cases hml : m < leaves.length
    · obtain ⟨suf, hsuf⟩ := h.pre
      rw [← hsuf, List.getElem?_append_left hml] at hg
      obtain ⟨s, hs⟩ := h.leaf _ (List.mem_of_getElem? hg)
      cases hs
    · obtain ⟨a', b', _, _, hg', h1, h2, _⟩ := h.merged m (by omega) hm
      rw [hg'] at hg
      simp only [Option.some.injEq, Entry.mk.injEq, Node.internal.injEq] at hg
      obtain ⟨⟨rfl, rfl⟩, _⟩ := hg
      omega
  refine ⟨h.leaf, h.pre.trans (List.prefix_append _ _), by simp; omega, by simp, ?_, ?_, ?_, ?_, ?_, ?_, ?_⟩
  · obtain ⟨ts, h1, h2, h3⟩ := h.forest
    obtain ⟨ts', h4, h5⟩ := List.perm_comp_forall₂ hp h1
    obtain ⟨ta, ts1, hta, h6, rfl⟩ := List.forall₂_cons_left_iff.mp h4
    obtain ⟨tb, ts2, htb, h7, rfl⟩ := List.forall₂_cons_left_iff.mp h6
    refine ⟨(.node ta.1 tb.1, es.length :: (ta.2 ++ tb.2)) :: ts2, .cons ?_ ?_, ?_, ?_⟩
    · refine .node _ (nodeIdx a.index) (nodeIdx b.index) _ _ _ _ _ get_new ?_ ?_
      · rw [va]; exact hta.append _
      · rw [vb]; exact htb.append _
    · exact h7.imp fun _ _ hx => hx.append _
    · have := (h5.flatMap_right Prod.snd).trans h2
      simp only [List.flatMap_cons, ← List.append_assoc] at this
      simp only [List.flatMap_cons, List.cons_append, List.length_append, List.length_cons,
        List.length_nil, Nat.zero_add, List.range_succ]
      exact (this.cons es.length).trans (List.perm_append_singleton _ _).symm
    · have := (h5.flatMap_right fun t => t.1.syms).trans h3
      simpa [syms_node] using this
  · intro x hx
    rcases List.mem_cons.mp hx with rfl | hx
    · rw [get_new]; rfl
    · have hx' : x ∈ live := hp.mem_iff.mp (by simp [hx])
      rw [get_old _ ((h.mem x.index).mp (List.mem_map_of_mem hx')).1]
      exact h.weight x hx'
  · simp only [List.map_cons, List.sum_cons]; omega
  · intro x hx
    rcases List.mem_append.mp hx with hx | hx
    · exact h.bound x hx
    · rw [List.mem_singleton.mp hx]
      show a.weight + b.weight ≤ _
      omega
  · simp only [List.map_cons, List.nodup_cons]
    refine ⟨fun hc => ?_, hnd2⟩
    have := (h.mem es.length).mp ((hmem _).mpr (.inr (.inr hc)))
    omega
  · intro c
    simp only [List.map_cons, List.mem_cons, List.length_append, List.length_cons, List.length_nil,
      Nat.zero_add, unused_new]
    constructor
    · rintro (rfl | hc)
      · exact ⟨by omega, unused_self, by omega, by omega⟩
      · have := (h.mem c).mp ((hmem c).mpr (.inr (.inr hc)))
        refine ⟨by omega, this.2, ?_, ?_⟩
        · rintro rfl; exact ha2 hc
        · rintro rfl; exact hb2 hc
    · rintro ⟨hc, hu, h1, h2⟩
      by_cases hce : c = es.length
      · exact .inl hce
      · have := (hmem c).mp ((h.mem c).mpr ⟨by omega, hu⟩)
        simp only [h1, h2, false_or] at this
        exact .inr this
  · intro n h1 h2
    simp only [List.length_append, List.length_cons, List.length_nil, Nat.zero_add] at h2
    by_cases hn : n = es.length
    · subst hn
      refine ⟨nodeIdx a.index, nodeIdx b.index, a.weight, b.weight, get_new, by omega, by omega, ?_, ?_, ?_, ?_,
        ?_, ?_, ?_⟩
      · rw [va, get_old _ ia.1, wa]
      · rw [vb, get_old _ ib.1, wb]
      · intro he
        have := congrArg Fin.val he
        omega
      · rw [va, vb]
        exact la b (pb.mem_iff.mp (by simp))
      · rw [va]; exact (unused_old _ _ le_rfl).mpr ia.2
      · rw [vb]; exact (unused_old _ _ le_rfl).mpr ib.2
      · intro c wc hc hw hca hcb hu
        rw [va] at hca
        rw [vb] at hcb ⊢
        have hcl := (hmem c).mp ((h.mem c).mpr ⟨hc, (unused_old _ _ le_rfl).mp hu⟩)
        simp only [hca, hcb, false_or] at hcl
        obtain ⟨x, hx, rfl⟩ := List.mem_map.mp hcl
        have hx' : x ∈ live := hp.mem_iff.mp (by simp [hx])
        have hwx := h.weight x hx'
        rw [get_old _ hc, hwx] at hw
        cases hw
        exact lb x hx
    · obtain ⟨a', b', wa', wb', hg, p1, p2, p3, p4, p5, p6, p7, p8, p9⟩ := h.merged n h1 (by omega)
      refine ⟨a', b', wa', wb', by rw [get_old _ (by omega), hg], p1, p2, by rw [get_old _ (by omega), p3],
        by rw [get_old _ (by omega), p4], p5, p6, (unused_old _ _ (by omega)).mpr p7,
        (unused_old _ _ (by omega)).mpr p8, fun c wc hc hw h3 h4 hu => ?_⟩
      exact p9 c wc hc (by rw [← get_old _ (by omega), hw]) h3 h4 ((unused_old _ _ (by omega)).mp hu)

/-- The merge loop ends with one live node (40_tree_builder R113). -/
theorem stage_all {leaves : List Entry} (hL : leaves.length ≤ 257) (k : Nat) {live : List Live} {es : List Entry}
    (h : Stage leaves live es) (hk : live.length ≤ k + 1) :
    Stage leaves (mergeAll k live es).1 (mergeAll k live es).2 ∧ (mergeAll k live es).1.length = 1 := by
  induction k generalizing live es with
  | zero => exact ⟨h, by have := h.some_live; simp only [mergeAll]; omega⟩
  | succ k ih =>
    rw [mergeAll]
    have h0 := h.some_live
    rcases ha : takeLeast live with _ | ⟨a, live1⟩
    · rw [takeLeast_none ha] at h0; simp at h0
    · have lena := takeLeast_length ha
      simp only
      rcases hb : takeLeast live1 with _ | ⟨b, live2⟩
      · rw [takeLeast_none hb] at lena
        exact ⟨h, by simpa using lena⟩
      · have lenb := takeLeast_length hb
        exact ih (stage_merge h hL ha hb) (by simp; omega)

end Sys2Proof.Machine
end

