-- ==== Sys2Proof/Laws/Build.lean ====
section
/-! SUPPORT. BUILD_TREE as a whole: its leaves, its root, and the well-formed tree it stores. -/

namespace Sys2Proof.Machine

/-- One leaf for each non-zero count (40_tree_builder R114). -/
theorem leafEntries_length (sym : Nat) (fs : List Nat) :
    (leafEntries sym fs).length = fs.countP (· ≠ 0) := by
  induction fs generalizing sym with
  | nil => rfl
  | cons f fs ih =>
    rw [leafEntries, List.countP_cons]
    by_cases h : f = 0 <;> simp [h, ih]

/-- A symbol with a non-zero count has its leaf at the number of smaller ones with a non-zero count
(40_tree_builder R114). -/
theorem leafEntries_get (sym : Nat) (fs : List Nat) {k : Nat} (hk : k < fs.length) (h : fs[k] ≠ 0) :
    (leafEntries sym fs)[(fs.take k).countP (· ≠ 0)]?
      = some ⟨.leaf (BitVec.ofNat 9 (sym + k)), fs[k]⟩ := by
  induction fs generalizing sym k with
  | nil => simp at hk
  | cons f fs ih =>
    cases k with
    | zero => simp at h; simp [leafEntries, h]
    | succ k =>
      simp only [List.getElem_cons_succ] at h ⊢
      have := ih (sym + 1) (k := k) (by simpa using hk) h
      rw [leafEntries, List.take_succ_cons, List.countP_cons]
      by_cases hf : f = 0
      · simp only [hf, ne_eq, not_true_eq_false, decide_false, Bool.false_eq_true, if_false, if_true,
          Nat.add_zero, this, Nat.add_assoc, Nat.add_comm 1 k]
      · simp only [hf, ne_eq, not_false_eq_true, decide_true, if_true, if_false, List.getElem?_cons_succ,
          this, Nat.add_assoc, Nat.add_comm 1 k]

theorem leafSyms_leafEntries (sym : Nat) (fs : List Nat) :
    leafSyms (leafEntries sym fs) = (fs.zipIdx sym).filterMap fun p =>
      if p.1 = 0 then none else some (BitVec.ofNat 9 p.2) := by
  induction fs generalizing sym with
  | nil => rfl
  | cons f fs ih =>
    rw [leafEntries, List.zipIdx_cons]
    by_cases h : f = 0
    · simp [h, ih]
    · simp only [h, if_false, leafSyms, List.filterMap_cons]
      exact congrArg _ (ih (sym + 1))

/-- The symbols with a leaf are those with a non-zero count (40_tree_builder R114). -/
theorem mem_leafSyms {fs : List Nat} (hl : fs.length ≤ 257) (s : Sym) :
    s ∈ leafSyms (leafEntries 0 fs) ↔ ∃ h : s.toNat < fs.length, fs[s.toNat] ≠ 0 := by
  rw [leafSyms_leafEntries, List.mem_filterMap]
  constructor
  · rintro ⟨⟨f, k⟩, hm, hf⟩
    obtain ⟨h1, h2, h3⟩ := List.mem_zipIdx hm
    simp only [Nat.zero_add, Nat.sub_zero] at h1 h2 h3
    by_cases h0 : f = 0
    · simp [h0] at hf
    · simp only [h0, if_false, Option.some.injEq] at hf
      have hk : s.toNat = k := by rw [← hf, BitVec.toNat_ofNat]; omega
      exact ⟨by omega, by simp only [hk]; rw [← h3]; exact h0⟩
  · rintro ⟨h, hne⟩
    refine ⟨(fs[s.toNat], s.toNat), ?_, by simp [hne]⟩
    rw [List.mem_zipIdx_iff_getElem?]
    exact List.getElem?_eq_getElem h

/-- Different symbols for different leaves (10_state R41). -/
theorem leafSyms_nodup_from (sym : Nat) (fs : List Nat) (hl : sym + fs.length ≤ 512) :
    (leafSyms (leafEntries sym fs)).Nodup ∧ ∀ s ∈ leafSyms (leafEntries sym fs), sym ≤ s.toNat := by
  induction fs generalizing sym with
  | nil => simp [leafEntries, leafSyms]
  | cons f fs ih =>
    rw [List.length_cons] at hl
    obtain ⟨h1, h2⟩ := ih (sym + 1) (by omega)
    rw [leafEntries]
    by_cases h : f = 0
    · rw [if_pos h]
      exact ⟨h1, fun s hs => by have := h2 s hs; omega⟩
    · rw [if_neg h]
      have e : leafSyms (⟨.leaf (BitVec.ofNat 9 sym), f⟩ :: leafEntries (sym + 1) fs)
          = BitVec.ofNat 9 sym :: leafSyms (leafEntries (sym + 1) fs) := rfl
      have hv : (BitVec.ofNat 9 sym).toNat = sym := by rw [BitVec.toNat_ofNat]; omega
      rw [e]
      refine ⟨List.nodup_cons.mpr ⟨fun hm => ?_, h1⟩, fun s hs => ?_⟩
      · have := h2 _ hm; omega
      · rcases List.mem_cons.mp hs with rfl | hs
        · omega
        · have := h2 s hs; omega

theorem leafSyms_nodup {fs : List Nat} (hl : fs.length ≤ 257) : (leafSyms (leafEntries 0 fs)).Nodup :=
  (leafSyms_nodup_from 0 fs (by omega)).1

theorem leafEntries_weights (sym : Nat) (fs : List Nat) : ((leafEntries sym fs).map Entry.weight).sum = fs.sum := by
  induction fs generalizing sym with
  | nil => rfl
  | cons f fs ih =>
    rw [leafEntries]
    by_cases h : f = 0 <;> simp [h, ih]

/-- What the merge loop leaves for a list of counts (40_tree_builder R113 to R116, R122). -/
structure Built (fs : List Nat) (root : NodeIdx) (es : List Entry) : Prop where
  length : es.length + 1 = 2 * fs.countP (· ≠ 0)
  atRoot : root.val + 1 = es.length
  pre : leafEntries 0 fs <+: es
  tree : ∃ t is, IsTreeIn es root.val t is ∧ is.Perm (List.range es.length) ∧
    t.syms.Perm (leafSyms (leafEntries 0 fs))
  merged : ∀ n, fs.countP (· ≠ 0) ≤ n → n < es.length → Merged es n
  bound : ∀ e ∈ es, e.weight ≤ fs.sum
  total : (es[root.val]?).map Entry.weight = some fs.sum

theorem huffman_built {fs : List Nat} (hl : fs.length ≤ 257) (h0 : 0 < fs.countP (· ≠ 0)) :
    Built fs (huffman fs).1 (huffman fs).2 := by
  have hL : (leafEntries 0 fs).length ≤ 257 := by
    rw [leafEntries_length]; exact (List.countP_le_length).trans hl
  have hlen := leafEntries_length 0 fs
  have h0' : 0 < (leafEntries 0 fs).length := by omega
  obtain ⟨h, h1⟩ := stage_all hL (leafEntries 0 fs).length
    (stage_leaves (fun _ he => leafEntries_leaf he) h0') (by rw [liveOf_length]; omega)
  set m := mergeAll (leafEntries 0 fs).length (liveOf 0 (leafEntries 0 fs)) (leafEntries 0 fs) with hm
  obtain ⟨x, hx⟩ := List.length_eq_one_iff.mp h1
  have hcount := h.count
  rw [h1] at hcount
  have hunused : Unused m.2 m.2.length (m.2.length - 1) := by
    intro k hk l r w hg
    by_cases hkl : k < (leafEntries 0 fs).length
    · obtain ⟨suf, hsuf⟩ := h.pre
      rw [← hsuf, List.getElem?_append_left hkl] at hg
      obtain ⟨s, hs⟩ := h.leaf _ (List.mem_of_getElem? hg)
      cases hs
    · obtain ⟨a', b', _, _, hg', ha, hb, _⟩ := h.merged k (by omega) hk
      rw [hg'] at hg
      simp only [Option.some.injEq, Entry.mk.injEq, Node.internal.injEq] at hg
      obtain ⟨⟨rfl, rfl⟩, _⟩ := hg
      omega
  have hxi : x.index = m.2.length - 1 := by
    have := (h.mem (m.2.length - 1)).mpr ⟨by omega, hunused⟩
    rw [hx] at this
    exact (by simpa using this : m.2.length - 1 = x.index).symm
  have hroot : (huffman fs).1.val = m.2.length - 1 := by
    show (nodeIdx (m.1.head?.elim 0 Live.index)).val = _
    rw [hx]
    show (nodeIdx x.index).val = _
    rw [nodeIdx, ofNat_val (by omega), hxi]
  have e2 : (huffman fs).2 = m.2 := rfl
  have hsum := h.sum
  rw [hx, leafEntries_weights] at hsum
  have hxw := h.weight x (by simp [hx])
  refine ⟨by rw [e2]; omega, by rw [e2, hroot]; omega, h.pre, ?_, fun n h1 h2 => h.merged n (by omega) h2,
    fun e he => (h.bound e he).trans (le_of_eq (leafEntries_weights 0 fs)), ?_⟩
  · obtain ⟨ts, f1, f2, f3⟩ := h.forest
    rw [hx] at f1
    obtain ⟨t, ts', ht, f4, rfl⟩ := List.forall₂_cons_left_iff.mp f1
    cases f4
    refine ⟨t.1, t.2, by rw [e2, hroot, ← hxi]; exact ht, ?_, ?_⟩
    · rw [e2]; simpa using f2
    · simpa using f3
  · rw [e2, hroot, ← hxi, hxw]
    simpa using hsum

theorem counts_length (freq : Vector Word 256) : (counts freq).length = 257 := by
  simp [counts]

/-- EOS always has a leaf (10_state R38; 40_tree_builder R114). -/
theorem counts_pos (freq : Vector Word 256) : 0 < (counts freq).countP (· ≠ 0) := by
  rw [List.countP_pos_iff]
  exact ⟨1, by simp [counts], by simp⟩

/-- The weight bound (40_tree_builder R117) by the size of the sum. -/
theorem withinWeightBound_iff {w : Nat} (freq : Vector Word 256) :
    withinWeightBound w freq = true ↔ (freq.toList.map BitVec.toNat).sum + 1 < 2 ^ w := by
  have hs : (counts freq).sum = (freq.toList.map BitVec.toNat).sum + 1 := by simp [counts]
  rw [withinWeightBound, decide_eq_true_eq, hs, Nat.log2_lt (by omega)]

theorem weightBound_iff (s : State) : withinWeightBound Config.weightW s.freq = true ↔ s.WeightBound := by
  rw [withinWeightBound_iff, State.WeightBound]
  have := Nat.two_pow_pos Config.weightW
  omega

theorem built_counts (freq : Vector Word 256) :
    Built (counts freq) (huffman (counts freq)).1 (huffman (counts freq)).2 :=
  huffman_built (by rw [counts_length]) (counts_pos freq)

theorem built_length_le {fs : List Nat} {root : NodeIdx} {es : List Entry} (h : Built fs root es)
    (hl : fs.length ≤ 257) : es.length ≤ 513 := by
  have h1 := h.length
  have h2 : fs.countP (· ≠ 0) ≤ fs.length := List.countP_le_length
  omega

/-- A tree of the entries is a tree of the node store they are stored in (40_tree_builder R112). -/
theorem isTreeAt_storeTree {root : NodeIdx} {es : List Entry} (s : State) {n : Nat} {t : Tree} {is : List Nat}
    (h : IsTreeIn es n t is) : ∀ i : NodeIdx, i.val = n → IsTreeAt (s.storeTree root es).nodes i t is := by
  have get : ∀ (i : NodeIdx) (e : Entry), es[i.val]? = some e → (s.storeTree root es).nodes[i] = e.node := by
    intro i e he
    show (tabulate _)[i.val] = _
    rw [tabulate_get]
    simp only [he, Option.elim_some]
  induction h with
  | leaf j sym w hj =>
    rintro i rfl
    exact .leaf i sym (get i _ hj)
  | node j l r w tl tr il ir hj _ _ ihl ihr =>
    rintro i rfl
    exact .node i l r tl tr il ir (get i _ hj) (ihl l rfl) (ihr r rfl)

/-- BUILD_TREE stores a well-formed tree with one leaf for each counted symbol (10_state R41; 40 R114). -/
theorem storeTree_tree {fs : List Nat} {root : NodeIdx} {es : List Entry} (h : Built fs root es)
    (hl : fs.length ≤ 257) (s : State) :
    ∃ t is, IsTreeAt (s.storeTree root es).nodes root t is ∧ is.Perm (List.range es.length) ∧
      t.syms.Perm (leafSyms (leafEntries 0 fs)) ∧ (s.storeTree root es).TreeWf := by
  obtain ⟨t, is, h1, h2, h3⟩ := h.tree
  have ht := isTreeAt_storeTree (root := root) s h1 root rfl
  have hle := built_length_le h hl
  refine ⟨t, is, ht, h2, h3, t, is, ht, ?_⟩
  have e : (Fin.ofNat 514 es.length).val = es.length := by simp [Fin.ofNat]; omega
  show is.Perm (List.range (Fin.ofNat 514 es.length).val)
  rw [e]; exact h2

/-- BUILD_TREE's weights are exact and have no bit at or above `WEIGHT_W` (40_tree_builder R116, R117). -/
theorem storeTree_weight {fs : List Nat} {root : NodeIdx} {es : List Entry} (h : Built fs root es)
    {w : Nat} (hw : w ≤ 32) (hb : fs.sum < 2 ^ w) (s : State) {i : NodeIdx} {e : Entry}
    (he : es[i.val]? = some e) :
    (s.storeTree root es).nodeW[i].toNat = e.weight ∧ e.weight < 2 ^ w := by
  have hlt : e.weight < 2 ^ w := (h.bound e (List.mem_of_getElem? he)).trans_lt hb
  refine ⟨?_, hlt⟩
  have hw' : (s.storeTree root es).nodeW[i] = BitVec.ofNat 32 e.weight := by
    show (tabulate _)[i.val] = _
    rw [tabulate_get]
    simp only [he, Option.elim_some]
  rw [hw', BitVec.toNat_ofNat]
  exact Nat.mod_eq_of_lt (hlt.trans_le (Nat.pow_le_pow_right (by omega) hw))

end Sys2Proof.Machine
end

