-- ==== Sys2Proof/Laws/HeaderDecode.lean ====
section
/-! SUPPORT. HDR_DECODE as a whole: a complete header, a cut one, one too large, and the working state of
a header decode in general. -/

namespace Sys2Proof.Machine

/-- HDR_DECODE of a complete header that fits the node store (42_header_codec R145, R146). -/
theorem hdrDecodeBody_header {s : State} {t : Tree} {r : List Bool} (hr : s.bitIn.rest = t.header ++ r)
    (ht : t.leafCount ≤ 257) :
    hdrDecodeBody s = .ok { (s.dropTree.stored 0 t) with
      root := 0
      nodeCount := Fin.ofNat 514 t.size
      status := { s.status with treeValid := true, codesValid := false }
      work := none } := by
  have hs := size_eq t
  have hp := size_pos t
  have e : Config.nodeCap = t.size + (513 - t.size) := by simp only [Config.nodeCap]; omega
  rw [hdrDecodeBody, e, headerLoop_tree t 0 _ s.beginHeader [] r rfl hr (by omega), Nat.zero_add]
  rfl

/-- The parts of the state a header decode does not touch before its header is complete. -/
structure State.SameBut (s u : State) : Prop where
  eq : u = { s with nodes := u.nodes, nodeW := u.nodeW, bitIn := u.bitIn, work := u.work }
  data : u.bitIn.data = s.bitIn.data

theorem State.SameBut.refl (s : State) : s.SameBut s := ⟨rfl, rfl⟩

theorem State.SameBut.trans {a b c : State} (h : a.SameBut b) (g : b.SameBut c) : a.SameBut c := by
  refine ⟨?_, g.data.trans h.data⟩
  have e := g.eq
  rw [h.eq] at e
  exact e

theorem sameBut_pastBits (n : Nat) (s : State) : s.SameBut (s.pastBits n) := ⟨rfl, rfl⟩

theorem sameBut_stored (n : Nat) (t : Tree) (s : State) : s.SameBut (s.stored n t) := ⟨rfl, rfl⟩

theorem sameBut_work (w : Option HeaderWork) (s : State) : s.SameBut { s with work := w } := ⟨rfl, rfl⟩

/-- The state in which a header decode has just pushed an internal node. -/
def State.pushed (n : Nat) (stack : List Frame) (s : State) : State :=
  { s.pastBits 1 with work := some ⟨n + 1, .needLeft (Fin.ofNat 513 n) :: stack⟩ }

/-- The state in which a header decode has the left subtree of the node at `n` and reads its right one. -/
def State.halfway (n : Nat) (l : Tree) (stack : List Frame) (s : State) : State :=
  { ((s.pushed n stack).stored (n + 1) l) with
    work := some ⟨n + 1 + l.size, .needRight (Fin.ofNat 513 n) (Fin.ofNat 513 (n + 1)) :: stack⟩ }

theorem pushed_rest {n : Nat} {stack : List Frame} {s : State} {b : Bool} {r : List Bool}
    (h : s.bitIn.rest = b :: r) : (s.pushed n stack).bitIn.rest = r := by
  simpa [State.pushed, h] using pastBits_rest 1 s

theorem halfway_rest {n : Nat} {l : Tree} {stack : List Frame} {s : State} {b : Bool} {r : List Bool}
    (h : s.bitIn.rest = b :: (l.header ++ r)) : (s.halfway n l stack).bitIn.rest = r := by
  have := stored_bits (n + 1) l (s.pushed n stack)
  rw [pushed_rest h] at this
  simpa [State.halfway] using this

theorem sameBut_pushed (n : Nat) (stack : List Frame) (s : State) : s.SameBut (s.pushed n stack) := ⟨rfl, rfl⟩

theorem sameBut_halfway (n : Nat) (l : Tree) (stack : List Frame) (s : State) :
    s.SameBut (s.halfway n l stack) :=
  (sameBut_pushed n stack s).trans
    ((sameBut_stored (n + 1) l (s.pushed n stack)).trans (sameBut_work _ _))

/-- An internal token, then its left subtree's tokens, lead to the right subtree (42_header_codec R145). -/
theorem headerLoop_left {n k : Nat} {s : State} {stack : List Frame} {l : Tree} {r : List Bool}
    (hw : s.work = some { alloc := n, stack := stack }) (hr : s.bitIn.rest = false :: (l.header ++ r))
    (hn : n + 1 + l.size ≤ 513) :
    headerLoop (1 + l.size + k) s = headerLoop k (s.halfway n l stack) := by
  have hlp := size_pos l
  have hlt : n < 513 := by omega
  rw [show 1 + l.size + k = (l.size + k) + 1 by omega, headerLoop_succ, step_internal hw hlt hr, andThen_ok]
  simp only [resume]
  exact (headerLoop_tree l (n + 1) k (s.pushed n stack) _ r rfl (pushed_rest hr) hn).trans rfl

theorem header_ne_nil (t : Tree) : t.header ≠ [] := by
  cases t <;> simp [Tree.header]

/-- The tag of a 514th node (42_header_codec R148). -/
theorem headerLoop_cap {s : State} {w : HeaderWork} (hw : s.work = some w) (hn : w.alloc = 513)
    (hr : s.bitIn.rest ≠ []) : headerLoop 0 s = .raised .capacityExceeded none (s.pastBits 1) := by
  simp [headerLoop, headerStep, hw, hn, fetch_full (n := 513) le_rfl hr]

/-- No tag left (42_header_codec R145). -/
theorem headerLoop_empty {s : State} {w : HeaderWork} (k : Nat) (hw : s.work = some w)
    (hr : s.bitIn.rest = []) : headerLoop k s = .raised .malformedHeader none s := by
  cases k <;> simp [headerLoop, headerStep, hw, fetch_empty hr]

/-- A header whose tree does not fit the node store (42_header_codec R148). -/
theorem headerLoop_full (t : Tree) (n : Nat) (s : State) (stack : List Frame) (r : List Bool)
    (hw : s.work = some { alloc := n, stack := stack }) (hr : s.bitIn.rest = t.header ++ r)
    (hn : n ≤ 513) (hfull : 513 < n + t.size) :
    ∃ u, headerLoop (513 - n) s = .raised .capacityExceeded none u ∧ s.SameBut u := by
  have cap : n = 513 → ∃ u, headerLoop (513 - n) s = .raised .capacityExceeded none u ∧ s.SameBut u := by
    rintro rfl
    exact ⟨_, headerLoop_cap hw rfl (by simp [hr, header_ne_nil]), sameBut_pastBits 1 s⟩
  induction t generalizing n s stack r with
  | leaf sym => simp only [Tree.size] at hfull; exact cap (by omega)
  | node l r' ihl ihr =>
    by_cases h : n = 513
    · exact cap h
    simp only [Tree.size] at hfull
    simp only [Tree.header, List.cons_append, List.append_assoc] at hr
    have hlt : n < 513 := by omega
    by_cases hl : 513 < n + 1 + l.size
    · obtain ⟨u, hu, hb⟩ := ihl (n + 1) (s.pushed n stack) _ (r'.header ++ r) rfl (pushed_rest hr)
        (by omega) hl fun e => by
          rw [e]
          exact ⟨_, headerLoop_cap rfl e (by simp [pushed_rest hr, header_ne_nil]), sameBut_pastBits 1 _⟩
      refine ⟨u, ?_, (sameBut_pushed n stack s).trans hb⟩
      rw [show 513 - n = (513 - (n + 1)) + 1 by omega, headerLoop_succ, step_internal hw hlt hr, andThen_ok]
      exact hu
    · obtain ⟨u, hu, hb⟩ := ihr (n + 1 + l.size) (s.halfway n l stack) _ r rfl (halfway_rest hr)
        (by omega) (by omega) fun e => by
          rw [e]
          exact ⟨_, headerLoop_cap rfl e (by simp [halfway_rest hr, header_ne_nil]), sameBut_pastBits 1 _⟩
      refine ⟨u, ?_, (sameBut_halfway n l stack s).trans hb⟩
      rw [show 513 - n = 1 + l.size + (513 - (n + 1 + l.size)) by omega, headerLoop_left hw hr (by omega)]
      exact hu

/-- What a concatenation begins with ends inside the first part or after it. -/
theorem append_cases {a x l r : List Bool} (h : a ++ x = l ++ r) :
    (∃ y, y ≠ [] ∧ a ++ y = l) ∨ ∃ b, a = l ++ b ∧ b ++ x = r := by
  rcases List.append_eq_append_iff.mp h with ⟨c, rfl, rfl⟩ | ⟨c, rfl, rfl⟩
  · cases c with
    | nil => exact .inr ⟨[], by simp, by simp⟩
    | cons b c => exact .inl ⟨b :: c, by simp, rfl⟩
  · exact .inr ⟨c, rfl, rfl⟩

/-- A header cut short (42_header_codec R145, R147): BIT_IN ends inside the tree. -/
theorem headerLoop_cut (t : Tree) (n k : Nat) (s : State) (stack : List Frame) (x : List Bool)
    (hw : s.work = some { alloc := n, stack := stack }) (hr : s.bitIn.rest ++ x = t.header) (hx : x ≠ [])
    (hn : n + t.size ≤ 513) :
    ∃ u, headerLoop (t.size + k) s = .raised .malformedHeader none u ∧ s.SameBut u ∧
      u.bitIn.rest.length < 9 := by
  induction t generalizing n k s stack x with
  | leaf sym =>
    rcases hrest : s.bitIn.rest with _ | ⟨b, r⟩
    · exact ⟨s, headerLoop_empty _ hw hrest, .refl s, by simp [hrest]⟩
    · simp only [Tree.size] at hn
      rw [hrest, Tree.header, List.cons_append] at hr
      obtain ⟨hb, hr⟩ := List.cons.inj hr
      rw [hb] at hrest
      have hl := congrArg List.length hr
      have := List.length_pos_iff.mpr hx
      rw [List.length_append, bitsOf_length] at hl
      refine ⟨s.pastBits 1, ?_, sameBut_pastBits 1 s, by rw [pastBits_rest, hrest]; simp; omega⟩
      rw [Tree.size, Nat.add_comm, headerLoop_succ]
      have hlt : n < 513 := by omega
      simp [headerStep, hw, fetch_cut hlt hrest (by omega)]
  | node l r' ihl ihr =>
    rcases hrest : s.bitIn.rest with _ | ⟨b, r⟩
    · exact ⟨s, headerLoop_empty _ hw hrest, .refl s, by simp [hrest]⟩
    · have hlp := size_pos l
      simp only [Tree.size] at hn ⊢
      rw [hrest, Tree.header, List.cons_append] at hr
      obtain ⟨hb, hr⟩ := List.cons.inj hr
      rw [hb] at hrest
      have hlt : n < 513 := by omega
      rcases append_cases hr with ⟨y, hy, hl⟩ | ⟨c, hc, hx'⟩
      · obtain ⟨u, hu, hb, hlt9⟩ := ihl (n + 1) (r'.size + k) (s.pushed n stack) _ y rfl
          (by rw [pushed_rest hrest, hl]) hy (by omega)
        refine ⟨u, ?_, (sameBut_pushed n stack s).trans hb, hlt9⟩
        rw [show 1 + l.size + r'.size + k = (l.size + (r'.size + k)) + 1 by omega, headerLoop_succ,
          step_internal hw hlt hrest, andThen_ok]
        exact hu
      · rw [hc] at hrest
        obtain ⟨u, hu, hb, hlt9⟩ := ihr (n + 1 + l.size) k (s.halfway n l stack) _ x rfl
          (by rw [halfway_rest hrest, hx']) hx (by omega)
        refine ⟨u, ?_, (sameBut_halfway n l stack s).trans hb, hlt9⟩
        rw [Nat.add_assoc (1 + l.size), headerLoop_left hw hrest (by omega)]
        exact hu

/-- What the pending nodes wait for depends only on the nodes allocated so far. -/
theorem pendingAt_congr {nodes nodes' : Vector Node 513} {n : Nat} {stack : List Frame}
    (h : PendingAt nodes n stack) (he : ∀ k (hk : k < 513), k < n → nodes'[k] = nodes[k]) :
    PendingAt nodes' n stack := by
  induction stack generalizing n with
  | nil => exact h
  | cons f stack ih =>
    cases f with
    | needLeft p =>
      obtain ⟨rfl, hp⟩ := h
      exact ⟨rfl, ih hp fun k hk hlt => he k hk (by omega)⟩
    | needRight p l =>
      obtain ⟨hl, ⟨t, ht⟩, hp⟩ := h
      have := preorderAt_size ht
      exact ⟨hl, ⟨t, preorderAt_congr ht fun k hk _ b => he k hk b⟩,
        ih hp fun k hk hlt => he k hk (by omega)⟩

/-- A delivered node keeps the working state sound; with no node pending the tree is well formed. -/
theorem deliver_sound (n : Nat) (i : NodeIdx) (stack : List Frame) (s : State) (t : Tree)
    (ht : PreorderAt s.nodes i.val n t) (hp : PendingAt s.nodes i.val stack) :
    (∃ w, (State.deliver n i stack s).work = some w ∧ w.alloc = n ∧
      PendingAt (State.deliver n i stack s).nodes n w.stack ∧
      (State.deliver n i stack s).status = s.status) ∨
    ((State.deliver n i stack s).work = none ∧ (State.deliver n i stack s).TreeWf ∧
      (State.deliver n i stack s).status = { s.status with treeValid := true }) := by
  induction stack generalizing i s t with
  | nil =>
    refine .inr ⟨rfl, ?_, rfl⟩
    have hi : i.val = 0 := hp
    have hs := preorderAt_size ht
    refine ⟨t, _, isTreeAt_of_preorderAt ht i.isLt, ?_⟩
    have e : (Fin.ofNat 514 n).val = n := by simp [Fin.ofNat]; omega
    show (List.range' i.val t.size).Perm (List.range (Fin.ofNat 514 n).val)
    rw [e, hi, hs.1, hi, Nat.zero_add, List.range_eq_range']
  | cons f stack ih =>
    cases f with
    | needLeft p =>
      obtain ⟨hi, hp⟩ := hp
      exact .inl ⟨_, rfl, rfl, ⟨hi, ⟨t, ht⟩, hp⟩, rfl⟩
    | needRight p l =>
      obtain ⟨hl, ⟨tl, htl⟩, hp⟩ := hp
      have sl := preorderAt_size htl
      have st := preorderAt_size ht
      have hlp := size_pos tl
      have htp := size_pos t
      have hset : ∀ k (hk : k < 513), k ≠ p.val →
          (s.nodes.set p.val (.internal l i))[k] = s.nodes[k] := fun k hk hne => by
        rw [Vector.getElem_set_ne _ _ (Ne.symm hne)]
      have ht' : PreorderAt (s.setNode p (.internal l i)).nodes p.val n (.node tl t) := by
        refine ⟨i.val, p.isLt, ?_, ?_, ?_⟩
        · rw [← hl]
          exact preorderAt_congr htl fun k hk a b => hset k hk (by omega)
        · exact preorderAt_congr ht fun k hk a b => hset k hk (by omega)
        · refine ⟨by omega, i.isLt, ?_⟩
          show (s.nodes.set p.val (.internal l i))[p.val] = _
          rw [Vector.getElem_set_self]
          congr 1
          exact Fin.ext hl
      have hp' : PendingAt (s.setNode p (.internal l i)).nodes p.val stack :=
        pendingAt_congr hp fun k hk hlt => hset k hk (by omega)
      exact ih p (s.setNode p (.internal l i)) _ ht' hp'

/-- A token keeps the working state sound, or completes a well-formed tree. -/
theorem tokenBody_sound {i : Instr} {s u : State} {w : HeaderWork} (hw : s.work = some w)
    (hp : PendingAt s.nodes w.alloc w.stack) (h : tokenBody i s = .ok u) :
    (∃ w', u.work = some w' ∧ w'.alloc ≤ 513 ∧ PendingAt u.nodes w'.alloc w'.stack ∧
      u.status = s.status) ∨
    (u.work = none ∧ u.TreeWf ∧ u.status = { s.status with treeValid := true }) := by
  cases i with
  | internal =>
    simp only [tokenBody, internalBody, hw] at h
    by_cases hcap : w.alloc < Config.nodeCap
    · rw [if_pos hcap] at h
      have hlt : w.alloc < 513 := hcap
      cases h
      refine .inl ⟨_, rfl, hlt, ⟨?_, ?_⟩, rfl⟩
      · rw [ofNat_val hlt]
      · rw [ofNat_val hlt]; exact hp
    · rw [if_neg hcap] at h; cases h
  | leaf sym =>
    simp only [tokenBody, leafBody, hw] at h
    by_cases hcap : w.alloc < Config.nodeCap
    · rw [if_pos hcap] at h
      have hlt : w.alloc < 513 := hcap
      cases h
      have hv := ofNat_val hlt
      have hset : ∀ k (hk : k < 513), k ≠ w.alloc →
          (s.setNode (Fin.ofNat 513 w.alloc) (.leaf (BitVec.ofNat 9 sym))).nodes[k] = s.nodes[k] :=
        fun k hk hne => by
          rw [setNode_nodes, Vector.getElem_set_ne _ _ (by rw [hv]; exact Ne.symm hne)]
      have ht : PreorderAt (s.setNode (Fin.ofNat 513 w.alloc) (.leaf (BitVec.ofNat 9 sym))).nodes
          (Fin.ofNat 513 w.alloc).val (w.alloc + 1) (.leaf (BitVec.ofNat 9 sym)) := by
        refine ⟨by rw [hv], Fin.isLt _, ?_⟩
        rw [setNode_nodes, Vector.getElem_set_self]
      have hp' : PendingAt (s.setNode (Fin.ofNat 513 w.alloc) (.leaf (BitVec.ofNat 9 sym))).nodes
          (Fin.ofNat 513 w.alloc).val w.stack := by
        rw [hv]
        exact pendingAt_congr hp fun k hk hlt => hset k hk (by omega)
      rcases deliver_sound (w.alloc + 1) _ w.stack _ _ ht hp' with ⟨w', h1, h2, h3, h4⟩ | h
      · exact .inl ⟨w', h1, by omega, by rw [h2]; exact h3, h4⟩
      · exact .inr h
    · rw [if_neg hcap] at h; cases h
  | _ => simp [tokenBody] at h

@[simp] theorem closedNodes_nil (i : NodeIdx) (ns : Vector Node 513) : closedNodes [] i ns = ns := rfl

@[simp] theorem closedNodes_cons (p l i : NodeIdx) (ps : List (NodeIdx × NodeIdx)) (ns : Vector Node 513) :
    closedNodes ((p, l) :: ps) i ns = closedNodes ps p (ns.set p.val (.internal l i)) := rfl

@[simp] theorem closedWeights_nil (ws : Vector Word 513) : closedWeights [] ws = ws := rfl

@[simp] theorem closedWeights_cons (e : NodeIdx × NodeIdx) (ps : List (NodeIdx × NodeIdx)) (ws : Vector Word 513) :
    closedWeights (e :: ps) ws = closedWeights ps (ws.set e.1.val 0) := rfl

@[simp] theorem closedTop_nil (i : NodeIdx) : closedTop [] i = i := rfl

@[simp] theorem closedTop_cons (e : NodeIdx × NodeIdx) (ps : List (NodeIdx × NodeIdx)) (i : NodeIdx) :
    closedTop (e :: ps) i = closedTop ps e.1 := by
  cases ps <;> simp [closedTop, List.getLast?_cons]

/-- A delivered node completes every node that waits for its right subtree, up to one that does not. -/
theorem deliver_waitingRight (n : Nat) (i : NodeIdx) (ps : List (NodeIdx × NodeIdx)) (rest : List Frame) (s : State) :
    State.deliver n i (waitingRight ps ++ rest) s
      = State.deliver n (closedTop ps i) rest
          { s with nodes := closedNodes ps i s.nodes, nodeW := closedWeights ps s.nodeW } := by
  induction ps generalizing i s with
  | nil => rfl
  | cons e ps ih =>
    obtain ⟨p, l⟩ := e
    rw [closedTop_cons, closedNodes_cons, closedWeights_cons]
    exact ih p (s.setNode p (.internal l i))

end Sys2Proof.Machine
end

