-- ==== Sys2Proof/Laws/CodeTable.lean ====
section
/-! SUPPORT. GEN_CODES: the code table of a tree holds the paths to its last leaves. -/

namespace Sys2Proof.Machine

theorem lastCode_append (a b : List (Sym × List Bool)) (sym : Nat) :
    lastCode (a ++ b) sym = (lastCode b sym).or (lastCode a sym) := by
  simp only [lastCode, List.filter_append, List.getLast?_append]
  cases (b.filter fun e => e.1.toNat == sym).getLast? <;> rfl

theorem lastCode_map (p : List (Sym × List Bool)) (f : List Bool → List Bool) (sym : Nat) :
    lastCode (p.map fun e => (e.1, f e.2)) sym = (lastCode p sym).map f := by
  simp only [lastCode, List.filter_map, List.getLast?_map, Option.map_map, Function.comp_def]

theorem emptyCodes_codeOf (sym : Fin 257) : emptyCodes.codeOf sym = none := by
  simp [CodeTable.codeOf, emptyCodes]

/-- Everything `Bind` does to the codes (41_code_table R128, R129). -/
theorem bind_codeOf (t : CodeTable) (s : Sym) {k v : Nat} (hk : k ≤ 256) (hv : v < 2 ^ k) (sym : Fin 257) :
    (t.bind s k v).codeOf sym = if s.toNat = sym.val then some (bitsOf k v) else t.codeOf sym := by
  have hv256 : v < 2 ^ 256 := hv.trans_le (Nat.pow_le_pow_right (by omega) hk)
  have hk9 : k % 2 ^ 9 = k := Nat.mod_eq_of_lt (by omega)
  unfold CodeTable.bind CodeTable.codeOf
  by_cases h : s.toNat < 257
  · rw [dif_pos h]
    by_cases he : s.toNat = sym.val
    · simp only [Fin.getElem_fin, Vector.getElem_set, if_pos he, if_true, BitVec.toNat_ofNat,
        hk9, Nat.mod_eq_of_lt hv256]
    · simp only [Fin.getElem_fin, Vector.getElem_set, if_neg he]
  · have he : ¬ s.toNat = sym.val := by have := sym.isLt; omega
    rw [dif_neg h, if_neg he]

/-- What `Walk` leaves (41_code_table R128, R129): the last leaf of a symbol gives its code. -/
theorem walk_codeOf (t : Tree) (k v : Nat) (tbl : CodeTable) (hk : k + t.depth ≤ 256) (hv : v < 2 ^ k)
    (sym : Fin 257) :
    (t.walk k v tbl).codeOf sym
      = ((lastCode t.paths sym.val).map (bitsOf k v ++ ·)).or (tbl.codeOf sym) := by
  induction t generalizing k v tbl with
  | leaf s =>
    rw [Tree.walk, bind_codeOf tbl s (by simpa [Tree.depth] using hk) hv]
    by_cases h : s.toNat = sym.val <;> simp [h, Tree.paths, lastCode]
  | node l r ihl ihr =>
    simp only [Tree.depth] at hk
    have e0 := bitsOf_double k v false
    have e1 := bitsOf_double k v true
    simp only [Bool.toNat_false, Bool.toNat_true, Nat.add_zero] at e0 e1
    have hp := pow_succ 2 k
    rw [Tree.walk, ihr (k + 1) (2 * v + 1) _ (by omega) (by omega), ihl (k + 1) (2 * v) _ (by omega) (by omega),
      Tree.paths, lastCode_append, lastCode_map, lastCode_map, e0, e1]
    cases lastCode r.paths sym.val <;> cases lastCode l.paths sym.val <;>
      simp [Option.or]

/-- GEN_CODES' table (41_code_table R128 to R130, R132). -/
theorem codeTable_codeOf (t : Tree) (hd : t.depth ≤ 256) (sym : Fin 257) :
    t.codeTable.codeOf sym = lastCode t.codePaths sym.val := by
  cases t with
  | leaf s =>
    rw [Tree.codeTable, bind_codeOf _ _ (by omega) (by omega), emptyCodes_codeOf]
    by_cases h : s.toNat = sym.val <;> simp [h, Tree.codePaths, lastCode, bitsOf]
  | node l r =>
    rw [Tree.codeTable, walk_codeOf _ 0 0 _ (by simpa using hd) (by omega), emptyCodes_codeOf]
    cases h : lastCode (Tree.node l r).paths sym.val <;> simp [Tree.codePaths, h, bitsOf]

theorem lastCode_mem {p : List (Sym × List Bool)} {sym : Nat} {c : List Bool} (h : lastCode p sym = some c) :
    ∃ s, s.toNat = sym ∧ (s, c) ∈ p := by
  rw [lastCode, Option.map_eq_some_iff] at h
  obtain ⟨⟨s, c'⟩, h, rfl⟩ := h
  have := List.mem_filter.mp (List.mem_of_getLast? h)
  exact ⟨s, by simpa using this.2, this.1⟩

theorem lastCode_none {p : List (Sym × List Bool)} {sym : Nat} :
    lastCode p sym = none ↔ ∀ e ∈ p, e.1.toNat ≠ sym := by
  rw [lastCode, Option.map_eq_none_iff, List.getLast?_eq_none_iff, List.filter_eq_nil_iff]
  simp

theorem paths_length_le {t : Tree} {e : Sym × List Bool} (h : e ∈ t.paths) : e.2.length ≤ t.depth := by
  induction t generalizing e with
  | leaf s => simp [Tree.paths] at h; simp [h]
  | node l r ihl ihr =>
    simp only [Tree.paths, List.mem_append, List.mem_map] at h
    simp only [Tree.depth]
    rcases h with ⟨e', h, rfl⟩ | ⟨e', h, rfl⟩
    · have := ihl h; simp only [List.length_cons]; omega
    · have := ihr h; simp only [List.length_cons]; omega

end Sys2Proof.Machine
end

