-- ==== Sys2Proof/Laws/Stream.lean ====
section
/-! SUPPORT. The stream commands: what a body appends, where an encoding stops, and how a walk of the tree
reads a body back. -/

namespace Sys2Proof.Machine

/-- A symbol with a code (43_stream_encoder R162). -/
theorem writeCode_some {s : State} {sym : Fin 257} {code : List Bool} (h : s.codes.codeOf sym = some code) :
    s.writeCode sym = .ok { s with bitOut := s.bitOut ++ code } := by
  unfold CodeTable.codeOf at h
  split at h
  · rename_i hv
    cases h
    rw [State.writeCode, if_pos hv]
    rfl
  · cases h

/-- A symbol without a code (43_stream_encoder R163). -/
theorem writeCode_none {s : State} {sym : Fin 257} (h : s.codes.codeOf sym = none) :
    s.writeCode sym = .raised .internalEncodingGap (some (BitVec.ofNat 32 sym.val)) s := by
  unfold CodeTable.codeOf at h
  split at h
  · cases h
  · rename_i hv
    rw [State.writeCode, if_neg hv]

/-- The encoder after a row of bytes that have codes. -/
theorem encodeLoop_append (bytes : List Byte) (s : State) (r : List Byte) (body : List Bool)
    (hr : s.symIn.rest = bytes ++ r) (hb : s.codes.bodyOf (bytes.map byteSym) = some body) :
    encodeLoop (bytes.length + r.length) s
      = encodeLoop r.length { s.pastSyms bytes.length with bitOut := s.bitOut ++ body } := by
  induction bytes generalizing s body with
  | nil =>
    simp only [List.map_nil, CodeTable.bodyOf, Option.some.injEq] at hb
    subst hb
    simp [State.pastSyms]
  | cons b bytes ih =>
    simp only [List.map_cons, CodeTable.bodyOf] at hb
    rcases hc : s.codes.codeOf (byteSym b) with _ | code
    · simp [hc] at hb
    rcases hb' : s.codes.bodyOf (bytes.map byteSym) with _ | body'
    · simp [hc, hb'] at hb
    simp only [hc, hb', Option.bind_some, Option.map_some, Option.some.injEq] at hb
    subst hb
    rw [List.length_cons, show bytes.length + 1 + r.length = (bytes.length + r.length) + 1 by omega,
      encodeLoop, readSym_cons hr]
    simp only
    have hw := writeCode_some (s := s.pastSyms 1) (sym := byteSym b) hc
    rw [show Fin.ofNat 257 b.toNat = byteSym b from rfl, hw, andThen_ok]
    have hr' : ({ s.pastSyms 1 with bitOut := (s.pastSyms 1).bitOut ++ code } : State).symIn.rest = bytes ++ r := by
      have := pastSyms_rest 1 s
      rw [hr] at this
      exact this
    rw [ih _ body' hr' hb']
    simp [State.pastSyms, Nat.add_assoc, Nat.add_comm 1]

/-- A body that every symbol has a code for (43_stream_encoder R162, R166). -/
theorem encodeLoop_body {bytes : List Byte} {s : State} {body : List Bool} (hr : s.symIn.rest = bytes)
    (hb : s.codes.bodyOf (bytes.map byteSym ++ [256]) = some body) :
    encodeLoop bytes.length s
      = .ok { s.pastSyms bytes.length with bitOut := s.bitOut ++ body } := by
  have split : ∀ syms : List (Fin 257), s.codes.bodyOf (syms ++ [256])
      = (s.codes.bodyOf syms).bind fun body => (s.codes.codeOf 256).map (body ++ ·) := by
    intro syms
    induction syms with
    | nil => cases h : s.codes.codeOf 256 <;> simp [CodeTable.bodyOf, h]
    | cons x syms ih =>
      rw [List.cons_append, CodeTable.bodyOf, ih, CodeTable.bodyOf]
      cases s.codes.codeOf x <;> cases s.codes.bodyOf syms <;> cases s.codes.codeOf 256 <;> simp
  rw [split] at hb
  rcases hb1 : s.codes.bodyOf (bytes.map byteSym) with _ | body1
  · simp [hb1] at hb
  rcases hc : s.codes.codeOf 256 with _ | code
  · simp [hb1, hc] at hb
  simp only [hb1, hc, Option.bind_some, Option.map_some, Option.some.injEq] at hb
  subst hb
  have e := encodeLoop_append bytes s [] body1 (by simpa using hr) hb1
  rw [List.length_nil, Nat.add_zero] at e
  rw [e, encodeLoop]
  exact (writeCode_some (s := { s.pastSyms bytes.length with bitOut := s.bitOut ++ body1 }) hc).trans (by simp)

/-- Following a path leads to a node (44_stream_decoder R173). -/
def follow (nodes : Vector Node 513) (i : NodeIdx) (path : List Bool) : NodeIdx :=
  path.foldl (fun c b => stepNode nodes c b.toNat) i

theorem stepNode_internal {nodes : Vector Node 513} {i l r : NodeIdx} (h : nodes[i] = .internal l r) (b : Bool) :
    stepNode nodes i b.toNat = if b then r else l := by
  unfold stepNode
  rw [h]
  cases b <;> rfl

/-- A path of a tree leads to its leaf. -/
theorem follow_path {nodes : Vector Node 513} {i : NodeIdx} {t : Tree} {is : List Nat}
    (h : IsTreeAt nodes i t is) {e : Sym × List Bool} (he : e ∈ t.paths) :
    nodes[follow nodes i e.2] = .leaf e.1 := by
  induction h generalizing e with
  | leaf i sym h =>
    simp only [Tree.paths, List.mem_singleton] at he
    subst he
    exact h
  | node i l r tl tr il ir h hl hr ihl ihr =>
    simp only [Tree.paths, List.mem_append, List.mem_map] at he
    rcases he with ⟨e', he, rfl⟩ | ⟨e', he, rfl⟩
    · have : follow nodes i (false :: e'.2) = follow nodes l e'.2 := by
        rw [follow, List.foldl_cons, stepNode_internal h]; rfl
      simp only [this]
      exact ihl he
    · have : follow nodes i (true :: e'.2) = follow nodes r e'.2 := by
        rw [follow, List.foldl_cons, stepNode_internal h]; rfl
      simp only [this]
      exact ihr he

/-- What one bit does (44_stream_decoder R173). -/
theorem decodeLoop_cons {s : State} {b : Bool} {r : List Bool} (hr : s.bitIn.rest = b :: r) (k : Nat) :
    decodeLoop (k + 1) s
      = match s.nodes[stepNode s.nodes s.cur b.toNat] with
        | .internal _ _ => decodeLoop k { s.pastBits 1 with cur := stepNode s.nodes s.cur b.toNat }
        | .leaf sym =>
          if sym.toNat = Config.eos then .ok { s.pastBits 1 with cur := stepNode s.nodes s.cur b.toNat }
          else decodeLoop k { (s.pastBits 1).writeSym (sym.setWidth 8) with cur := s.root } := by
  have h1 := readBits_of_rest (n := 1) (bits := [b]) (r := r) hr rfl one_pos
  have hv : valOf [b] = b.toNat := by cases b <;> rfl
  rw [hv] at h1
  rw [decodeLoop, decodeStep, h1]
  have e : (s.pastBits 1).nodes[stepNode (s.pastBits 1).nodes (s.pastBits 1).cur b.toNat]
      = s.nodes[stepNode s.nodes s.cur b.toNat] := rfl
  simp only [e]
  generalize s.nodes[stepNode s.nodes s.cur b.toNat] = x
  cases x with
  | internal l r => rfl
  | leaf sym =>
    by_cases h : sym.toNat = Config.eos
    · simp only [if_pos h]; rfl
    · simp only [if_neg h]; rfl

/-- A path of a tree of two or more leaves, read from its node (44_stream_decoder R173). -/
theorem decodeLoop_path {t : Tree} {is : List Nat} {s : State} (h : IsTreeAt s.nodes s.cur t is)
    {e : Sym × List Bool} (he : e ∈ t.paths) (hne : e.2 ≠ []) {r : List Bool} (hr : s.bitIn.rest = e.2 ++ r) (k : Nat) :
    decodeLoop (e.2.length + k) s
      = if e.1.toNat = Config.eos then .ok { s.pastBits e.2.length with cur := follow s.nodes s.cur e.2 }
        else decodeLoop k { (s.pastBits e.2.length).writeSym (e.1.setWidth 8) with cur := s.root } := by
  induction t generalizing s e is with
  | leaf sym =>
    simp only [Tree.paths, List.mem_singleton] at he
    exact absurd (by rw [he]) hne
  | node tl tr ihl ihr =>
    cases h with
    | node _ l r' _ _ il ir h hl hr' =>
    have main : ∀ (b : Bool) (u : Tree) (iu : List Nat) (e' : Sym × List Bool),
        IsTreeAt s.nodes (stepNode s.nodes s.cur b.toNat) u iu → e' ∈ u.paths → e = (e'.1, b :: e'.2) →
        (∀ (s' : State) (is' : List Nat), IsTreeAt s'.nodes s'.cur u is' → e'.2 ≠ [] →
          s'.bitIn.rest = e'.2 ++ r → decodeLoop (e'.2.length + k) s'
            = if e'.1.toNat = Config.eos then .ok { s'.pastBits e'.2.length with cur := follow s'.nodes s'.cur e'.2 }
              else decodeLoop k { (s'.pastBits e'.2.length).writeSym (e'.1.setWidth 8) with cur := s'.root }) →
        decodeLoop (e.2.length + k) s
          = if e.1.toNat = Config.eos then .ok { s.pastBits e.2.length with cur := follow s.nodes s.cur e.2 }
            else decodeLoop k { (s.pastBits e.2.length).writeSym (e.1.setWidth 8) with cur := s.root } := by
      rintro b u iu ⟨sym, p⟩ hu hp rfl ih
      simp only [List.cons_append] at hr ih ⊢
      rw [List.length_cons, show p.length + 1 + k = (p.length + k) + 1 by omega, decodeLoop_cons hr]
      cases p with
      | nil =>
        cases hu with
        | leaf _ sym' hs =>
          simp only [Tree.paths, List.mem_singleton, Prod.mk.injEq, and_true] at hp
          subst hp
          rw [hs]
          simp only [List.length_nil, Nat.zero_add]
          rfl
        | node _ _ _ ul ur _ _ _ _ _ => simp [Tree.paths] at hp
      | cons c p =>
        have hrest := pastBits_rest 1 s
        rw [hr] at hrest
        have ih' := ih { s.pastBits 1 with cur := stepNode s.nodes s.cur b.toNat } iu hu (by simp) hrest
        cases hu with
        | leaf _ _ _ => simp [Tree.paths] at hp
        | node _ _ _ _ _ _ _ hn _ _ =>
          rw [hn]
          simp only
          rw [ih']
          simp [State.pastBits, State.writeSym, follow, Nat.add_assoc, Nat.add_comm 1]
    simp only [Tree.paths, List.mem_append, List.mem_map] at he
    rcases he with ⟨e', he, rfl⟩ | ⟨e', he, rfl⟩
    · refine main false tl il e' (by rw [stepNode_internal h]; exact hl) he rfl fun s' is' hs' hne' hr2 => ?_
      exact ihl hs' he hne' hr2
    · refine main true tr ir e' (by rw [stepNode_internal h]; exact hr') he rfl fun s' is' hs' hne' hr2 => ?_
      exact ihr hs' he hne' hr2

/-- A code of the tree at the root, read from the root (44_stream_decoder R173, R174). -/
theorem decodeLoop_code {t : Tree} {is : List Nat} {s : State} (h : IsTreeAt s.nodes s.root t is)
    (hc : s.cur = s.root) {e : Sym × List Bool} (he : e ∈ t.codePaths) {r : List Bool}
    (hr : s.bitIn.rest = e.2 ++ r) (k : Nat) :
    decodeLoop (e.2.length + k) s
      = if e.1.toNat = Config.eos then .ok { s.pastBits e.2.length with cur := follow s.nodes s.root e.2 }
        else decodeLoop k { (s.pastBits e.2.length).writeSym (e.1.setWidth 8) with cur := s.root } := by
  cases t with
  | leaf sym =>
    simp only [Tree.codePaths, List.mem_singleton] at he
    subst he
    have hn : s.nodes[s.cur] = .leaf sym := by
      cases h with
      | leaf _ _ h => simpa only [hc] using h
    have hs : stepNode s.nodes s.cur (false).toNat = s.cur := by
      unfold stepNode
      rw [hn]
    rw [show [false].length + k = k + 1 by simp [Nat.add_comm], decodeLoop_cons hr]
    simp only [follow, List.foldl_cons, List.foldl_nil, ← hc, hs, hn]
    rfl
  | node l r' =>
    have hne : e.2 ≠ [] := by
      simp only [Tree.codePaths, Tree.paths, List.mem_append, List.mem_map] at he
      rcases he with ⟨e', _, rfl⟩ | ⟨e', _, rfl⟩ <;> simp
    have := decodeLoop_path (s := s) (by rw [hc]; exact h) he hne hr k
    rw [hc] at this
    exact this

/-- A row of codes read back: their bytes go out (44_stream_decoder R173, R175). -/
theorem decodeLoop_codes {t : Tree} {is : List Nat} (es : List (Sym × List Bool)) {s : State}
    (h : IsTreeAt s.nodes s.root t is) (hc : s.cur = s.root) (he : ∀ e ∈ es, e ∈ t.codePaths)
    (hs : ∀ e ∈ es, e.1.toNat ≠ Config.eos) {r : List Bool}
    (hr : s.bitIn.rest = es.flatMap Prod.snd ++ r) (k : Nat) :
    decodeLoop ((es.flatMap Prod.snd).length + k) s
      = decodeLoop k { s.pastBits (es.flatMap Prod.snd).length with
          symOut := s.symOut ++ es.map fun e => e.1.setWidth 8 } := by
  induction es generalizing s with
  | nil => simp
  | cons e es ih =>
    simp only [List.flatMap_cons, List.append_assoc] at hr
    have e1 := decodeLoop_code h hc (he e (by simp)) hr ((es.flatMap Prod.snd).length + k)
    rw [if_neg (hs e (by simp))] at e1
    rw [List.flatMap_cons, List.length_append, Nat.add_assoc, e1]
    have hr' : (s.pastBits e.2.length).bitIn.rest = es.flatMap Prod.snd ++ r := by
      rw [pastBits_rest, hr]; simp
    have := ih (s := { (s.pastBits e.2.length).writeSym (e.1.setWidth 8) with cur := s.root }) h rfl
      (fun e' h' => he e' (by simp [h'])) (fun e' h' => hs e' (by simp [h'])) hr'
    rw [this]
    simp [State.pastBits, State.writeSym, Nat.add_assoc, hc]

/-- A well-formed body read back (44_stream_decoder R173, R177). -/
theorem decodeLoop_all {t : Tree} {is : List Nat} (es : List (Sym × List Bool)) (eos : Sym × List Bool)
    {s : State} (h : IsTreeAt s.nodes s.root t is) (hc : s.cur = s.root) (he : ∀ e ∈ es, e ∈ t.codePaths)
    (hs : ∀ e ∈ es, e.1.toNat ≠ Config.eos) (he' : eos ∈ t.codePaths) (hs' : eos.1.toNat = Config.eos)
    {r : List Bool} (hr : s.bitIn.rest = es.flatMap Prod.snd ++ (eos.2 ++ r)) :
    decodeLoop s.bitIn.rest.length s
      = .ok { s.pastBits ((es.flatMap Prod.snd).length + eos.2.length) with
          symOut := s.symOut ++ es.map fun e => e.1.setWidth 8
          cur := follow s.nodes s.root eos.2 } := by
  have hl : s.bitIn.rest.length = (es.flatMap Prod.snd).length + (eos.2.length + r.length) := by
    rw [hr]; simp
  rw [hl, decodeLoop_codes es h hc he hs hr]
  have hr' : (s.pastBits (es.flatMap Prod.snd).length).bitIn.rest = eos.2 ++ r := by
    rw [pastBits_rest, hr]; simp
  have := decodeLoop_code (s := { s.pastBits (es.flatMap Prod.snd).length with
          symOut := s.symOut ++ es.map fun e => e.1.setWidth 8 }) h hc he' hr' r.length
  rw [this, if_pos hs']
  simp [State.pastBits, Nat.add_assoc]

/-- A path that stops above the leaves, with no bit after it: the walk stands at its node (44_stream_decoder
R173, R176). -/
theorem decodeLoop_stop (path : List Bool) {s : State} {c : NodeIdx} (hp : nodeAtPath s.nodes s.cur path = some c)
    (hc : path = [] ∨ s.nodes[c].isLeaf = false) (hr : s.bitIn.rest = path) :
    decodeLoop path.length s = .raised .truncatedStream none { s.pastBits path.length with cur := c } := by
  induction path generalizing s with
  | nil =>
    cases hp
    rfl
  | cons b path ih =>
    have hc : s.nodes[c].isLeaf = false := hc.resolve_left (List.cons_ne_nil b path)
    rw [List.length_cons, decodeLoop_cons hr]
    rw [nodeAtPath] at hp
    split at hp
    · cases hp
    · rename_i l r hn
      rw [← stepNode_internal hn] at hp
      rcases hj : s.nodes[stepNode s.nodes s.cur b.toNat] with sym | ⟨x, y⟩
      · cases path with
        | nil =>
          cases hp
          simp [hj, Node.isLeaf] at hc
        | cons b' path =>
          rw [nodeAtPath, hj] at hp
          cases hp
      · have hr' := pastBits_rest 1 s
        rw [hr] at hr'
        have e := ih (s := { s.pastBits 1 with cur := stepNode s.nodes s.cur b.toNat }) hp (.inr hc) hr'
        simp only [e]
        simp [State.pastBits, Nat.add_comm 1, Nat.add_assoc]

/-- A body without a code of EOS, cut at a node: the bytes of its codes stay, and the walk stands at that node
(44_stream_decoder R176, R178). -/
theorem decodeLoop_cut {t : Tree} {is : List Nat} (es : List (Sym × List Bool)) (path : List Bool) {s : State}
    {c : NodeIdx} (h : IsTreeAt s.nodes s.root t is) (hcur : s.cur = s.root) (he : ∀ e ∈ es, e ∈ t.codePaths)
    (hs : ∀ e ∈ es, e.1.toNat ≠ Config.eos) (hp : nodeAtPath s.nodes s.root path = some c)
    (hc : path = [] ∨ s.nodes[c].isLeaf = false) (hr : s.bitIn.rest = es.flatMap Prod.snd ++ path) :
    decodeLoop s.bitIn.rest.length s
      = .raised .truncatedStream none { s.pastBits ((es.flatMap Prod.snd).length + path.length) with
          symOut := s.symOut ++ es.map fun e => e.1.setWidth 8
          cur := c } := by
  have hl : s.bitIn.rest.length = (es.flatMap Prod.snd).length + path.length := by rw [hr]; simp
  rw [hl, decodeLoop_codes es h hcur he hs hr]
  have hr' : (s.pastBits (es.flatMap Prod.snd).length).bitIn.rest = path := by
    rw [pastBits_rest, hr]; simp
  have := decodeLoop_stop path (s := { s.pastBits (es.flatMap Prod.snd).length with
          symOut := s.symOut ++ es.map fun e => e.1.setWidth 8 })
        (by rw [← hcur] at hp; exact hp) hc hr'
  rw [this]
  simp [State.pastBits, Nat.add_assoc]

end Sys2Proof.Machine
end

