-- ==== Sys2Proof/Laws/Bodies.lean ====
section
/-! SUPPORT. One law for the body of each command: how it can end, and what it can have changed. -/

namespace Sys2Proof.Machine

/-- How a body can end: `good` of the state it runs to, `bad` of the error and state it raises. -/
def Body.Ends (b : Body) (good : State → Prop) (bad : ErrKind → Option Word → State → Prop) : Prop :=
  match b with
  | .ok s => good s
  | .raised kind info s => bad kind info s
  | .fault _ => True
  | .refused _ => True

theorem Body.Ends.imp {b : Body} {good good' : State → Prop} {bad bad' : ErrKind → Option Word → State → Prop}
    (h : b.Ends good bad) (hg : ∀ s, good s → good' s) (hb : ∀ k i s, bad k i s → bad' k i s) :
    b.Ends good' bad' := by
  cases b with
  | ok s => exact hg s h
  | raised k i s => exact hb k i s h
  | fault => trivial
  | refused => trivial

theorem Body.Ends.andThen {b : Body} {f : State → Body} {good good' : State → Prop}
    {bad : ErrKind → Option Word → State → Prop} (h : b.Ends good bad)
    (hf : ∀ s, good s → (f s).Ends good' bad) : (b.andThen f).Ends good' bad := by
  cases b with
  | ok s => exact hf s h
  | raised k i s => exact h
  | fault => trivial
  | refused => trivial

/-- BUILD_TREE (40_tree_builder R112, R120): it raises nothing. -/
theorem buildTreeBody_ends (w : Nat) (s : State) :
    (buildTreeBody w s).Ends
      (fun u => withinWeightBound w s.freq = true ∧
        u = s.dropTree.storeTree (huffman (counts s.freq)).1 (huffman (counts s.freq)).2)
      fun _ _ _ => False := by
  unfold buildTreeBody
  split
  · exact ⟨by assumption, rfl⟩
  · trivial

/-- GEN_CODES (41_code_table R127). -/
theorem genCodesBody_ends (s : State) :
    (genCodesBody s).Ends
      (fun u => s.status.treeValid = true ∧ ∃ t, s.tree = some t ∧
        u = { s with codes := t.codeTable, status := { s.status with codesValid := true } })
      fun k i u => s.status.treeValid = false ∧ k = .sequenceError ∧ i = some 0x2 ∧ u = s := by
  unfold genCodesBody
  cases h : s.status.treeValid
  · exact ⟨rfl, rfl, rfl, rfl⟩
  · rcases ht : s.tree with _ | t
    · rw [needs_true]; simp only [ht]; trivial
    · rw [needs_true]; simp only [ht]; exact ⟨trivial, t, rfl, rfl⟩

/-- HDR_ENCODE (42_header_codec R142, R143). -/
theorem hdrEncodeBody_ends (s : State) :
    (hdrEncodeBody s).Ends
      (fun u => s.status.treeValid = true ∧ ∃ t, s.tree = some t ∧
        u = { s with bitOut := s.bitOut ++ t.header })
      fun k i u => s.status.treeValid = false ∧ k = .sequenceError ∧ i = some 0x3 ∧ u = s := by
  unfold hdrEncodeBody
  cases h : s.status.treeValid
  · exact ⟨rfl, rfl, rfl, rfl⟩
  · rcases ht : s.tree with _ | t
    · rw [needs_true]; simp only [ht]; trivial
    · rw [needs_true]; simp only [ht]; exact ⟨trivial, t, rfl, emit_eq t s⟩

/-- What an encoder can have changed: it has read some bytes and appended some bits. -/
def State.Encoded (s u : State) : Prop :=
  ∃ n x, u = { s.pastSyms n with bitOut := s.bitOut ++ x } ∧ s.symIn.pos + n ≤ max s.symIn.pos s.symIn.data.length

theorem State.Encoded.refl (s : State) : s.Encoded s := ⟨0, [], by simp, by simp⟩

theorem State.Encoded.trans {a b c : State} (h : a.Encoded b) (g : b.Encoded c) : a.Encoded c := by
  obtain ⟨n, x, rfl, hn⟩ := h
  obtain ⟨m, y, rfl, hm⟩ := g
  refine ⟨n + m, x ++ y, by simp [State.pastSyms, Nat.add_assoc], ?_⟩
  simp only [State.pastSyms] at hm
  omega

theorem writeCode_ends (sym : Fin 257) (s : State) :
    (s.writeCode sym).Ends (fun u => s.Encoded u)
      fun k i u => k = .internalEncodingGap ∧ i = some (BitVec.ofNat 32 sym.val) ∧ u = s := by
  unfold State.writeCode
  split
  · exact ⟨0, _, rfl, by simp⟩
  · exact ⟨rfl, rfl, rfl⟩

theorem encodeLoop_ends (k : Nat) (s : State) :
    (encodeLoop k s).Ends (fun u => s.Encoded u)
      fun k i u => k = .internalEncodingGap ∧ (∃ sym : Fin 257, i = some (BitVec.ofNat 32 sym.val)) ∧
        s.Encoded u := by
  have last : ∀ s : State, (s.writeCode 256).Ends (fun u => s.Encoded u)
      fun k i u => k = .internalEncodingGap ∧ (∃ sym : Fin 257, i = some (BitVec.ofNat 32 sym.val)) ∧
        s.Encoded u := fun s =>
    (writeCode_ends 256 s).imp (fun _ h => h) fun k i u h => ⟨h.1, ⟨256, h.2.1⟩, h.2.2 ▸ .refl s⟩
  induction k generalizing s with
  | zero => exact last s
  | succ k ih =>
    rw [encodeLoop]
    rcases hrest : s.symIn.rest with _ | ⟨b, r⟩
    · rw [readSym_none hrest]; exact last s
    · rw [readSym_cons hrest]
      have hl := congrArg List.length hrest
      rw [rest_length, List.length_cons] at hl
      have h1 : s.Encoded (s.pastSyms 1) :=
        ⟨1, [], by simp [State.pastSyms], by omega⟩
      refine Body.Ends.andThen (good := fun u => s.Encoded u) ?_ fun u hu => ?_
      · exact (writeCode_ends _ _).imp (fun u h => h1.trans h)
          fun k i u h => ⟨h.1, ⟨_, h.2.1⟩, h.2.2 ▸ h1⟩
      · exact (ih u).imp (fun v h => hu.trans h) fun k i v h => ⟨h.1, h.2.1, hu.trans h.2.2⟩

/-- STREAM_ENCODE (43_stream_encoder R162, R163). -/
theorem streamEncodeBody_ends (s : State) :
    (streamEncodeBody s).Ends (fun u => s.status.codesValid = true ∧ s.Encoded u)
      fun k i u =>
        (s.status.codesValid = false ∧ k = .sequenceError ∧ i = some 0x5 ∧ u = s) ∨
        (s.status.codesValid = true ∧ k = .internalEncodingGap ∧
          (∃ sym : Fin 257, i = some (BitVec.ofNat 32 sym.val)) ∧ s.Encoded u) := by
  unfold streamEncodeBody
  cases h : s.status.codesValid
  · exact .inl ⟨rfl, rfl, rfl, rfl⟩
  · rw [needs_true]
    exact (encodeLoop_ends _ s).imp (fun u hu => ⟨rfl, hu⟩) fun k i u hu => .inr ⟨rfl, hu⟩

/-- What a decoder can have changed: it has read some bits, emitted some bytes and moved CUR. -/
def State.Decoded (s u : State) : Prop :=
  ∃ n c x, u = { s.pastBits n with cur := c, symOut := s.symOut ++ x } ∧
    s.bitIn.pos + n ≤ max s.bitIn.pos s.bitIn.data.length

theorem State.Decoded.trans {a b c : State} (h : a.Decoded b) (g : b.Decoded c) : a.Decoded c := by
  obtain ⟨n, i, x, rfl, hn⟩ := h
  obtain ⟨m, j, y, rfl, hm⟩ := g
  refine ⟨n + m, j, x ++ y, by simp [State.pastBits, Nat.add_assoc], ?_⟩
  simp only [State.pastBits] at hm
  omega

theorem decodeLoop_ends (k : Nat) (s : State) (hk : k = s.bitIn.rest.length) :
    (decodeLoop k s).Ends
      (fun u => s.Decoded u ∧ ∃ sym : Sym, u.nodes[u.cur] = .leaf sym ∧ sym.toNat = Config.eos)
      fun k i u => k = .truncatedStream ∧ i = none ∧ s.Decoded u ∧ u.bitIn.rest = [] := by
  induction k generalizing s with
  | zero =>
    refine ⟨rfl, rfl, ⟨0, s.cur, [], by simp, by simp⟩, List.length_eq_zero_iff.mp hk.symm⟩
  | succ k ih =>
    rcases hrest : s.bitIn.rest with _ | ⟨b, r⟩
    · rw [hrest] at hk; simp at hk
    · rw [decodeLoop_cons hrest]
      have hl := congrArg List.length hrest
      have hr := pastBits_rest 1 s
      rw [hrest] at hk hr
      rw [rest_length, List.length_cons] at hl
      simp only [List.length_cons, Nat.add_right_cancel_iff] at hk
      have hp : s.bitIn.pos + 1 ≤ max s.bitIn.pos s.bitIn.data.length := by omega
      rcases hn : s.nodes[stepNode s.nodes s.cur b.toNat] with sym | ⟨l, r'⟩
      · simp only
        split
        · rename_i he
          exact ⟨⟨1, stepNode s.nodes s.cur b.toNat, [], by simp [State.pastBits], hp⟩, sym, hn, he⟩
        · have hd : s.Decoded { (s.pastBits 1).writeSym (sym.setWidth 8) with cur := s.root } :=
            ⟨1, s.root, [sym.setWidth 8], rfl, hp⟩
          refine (ih _ (by rw [hk]; exact congrArg List.length hr.symm)).imp (fun u h => ⟨hd.trans h.1, h.2⟩)
            fun k i u h => ⟨h.1, h.2.1, hd.trans h.2.2.1, h.2.2.2⟩
      · simp only
        have hd : s.Decoded { s.pastBits 1 with cur := stepNode s.nodes s.cur b.toNat } :=
          ⟨1, stepNode s.nodes s.cur b.toNat, [], by simp [State.pastBits], hp⟩
        refine (ih _ (by rw [hk]; exact congrArg List.length hr.symm)).imp (fun u h => ⟨hd.trans h.1, h.2⟩)
          fun k i u h => ⟨h.1, h.2.1, hd.trans h.2.2.1, h.2.2.2⟩

/-- STREAM_DECODE (44_stream_decoder R175, R176, R180). -/
theorem streamDecodeBody_ends (s : State) :
    (streamDecodeBody s).Ends
      (fun u => s.status.treeValid = true ∧ s.Decoded u ∧
        ∃ sym : Sym, u.nodes[u.cur] = .leaf sym ∧ sym.toNat = Config.eos)
      fun k i u =>
        (s.status.treeValid = false ∧ k = .sequenceError ∧ i = some 0x6 ∧ u = s) ∨
        (s.status.treeValid = true ∧ k = .truncatedStream ∧ i = none ∧ s.Decoded u ∧ u.bitIn.rest = []) := by
  unfold streamDecodeBody
  cases h : s.status.treeValid
  · exact .inl ⟨rfl, rfl, rfl, rfl⟩
  · rw [needs_true]
    have hd : s.Decoded { s with cur := s.root } := ⟨0, s.root, [], by simp, by simp⟩
    exact (decodeLoop_ends _ { s with cur := s.root } rfl).imp (fun u hu => ⟨rfl, hd.trans hu.1, hu.2⟩)
      fun k i u hu => .inr ⟨rfl, hu.1, hu.2.1, hd.trans hu.2.2.1, hu.2.2.2⟩

/-- MAGIC_CHECK (45_container R189). -/
theorem magicCheckBody_ends (magic : Word) (s : State) :
    (magicCheckBody magic s).Ends
      (fun u => 32 ≤ s.bitIn.rest.length ∧ u = s.pastBits 32 ∧
        s.bitIn.pos + 32 ≤ s.bitIn.data.length)
      fun k i u => k = .badMagicHeader ∧ ((i = none ∧ u = s) ∨
        ((∃ v, v ≠ magic ∧ i = some v) ∧ u = s.pastBits 32 ∧ s.bitIn.pos + 32 ≤ s.bitIn.data.length)) := by
  unfold magicCheckBody
  rcases readBits_cases 32 s with ⟨hle, e⟩ | ⟨_, e⟩
  · rw [e]
    simp only
    split
    · exact ⟨by rw [rest_length]; omega, rfl, hle⟩
    · rename_i hne
      have hv : valOf (s.bitIn.rest.take 32) < 2 ^ 32 := by
        have := valOf_lt (s.bitIn.rest.take 32)
        rw [List.length_take, rest_length] at this
        exact this.trans_le (Nat.pow_le_pow_right (by omega) (by omega))
      refine ⟨rfl, .inr ⟨⟨_, fun he => hne ?_, rfl⟩, rfl, hle⟩⟩
      rw [← he, BitVec.toNat_ofNat, Nat.mod_eq_of_lt hv]
  · rw [e]
    exact ⟨rfl, .inl ⟨rfl, rfl⟩⟩

/-- Some bits of BIT_IN have been read and nothing else has changed. -/
def State.Read (s u : State) : Prop :=
  ∃ m, u = s.pastBits m ∧ s.bitIn.pos + m ≤ max s.bitIn.pos s.bitIn.data.length

/-- Everything fetching a token can do. -/
theorem fetchToken_read (n : Nat) (s : State) :
    (∃ i m, s.fetchToken n = .token i (s.pastBits m) ∧ s.Read (s.pastBits m) ∧ n < 513) ∨
    (∃ m, (s.fetchToken n = .raised .malformedHeader (s.pastBits m) ∨
      s.fetchToken n = .raised .capacityExceeded (s.pastBits m)) ∧ s.Read (s.pastBits m)) := by
  have rd : ∀ m, s.bitIn.pos + m ≤ s.bitIn.data.length → s.Read (s.pastBits m) := fun m h =>
    ⟨m, rfl, by omega⟩
  unfold State.fetchToken
  rcases readBits_cases 1 s with ⟨hle, e⟩ | ⟨_, e⟩
  · rw [e]
    simp only
    split
    · rename_i hn
      rcases decodeToken s.bitIn.rest with e1 | p
      · exact .inr ⟨1, .inl rfl, rd 1 hle⟩
      · obtain ⟨i, r⟩ := p
        rcases readBits_cases (encodeWidth i) s with ⟨hle2, e2⟩ | ⟨_, e2⟩
        · simp only [e2]; exact .inl ⟨i, _, rfl, rd _ hle2, hn⟩
        · simp only [e2]; exact .inr ⟨1, .inl rfl, rd 1 hle⟩
    · exact .inr ⟨1, .inr rfl, rd 1 hle⟩
  · rw [e]
    exact .inr ⟨0, .inl rfl, 0, rfl, by omega⟩

/-- What delivering a node can change. -/
theorem deliver_frame (n : Nat) (i : NodeIdx) (stack : List Frame) (s : State) :
    State.deliver n i stack s = { s with
      nodes := (State.deliver n i stack s).nodes
      nodeW := (State.deliver n i stack s).nodeW
      root := (State.deliver n i stack s).root
      nodeCount := (State.deliver n i stack s).nodeCount
      work := (State.deliver n i stack s).work
      status := { s.status with treeValid := (State.deliver n i stack s).status.treeValid } } ∧
    (∀ w, (State.deliver n i stack s).work = some w → (State.deliver n i stack s).status = s.status ∧
      (State.deliver n i stack s).root = s.root ∧
      (State.deliver n i stack s).nodeCount = s.nodeCount ∧ w.alloc = n) ∧
    ((State.deliver n i stack s).work = none → (State.deliver n i stack s).status.treeValid = true) := by
  induction stack generalizing i s with
  | nil => exact ⟨rfl, fun w h => (by cases h), fun _ => rfl⟩
  | cons f stack ih =>
    cases f with
    | needLeft p => exact ⟨rfl, fun w h => (by cases h; exact ⟨rfl, rfl, rfl, rfl⟩), fun h => (by cases h)⟩
    | needRight p l => exact ih p (s.setNode p (.internal l i))

/-- Every weight of a header decode is the old one or 0 (42_header_codec R145). -/
def State.Zeroed (s u : State) : Prop :=
  ∀ i : NodeIdx, u.nodeW[i] = s.nodeW[i] ∨ u.nodeW[i] = 0

theorem zeroed_set (s : State) (i : NodeIdx) (x : Node) : s.Zeroed (s.setNode i x) := by
  intro j
  show (s.nodeW.set i.val 0)[j.val] = _ ∨ (s.nodeW.set i.val 0)[j.val] = _
  rw [Vector.getElem_set]
  split
  · exact .inr rfl
  · exact .inl rfl

theorem State.Zeroed.trans {a b c : State} (h : a.Zeroed b) (g : b.Zeroed c) : a.Zeroed c := by
  intro i
  rcases g i with hg | hg
  · rcases h i with hh | hh
    · exact .inl (hg.trans hh)
    · exact .inr (hg.trans hh)
  · exact .inr hg

theorem deliver_zeroed (n : Nat) (i : NodeIdx) (stack : List Frame) (s : State) :
    s.Zeroed (State.deliver n i stack s) := by
  induction stack generalizing i s with
  | nil => exact fun _ => .inl rfl
  | cons f stack ih =>
    cases f with
    | needLeft p => exact fun _ => .inl rfl
    | needRight p l => exact (zeroed_set s p _).trans (ih p _)

/-- What some tokens of a header can have changed (42_header_codec R145, R146). -/
structure State.Built (s u : State) : Prop where
  frame : u = { s with
    nodes := u.nodes
    nodeW := u.nodeW
    bitIn := u.bitIn
    root := u.root
    nodeCount := u.nodeCount
    work := u.work
    status := { s.status with treeValid := u.status.treeValid } }
  data : u.bitIn.data = s.bitIn.data
  pos : s.bitIn.pos ≤ u.bitIn.pos ∧ u.bitIn.pos ≤ max s.bitIn.pos s.bitIn.data.length
  zeroed : s.Zeroed u
  running : ∀ w, u.work = some w → u.status = s.status ∧ u.root = s.root ∧ u.nodeCount = s.nodeCount
  complete : u.work = none → u.status.treeValid = true

theorem State.Built.trans {a b c : State} (h : a.Built b) {w : HeaderWork} (hw : b.work = some w)
    (g : b.Built c) : a.Built c := by
  obtain ⟨h1, h2, h3⟩ := h.running w hw
  have hp := h.pos
  have gp := g.pos
  rw [h.data] at gp
  refine ⟨?_, g.data.trans h.data, by omega, h.zeroed.trans g.zeroed, fun w' hw' => ?_, g.complete⟩
  · have e := g.frame
    rw [h.frame] at e
    rw [h1] at e
    exact e
  · obtain ⟨g1, g2, g3⟩ := g.running w' hw'
    exact ⟨g1.trans h1, g2.trans h2, g3.trans h3⟩

theorem State.Built.mono {s t u : State} (h : s.Read t) (g : t.Built u) : s.Built u := by
  obtain ⟨m, rfl, hm⟩ := h
  have gp := g.pos
  simp only [State.pastBits] at gp
  exact ⟨g.frame, g.data, by omega, g.zeroed, g.running, g.complete⟩

/-- A token of a header (42_header_codec R145, R148). -/
theorem tokenBody_ends {i : Instr} {s : State} {w : HeaderWork} (hw : s.work = some w) :
    (tokenBody i s).Ends
      (fun u => s.Built u ∧ w.alloc < 513 ∧ (∀ w', u.work = some w' → w'.alloc = w.alloc + 1) ∧
        (PendingAt s.nodes w.alloc w.stack →
          (∀ w', u.work = some w' → PendingAt u.nodes w'.alloc w'.stack) ∧ (u.work = none → u.TreeWf)))
      fun k inf u => k = .capacityExceeded ∧ inf = none ∧ u = s := by
  have sound : ∀ u, tokenBody i s = .ok u → PendingAt s.nodes w.alloc w.stack →
      (∀ w', u.work = some w' → PendingAt u.nodes w'.alloc w'.stack) ∧ (u.work = none → u.TreeWf) := by
    intro u hu hp
    rcases tokenBody_sound hw hp hu with ⟨w', h1, _, h3, _⟩ | ⟨h1, h2, _⟩
    · refine ⟨fun w'' h => ?_, fun h => by rw [h1] at h; cases h⟩
      rw [h1] at h; cases h; exact h3
    · exact ⟨fun w'' h => (by rw [h1] at h; cases h), fun _ => h2⟩
  cases i with
  | internal =>
    simp only [tokenBody, internalBody, hw] at sound ⊢
    by_cases hc : w.alloc < Config.nodeCap
    · rw [if_pos hc] at sound ⊢
      refine ⟨⟨rfl, rfl, ⟨le_rfl, le_max_left _ _⟩, fun _ => .inl rfl, fun w' _ => ⟨rfl, rfl, rfl⟩, fun h => (by cases h)⟩,
        hc, fun w' h => (by cases h; rfl), sound _ rfl⟩
    · rw [if_neg hc]; exact ⟨rfl, rfl, rfl⟩
  | leaf sym =>
    simp only [tokenBody, leafBody, hw] at sound ⊢
    by_cases hc : w.alloc < Config.nodeCap
    · rw [if_pos hc] at sound ⊢
      obtain ⟨f1, f2, f3⟩ := deliver_frame (w.alloc + 1) (Fin.ofNat 513 w.alloc) w.stack
        (s.setNode (Fin.ofNat 513 w.alloc) (.leaf (BitVec.ofNat 9 sym)))
      have hb : (State.deliver (w.alloc + 1) (Fin.ofNat 513 w.alloc) w.stack
        (s.setNode (Fin.ofNat 513 w.alloc) (.leaf (BitVec.ofNat 9 sym)))).bitIn = s.bitIn := by rw [f1]; rfl
      have z := (zeroed_set s (Fin.ofNat 513 w.alloc) (.leaf (BitVec.ofNat 9 sym))).trans
        (deliver_zeroed (w.alloc + 1) (Fin.ofNat 513 w.alloc) w.stack _)
      refine ⟨⟨?_, by rw [hb], by rw [hb]; exact ⟨le_rfl, le_max_left _ _⟩, z, fun w' h => ?_, f3⟩, hc,
        fun w' h => (f2 w' h).2.2.2, sound _ rfl⟩
      · conv_lhs => rw [f1]
        rw [hb]
        rfl
      · obtain ⟨h1, h2, h3, _⟩ := f2 w' h
        exact ⟨h1, h2, h3⟩
    · rw [if_neg hc]; exact ⟨rfl, rfl, rfl⟩
  | _ => trivial

/-- One token of a running header decode (42_header_codec R145, R147, R148). -/
theorem headerStep_ends {s : State} {w : HeaderWork} (hw : s.work = some w) :
    (headerStep s).Ends
      (fun u => s.Built u ∧ w.alloc < 513 ∧ (∀ w', u.work = some w' → w'.alloc = w.alloc + 1) ∧
        (PendingAt s.nodes w.alloc w.stack →
          (∀ w', u.work = some w' → PendingAt u.nodes w'.alloc w'.stack) ∧ (u.work = none → u.TreeWf)))
      fun k inf u => (k = .malformedHeader ∨ k = .capacityExceeded) ∧ inf = none ∧ s.Read u := by
  simp only [headerStep, hw]
  rcases fetchToken_read w.alloc s with ⟨i, m, e, hr, _⟩ | ⟨m, e, hr⟩
  · rw [e]
    have hw1 : (s.pastBits m).work = some w := hw
    exact (tokenBody_ends hw1).imp (fun u h => ⟨h.1.mono hr, h.2⟩)
      fun k inf u h => ⟨.inr h.1, h.2.1, h.2.2 ▸ hr⟩
  · rcases e with e | e <;> rw [e]
    · exact ⟨.inl rfl, rfl, hr⟩
    · exact ⟨.inr rfl, rfl, hr⟩

/-- A running header decode, with fuel for every token the node store has room for (42_header_codec R145
to R148): it ends with a complete tree or an error, never in between. -/
theorem headerLoop_ends {k : Nat} {s : State} {w : HeaderWork} (hw : s.work = some w)
    (hk : 513 ≤ w.alloc + k) :
    (headerLoop k s).Ends
      (fun u => s.Built u ∧ u.work = none ∧ (PendingAt s.nodes w.alloc w.stack → u.TreeWf))
      fun kind inf u => (kind = .malformedHeader ∨ kind = .capacityExceeded) ∧ inf = none ∧
        ∃ t, (t = s ∨ (s.Built t ∧ t.work.isSome = true)) ∧ t.Read u := by
  induction k generalizing s w with
  | zero =>
    rw [headerLoop]
    exact (headerStep_ends hw).imp (fun u h => absurd h.2.1 (by omega)) fun _ _ u h => ⟨h.1, h.2.1, s, .inl rfl, h.2.2⟩
  | succ k ih =>
    rw [headerLoop]
    refine Body.Ends.andThen ((headerStep_ends hw).imp (fun _ h => h)
      fun _ _ u h => ⟨h.1, h.2.1, s, .inl rfl, h.2.2⟩) fun u hu => ?_
    obtain ⟨hb, hlt, ha, hp⟩ := hu
    rcases hwu : u.work with _ | w'
    · exact ⟨hb, hwu, fun h => (hp h).2 hwu⟩
    · have ha' := ha w' hwu
      refine (ih hwu (by omega)).imp (fun v hv => ⟨hb.trans hwu hv.1, hv.2.1, fun h => hv.2.2 ((hp h).1 w' hwu)⟩)
        fun kind inf v hv => ⟨hv.1, hv.2.1, ?_⟩
      obtain ⟨t, ht, hr⟩ := hv.2.2
      refine ⟨t, .inr ?_, hr⟩
      rcases ht with rfl | ⟨h1, h2⟩
      · exact ⟨hb, by simp [hwu]⟩
      · exact ⟨hb.trans hwu h1, h2⟩

/-- What an ended header decode can have changed. -/
structure State.HeaderRead (s u : State) : Prop where
  frame : u = { s with
    nodes := u.nodes
    nodeW := u.nodeW
    bitIn := u.bitIn
    root := u.root
    nodeCount := u.nodeCount
    work := u.work
    draws := s.draws + 1
    status := { s.status with treeValid := u.status.treeValid, codesValid := false } }
  data : u.bitIn.data = s.bitIn.data
  pos : s.bitIn.pos ≤ u.bitIn.pos ∧ u.bitIn.pos ≤ max s.bitIn.pos s.bitIn.data.length
  zeroed : s.Zeroed u

/-- HDR_DECODE (42_header_codec R144 to R148). -/
theorem hdrDecodeBody_ends (s : State) :
    (hdrDecodeBody s).Ends
      (fun u => s.HeaderRead u ∧ u.work = none ∧ u.status.treeValid = true ∧ u.TreeWf)
      fun k i u => (k = .malformedHeader ∨ k = .capacityExceeded) ∧ i = none ∧ s.HeaderRead u ∧
        u.status.treeValid = false ∧ u.root = s.root ∧ u.nodeCount = s.nodeCount := by
  refine (headerLoop_ends (k := Config.nodeCap) (s := s.beginHeader) (w := ⟨0, []⟩) rfl (by decide)).imp
    (fun u h => ⟨⟨h.1.frame, h.1.data, h.1.pos, h.1.zeroed⟩, h.2.1, h.1.complete h.2.1, h.2.2 rfl⟩)
    fun k i u h => ⟨h.1, h.2.1, ?_⟩
  obtain ⟨t, ht, m, rfl, hm⟩ := h.2.2
  rcases ht with rfl | ⟨hb, hw⟩
  · exact ⟨⟨rfl, rfl, ⟨Nat.le_add_right _ _, hm⟩, fun _ => .inl rfl⟩, rfl, rfl, rfl⟩
  · obtain ⟨w', hw'⟩ := Option.isSome_iff_exists.mp hw
    obtain ⟨h1, h2, h3⟩ := hb.running w' hw'
    have hp := hb.pos
    rw [hb.data] at hm
    refine ⟨⟨?_, hb.data, ⟨hp.1.trans (Nat.le_add_right _ _), ?_⟩, hb.zeroed⟩, ?_, h2, h3⟩
    · have e := hb.frame
      conv_lhs => rw [e]
      rfl
    · have : s.beginHeader.bitIn = s.bitIn := rfl
      rw [this] at hp hm
      show t.bitIn.pos + m ≤ _
      omega
    · show t.status.treeValid = false
      rw [h1]; rfl

end Sys2Proof.Machine
end

