-- ==== Sys2Proof/Laws/Commands.lean ====
section
/-! SUPPORT. The commands as steps: each is its body between a start and an end, and what all of them, and
the two composite ones, can have changed. -/

namespace Sys2Proof.Machine

/-- An idle core performs the host's next action. -/
theorem step_host {s : State} {op : HostOp} {ops : List HostOp} (hw : s.work = none) (hh : s.host = op :: ops) :
    step s = hostAct exec op { s with host := ops } := by
  rw [step, stepWith, hw]; simp only [hh]

/-- The body of a command; a token is no command. -/
def commandBody (i : Instr) : State → Body :=
  match i with
  | .buildTree => buildTreeBody Config.weightW
  | .genCodes => genCodesBody
  | .hdrEncode => hdrEncodeBody
  | .hdrDecode => hdrDecodeBody
  | .streamEncode => streamEncodeBody
  | .streamDecode => streamDecodeBody
  | .magicWrite => magicWriteBody Config.magic
  | .magicCheck => magicCheckBody Config.magic
  | .compress => compressBody Config.weightW Config.magic
  | .decompress => decompressBody Config.magic
  | .internal => fun _ => .refused .noHeaderDecode
  | .leaf _ => fun _ => .refused .noHeaderDecode

/-- A command is its body between its start and its end (10_state R26, R27). -/
theorem exec_command {i : Instr} (h : i ∈ commands) (s : State) : exec i s = (commandBody i s.start).conclude := by
  fin_cases h <;> rfl

/-- The next state a body leads to. -/
theorem Body.Ends.conclude {b : Body} {good bad} (h : b.Ends good bad) {t : State} (ht : b.conclude = .next t) :
    (∃ u, b = .ok u ∧ good u ∧ t = u.finish) ∨ (∃ k i u, b = .raised k i u ∧ bad k i u ∧ t = u.abort k i) := by
  cases b with
  | ok u => exact .inl ⟨u, rfl, h, by simpa using ht.symm⟩
  | raised k i u => exact .inr ⟨k, i, u, rfl, h, by simpa using ht.symm⟩
  | fault => simp at ht
  | refused => simp at ht

/-- What COMPRESS can have changed (45_container R192 to R194). -/
structure State.Compressed (s u : State) : Prop where
  frame : u = { s with
    nodes := u.nodes
    nodeW := u.nodeW
    root := u.root
    nodeCount := u.nodeCount
    codes := u.codes
    draws := u.draws
    bitOut := u.bitOut
    symIn := u.symIn
    status := { s.status with treeValid := true, codesValid := true } }
  data : u.symIn.data = s.symIn.data
  pos : s.symIn.pos ≤ u.symIn.pos ∧ u.symIn.pos ≤ max s.symIn.pos s.symIn.data.length
  grow : ∃ x, u.bitOut = s.bitOut ++ x

/-- COMPRESS (45_container R193, R194). -/
theorem compress_ends (w : Nat) (magic : Word) (s : State) :
    (compressBody w magic s).Ends
      (fun u => State.Compressed s u)
      fun k i u => k = .internalEncodingGap ∧ (∃ sym : Fin 257, i = some (BitVec.ofNat 32 sym.val)) ∧ State.Compressed s u := by
  unfold compressBody
  refine Body.Ends.andThen (good := fun u => State.Compressed s u ∧ u.status.codesValid = true) ?_ fun u hu => ?_
  · refine Body.Ends.andThen (good := fun u => State.Compressed s u ∧ u.status.treeValid = true) ?_ fun u hu => ?_
    · refine Body.Ends.andThen (good := fun u => State.Compressed s u) ?_ fun u hu => ?_
      · refine Body.Ends.andThen (good := fun u => u.status.treeValid = true ∧ u = { s with
            nodes := u.nodes
            nodeW := u.nodeW
            root := u.root
            nodeCount := u.nodeCount
            draws := u.draws
            status := { s.status with treeValid := true, codesValid := false } }) ?_ fun u hu => ?_
        · exact (buildTreeBody_ends w s).imp (fun u h => by rw [h.2]; exact ⟨rfl, rfl⟩) fun _ _ _ h => h.elim
        · refine (genCodesBody_ends u).imp (fun v h => ?_) fun k i v h => ?_
          · obtain ⟨_, t, _, rfl⟩ := h
            have e := hu.2
            refine ⟨?_, ?_, ?_, ?_⟩
            · rw [e]
            · rw [e]
            · rw [e]; exact ⟨le_rfl, le_max_left _ _⟩
            · rw [e]; exact ⟨[], by simp⟩
          · rw [hu.1] at h; exact absurd h.1 (by simp)
      · have e := hu.frame
        refine ⟨⟨?_, hu.data, hu.pos, ?_⟩, ?_⟩
        · conv_lhs => rw [e]
          try rfl
        · obtain ⟨x, hx⟩ := hu.grow
          exact ⟨x ++ bitsOf 32 magic.toNat, by simp [State.writeBits, hx]⟩
        · show u.status.treeValid = true
          rw [e]
    · refine (hdrEncodeBody_ends u).imp (fun v h => ?_) fun k i v h => ?_
      · obtain ⟨_, t, _, rfl⟩ := h
        obtain ⟨hu, _⟩ := hu
        have e := hu.frame
        refine ⟨⟨?_, hu.data, hu.pos, ?_⟩, ?_⟩
        · conv_lhs => rw [e]
          try rfl
        · obtain ⟨x, hx⟩ := hu.grow
          exact ⟨x ++ t.header, by simp [hx]⟩
        · show u.status.codesValid = true
          rw [e]
      · rw [hu.2] at h; exact absurd h.1 (by simp)
  · obtain ⟨hu, hc⟩ := hu
    have key : ∀ v, u.Encoded v → State.Compressed s v := by
      rintro v ⟨n, x, rfl, hn⟩
      have e := hu.frame
      obtain ⟨y, hy⟩ := hu.grow
      have hp := hu.pos
      refine ⟨?_, hu.data, ?_, ⟨y ++ x, by simp [hy]⟩⟩
      · conv_lhs => rw [e]
        try rfl
      · rw [hu.data] at hn
        simp only [State.pastSyms]
        omega
    refine (streamEncodeBody_ends u).imp (fun v h => key v h.2) fun k i v h => ?_
    rcases h with h | h
    · rw [hc] at h; exact absurd h.1 (by simp)
    · exact ⟨h.2.1, h.2.2.1, key v h.2.2.2⟩

/-- What DECOMPRESS can have changed (45_container R195). -/
structure State.Decompressed (s u : State) : Prop where
  frame : u = { s with
      nodes := u.nodes
      nodeW := u.nodeW
      root := u.root
      nodeCount := u.nodeCount
      cur := u.cur
      bitIn := u.bitIn
      symOut := u.symOut
      draws := u.draws
      work := u.work
      status := { s.status with treeValid := u.status.treeValid, codesValid := u.status.codesValid } }
  data : u.bitIn.data = s.bitIn.data
  pos : s.bitIn.pos ≤ u.bitIn.pos ∧ u.bitIn.pos ≤ max s.bitIn.pos s.bitIn.data.length
  grow : ∃ x, u.symOut = s.symOut ++ x
  zeroed : s.Zeroed u

theorem State.HeaderRead.decompressed {s u : State} (h : s.HeaderRead u) : State.Decompressed s u := by
  have e := h.frame
  refine ⟨?_, h.data, h.pos, ⟨[], ?_⟩, h.zeroed⟩
  · rw [e]
  · rw [e]; simp

theorem State.Decoded.decompressed {s u : State} (h : s.Decoded u) : State.Decompressed s u := by
  obtain ⟨n, c, x, rfl, hn⟩ := h
  exact ⟨rfl, rfl, ⟨Nat.le_add_right _ _, hn⟩, ⟨x, rfl⟩, fun _ => .inl rfl⟩

theorem pastBits_decompressed {s : State} {n : Nat} (h : s.bitIn.pos + n ≤ max s.bitIn.pos s.bitIn.data.length) :
    State.Decompressed s (s.pastBits n) :=
  ⟨rfl, rfl, ⟨Nat.le_add_right _ _, h⟩, ⟨[], by simp [State.pastBits]⟩, fun _ => .inl rfl⟩

theorem State.Decompressed.trans {a b c : State} (h : State.Decompressed a b) (g : State.Decompressed b c) : State.Decompressed a c := by
  have hp := h.pos
  have gp := g.pos
  rw [h.data] at gp
  obtain ⟨x, hx⟩ := h.grow
  obtain ⟨y, hy⟩ := g.grow
  refine ⟨?_, g.data.trans h.data, by omega, ⟨x ++ y, by simp [hx, hy]⟩, h.zeroed.trans g.zeroed⟩
  have e := g.frame
  rw [h.frame] at e
  exact e

/-- DECOMPRESS (45_container R196). -/
theorem decompress_ends (magic : Word) (s : State) :
    (decompressBody magic s).Ends
      (fun u => State.Decompressed s u ∧ u.work = none ∧ u.status.treeValid = true ∧ u.status.codesValid = false ∧ u.TreeWf)
      fun k i u => State.Decompressed s u ∧
        ((k = .badMagicHeader ∧ (i = none ∨ ∃ v, v ≠ magic ∧ i = some v) ∧ ∃ n, u = s.pastBits n) ∨
         ((k = .malformedHeader ∨ k = .capacityExceeded) ∧ i = none ∧ u.status.treeValid = false ∧ u.status.codesValid = false) ∨
         (k = .truncatedStream ∧ i = none ∧ u.status.treeValid = true ∧ u.status.codesValid = false ∧ u.TreeWf)) := by
  unfold decompressBody
  refine Body.Ends.andThen (good := fun u => State.Decompressed s u ∧ u.work = none ∧ u.status.treeValid = true ∧
    u.status.codesValid = false ∧ u.TreeWf) ?_ fun u hu => ?_
  · refine Body.Ends.andThen (good := fun u => State.Decompressed s u) ?_ fun u hu => ?_
    · refine (magicCheckBody_ends magic s).imp (fun u h => ?_) fun k i u h => ?_
      · rw [h.2.1]; exact pastBits_decompressed (by omega)
      · obtain ⟨rfl, ⟨rfl, rfl⟩ | ⟨hv, rfl, hp⟩⟩ := h
        · exact ⟨pastBits_decompressed (n := 0) (by simp), .inl ⟨rfl, .inl rfl, 0, rfl⟩⟩
        · exact ⟨pastBits_decompressed (by omega), .inl ⟨rfl, .inr hv, 32, rfl⟩⟩
    · refine (hdrDecodeBody_ends u).imp (fun v h => ?_) fun k i v h => ?_
      · exact ⟨hu.trans (State.HeaderRead.decompressed h.1), h.2.1, h.2.2.1, by rw [h.1.frame], h.2.2.2⟩
      · exact ⟨hu.trans (State.HeaderRead.decompressed h.2.2.1), .inr (.inl ⟨h.1, h.2.1, h.2.2.2.1, by rw [h.2.2.1.frame]⟩)⟩
  · obtain ⟨hf, hw, htv, hcv, hwf⟩ := hu
    refine (streamDecodeBody_ends u).imp (fun v h => ?_) fun k i v h => ?_
    · have hd := hf.trans (State.Decoded.decompressed h.2.1)
      obtain ⟨_, ⟨n, c, x, rfl, hn⟩, _⟩ := h
      exact ⟨hd, hw, htv, hcv, hwf⟩
    · rcases h with h | ⟨_, rfl, rfl, h, _⟩
      · rw [htv] at h; exact absurd h.1 (by simp)
      · have hd := hf.trans (State.Decoded.decompressed h)
        obtain ⟨n, c, x, rfl, hn⟩ := h
        exact ⟨hd, .inr (.inr ⟨rfl, rfl, htv, hcv, hwf⟩)⟩

/-- What the body of every command keeps or only extends (20_memory R75, R83, R85). -/
structure State.Kept (s u : State) : Prop where
  cmd : u.cmd = s.cmd
  err : u.err = s.err
  errInfo : u.errInfo = s.errInfo
  freq : u.freq = s.freq
  host : u.host = s.host
  reads : u.reads = s.reads
  packed : u.packed = s.packed
  busy : u.status.busy = s.status.busy
  done : u.status.done = s.status.done
  error : u.status.error = s.status.error
  symData : u.symIn.data = s.symIn.data
  bitData : u.bitIn.data = s.bitIn.data
  symPos : s.symIn.pos ≤ u.symIn.pos ∧ u.symIn.pos ≤ max s.symIn.pos s.symIn.data.length
  bitPos : s.bitIn.pos ≤ u.bitIn.pos ∧ u.bitIn.pos ≤ max s.bitIn.pos s.bitIn.data.length
  bitOut : ∃ x, u.bitOut = s.bitOut ++ x
  symOut : ∃ x, u.symOut = s.symOut ++ x

theorem State.Kept.refl (s : State) : State.Kept s s :=
  ⟨rfl, rfl, rfl, rfl, rfl, rfl, rfl, rfl, rfl, rfl, rfl, rfl, ⟨le_rfl, le_max_left _ _⟩,
    ⟨le_rfl, le_max_left _ _⟩, ⟨[], by simp⟩, ⟨[], by simp⟩⟩

theorem State.Encoded.kept {s u : State} (h : s.Encoded u) : State.Kept s u := by
  obtain ⟨n, x, rfl, hn⟩ := h
  exact ⟨rfl, rfl, rfl, rfl, rfl, rfl, rfl, rfl, rfl, rfl, rfl, rfl, ⟨Nat.le_add_right _ _, hn⟩,
    ⟨le_rfl, le_max_left _ _⟩, ⟨x, rfl⟩, ⟨[], by simp [State.pastSyms]⟩⟩

theorem State.Decompressed.kept {s u : State} (h : State.Decompressed s u) : State.Kept s u := by
  obtain ⟨e, hd, hp, hg, _⟩ := h
  refine ⟨by rw [e], by rw [e], by rw [e], by rw [e], by rw [e], by rw [e], by rw [e], by rw [e], by rw [e],
    by rw [e], by rw [e], hd, ?_, hp, ?_, hg⟩
  · have : u.symIn = s.symIn := by rw [e]
    rw [this]; exact ⟨le_rfl, le_max_left _ _⟩
  · exact ⟨[], by rw [e]; simp⟩

theorem State.Compressed.kept {s u : State} (h : State.Compressed s u) : State.Kept s u := by
  obtain ⟨e, hd, hp, hg⟩ := h
  refine ⟨by rw [e], by rw [e], by rw [e], by rw [e], by rw [e], by rw [e], by rw [e], by rw [e], by rw [e],
    by rw [e], hd, by rw [e], hp, ?_, hg, ?_⟩
  · have : u.bitIn = s.bitIn := by rw [e]
    rw [this]; exact ⟨le_rfl, le_max_left _ _⟩
  · exact ⟨[], by rw [e]; simp⟩

/-- No command changes what `State.Kept` names. -/
theorem commandBody_kept {i : Instr} (hi : i ∈ commands) (s : State) :
    (commandBody i s).Ends (State.Kept s) (fun _ _ => State.Kept s) := by
  cases i with
  | buildTree =>
    refine (buildTreeBody_ends _ s).imp (fun u h => ?_) fun _ _ _ h => h.elim
    rw [h.2]
    exact State.Kept.mk rfl rfl rfl rfl rfl rfl rfl rfl rfl rfl rfl rfl ⟨le_rfl, le_max_left _ _⟩
      ⟨le_rfl, le_max_left _ _⟩ ⟨[], (List.append_nil _).symm⟩ ⟨[], (List.append_nil _).symm⟩
  | genCodes =>
    refine (genCodesBody_ends s).imp (fun u h => ?_) fun k i u h => ?_
    · obtain ⟨_, t, _, rfl⟩ := h
      exact State.Kept.mk rfl rfl rfl rfl rfl rfl rfl rfl rfl rfl rfl rfl ⟨le_rfl, le_max_left _ _⟩
        ⟨le_rfl, le_max_left _ _⟩ ⟨[], (List.append_nil _).symm⟩ ⟨[], (List.append_nil _).symm⟩
    · rw [h.2.2.2]; exact .refl s
  | hdrEncode =>
    refine (hdrEncodeBody_ends s).imp (fun u h => ?_) fun k i u h => ?_
    · obtain ⟨_, t, _, rfl⟩ := h
      exact State.Kept.mk rfl rfl rfl rfl rfl rfl rfl rfl rfl rfl rfl rfl ⟨le_rfl, le_max_left _ _⟩
        ⟨le_rfl, le_max_left _ _⟩ ⟨_, rfl⟩ ⟨[], (List.append_nil _).symm⟩
    · rw [h.2.2.2]; exact .refl s
  | hdrDecode =>
    exact (hdrDecodeBody_ends s).imp (fun u h => State.Decompressed.kept (State.HeaderRead.decompressed h.1))
      fun k i u h => State.Decompressed.kept (State.HeaderRead.decompressed h.2.2.1)
  | streamEncode =>
    refine (streamEncodeBody_ends s).imp (fun u h => State.Encoded.kept h.2) fun k i u h => ?_
    rcases h with ⟨_, _, _, rfl⟩ | h
    · exact .refl _
    · exact State.Encoded.kept h.2.2.2
  | streamDecode =>
    refine (streamDecodeBody_ends s).imp (fun u h => State.Decompressed.kept (State.Decoded.decompressed h.2.1)) fun k i u h => ?_
    rcases h with ⟨_, _, _, rfl⟩ | h
    · exact .refl _
    · exact State.Decompressed.kept (State.Decoded.decompressed h.2.2.2.1)
  | magicWrite =>
    exact State.Kept.mk rfl rfl rfl rfl rfl rfl rfl rfl rfl rfl rfl rfl ⟨le_rfl, le_max_left _ _⟩
        ⟨le_rfl, le_max_left _ _⟩ ⟨_, rfl⟩ ⟨[], (List.append_nil _).symm⟩
  | magicCheck =>
    refine (magicCheckBody_ends _ s).imp (fun u h => ?_) fun k i u h => ?_
    · rw [h.2.1]; exact State.Decompressed.kept (pastBits_decompressed (by omega))
    · obtain ⟨_, ⟨_, rfl⟩ | ⟨_, rfl, hp⟩⟩ := h
      · exact .refl _
      · exact State.Decompressed.kept (pastBits_decompressed (by omega))
  | compress => exact (compress_ends _ _ s).imp (fun u h => State.Compressed.kept h) fun k i u h => State.Compressed.kept h.2.2
  | decompress => exact (decompress_ends _ s).imp (fun u h => State.Decompressed.kept h.1) fun k i u h => State.Decompressed.kept h.1
  | internal => exact absurd hi (by decide)
  | leaf sym => exact absurd hi (by simp [commands])

/-- The tree GEN_CODES and HDR_ENCODE read, from what the node store holds. -/
theorem tree_of_isTreeAt {s : State} {t : Tree} {is : List Nat} (h : IsTreeAt s.nodes s.root t is) (hl : t.leafCount ≤ 257) :
    s.tree = some t := by
  have := depth_lt_leafCount t
  exact shapeAt_of_isTreeAt h _ (by simp only [Config.maxCodeLen]; omega)

/-- GEN_CODES on a valid tree (41_code_table R127). -/
theorem exec_genCodes {s : State} {t : Tree} (ht : s.status.treeValid = true) (h : s.tree = some t) :
    exec .genCodes s = .next { s.succeed with
        codes := t.codeTable
        status := { busy := false, done := true, error := false, treeValid := true, codesValid := true } } := by
  have h1 : s.start.status.treeValid = true := ht
  have h2 : s.start.tree = some t := h
  show runCommand genCodesBody s = _
  simp only [runCommand, genCodesBody, h1, needs_true, h2, conclude_ok]
  simp only [State.finish, State.start, State.succeed, ht]

/-- HDR_ENCODE on a valid tree (42_header_codec R143). -/
theorem exec_hdrEncode {s : State} {t : Tree} (ht : s.status.treeValid = true) (h : s.tree = some t) :
    exec .hdrEncode s = .next { s.succeed with bitOut := s.bitOut ++ t.header } := by
  have h1 : s.start.status.treeValid = true := ht
  have h2 : s.start.tree = some t := h
  show runCommand hdrEncodeBody s = _
  simp only [runCommand, hdrEncodeBody, h1, needs_true, h2, conclude_ok, emit_eq]
  rfl

/-- STREAM_ENCODE on a valid code table (43_stream_encoder R162). -/
theorem exec_streamEncode {s : State} (h : s.status.codesValid = true) :
    exec .streamEncode s = (encodeLoop s.symIn.rest.length s.start).conclude := by
  show runCommand streamEncodeBody s = _
  unfold runCommand streamEncodeBody
  have : s.start.status.codesValid = true := h
  rw [this, needs_true]; rfl

/-- STREAM_DECODE on a valid tree (44_stream_decoder R172). -/
theorem exec_streamDecode {s : State} (h : s.status.treeValid = true) :
    exec .streamDecode s = (decodeLoop s.bitIn.rest.length { s.start with cur := s.root }).conclude := by
  show runCommand streamDecodeBody s = _
  unfold runCommand streamDecodeBody
  have : s.start.status.treeValid = true := h
  rw [this, needs_true]; rfl

theorem codeOf_length {t : CodeTable} {sym : Fin 257} {c : List Bool} (h : t.codeOf sym = some c) :
    c.length = t.len[sym].len.toNat := by
  unfold CodeTable.codeOf at h
  split at h
  · cases h; simp
  · cases h

/-- The length of a body (30_encoding R106). -/
theorem bodyOf_length {t : CodeTable} (syms : List (Fin 257)) {body : List Bool} (h : t.bodyOf syms = some body) :
    body.length = (syms.map fun (sym : Fin 257) => t.len[sym].len.toNat).sum := by
  induction syms generalizing body with
  | nil => simp [CodeTable.bodyOf] at h; subst h; rfl
  | cons x xs ih =>
    simp only [CodeTable.bodyOf] at h
    rcases hc : t.codeOf x with _ | c
    · simp [hc] at h
    rcases hb : t.bodyOf xs with _ | b
    · simp [hc, hb] at h
    simp only [hc, hb, Option.bind_some, Option.map_some, Option.some.injEq] at h
    subst h
    simp [ih hb, codeOf_length hc]

theorem eos_iff {x : Sym} : x.toNat = Config.eos ↔ x = 256 := by
  unfold Config.eos
  constructor
  · intro h; exact BitVec.eq_of_toNat_eq h
  · rintro rfl; rfl

/-- What is fetched is a header token. -/
theorem fetchToken_token {n : Nat} {s : State} {i t} (h : s.fetchToken n = .token i t) : (i = .internal ∨ ∃ v, i = .leaf v) ∧ t.work = s.work := by
  unfold State.fetchToken at h
  rcases readBits_cases 1 s with ⟨_, e⟩ | ⟨_, e⟩ <;> rw [e] at h
  · simp only at h
    split at h
    · rcases hd : decodeToken s.bitIn.rest with e1 | ⟨j, r⟩ <;> rw [hd] at h
      · cases h
      · simp only at h
        rcases readBits_cases (encodeWidth j) s with ⟨_, e2⟩ | ⟨_, e2⟩ <;> simp only [e2] at h
        · cases h
          refine ⟨?_, rfl⟩
          rcases hr : s.bitIn.rest with _ | ⟨_ | _, r'⟩ <;> rw [hr] at hd
          · cases hd
          · cases hd; exact .inl rfl
          · simp only [decodeToken] at hd
            split at hd
            · cases hd
            · cases hd; exact .inr ⟨_, rfl⟩
        · cases h
    · cases h
  · cases h

/-- A running header decode ends in a tree or an error (30_encoding R102). -/
theorem headerLoop_ends_or_raises (k : Nat) (s : State) (h : s.work ≠ none) : (∃ u, headerLoop k s = .ok u) ∨ ∃ kd i u, headerLoop k s = .raised kd i u := by
  have tok : ∀ (i : Instr) (s : State) , (i = .internal ∨ ∃ v, i = .leaf v) → s.work ≠ none → (∃ u, tokenBody i s = .ok u) ∨ ∃ kd inf u, tokenBody i s = .raised kd inf u := by
    rintro i s hi hw
    obtain ⟨w, hw⟩ := Option.ne_none_iff_exists'.mp hw
    rcases hi with rfl | ⟨v, rfl⟩
    · simp only [tokenBody, internalBody, hw]; split
      · exact .inl ⟨_, rfl⟩
      · exact .inr ⟨_, _, _, rfl⟩
    · simp only [tokenBody, leafBody, hw]; split
      · exact .inl ⟨_, rfl⟩
      · exact .inr ⟨_, _, _, rfl⟩
  have stp : ∀ s : State, (∃ u, headerStep s = .ok u) ∨ ∃ kd i u, headerStep s = .raised kd i u := by
    intro s
    rcases hw : s.work with _ | w
    · exact .inl ⟨s, by simp only [headerStep, hw]⟩
    · simp only [headerStep, hw]
      rcases hf : s.fetchToken w.alloc with ⟨i, t⟩ | ⟨kd, t⟩
      · obtain ⟨h1, h2⟩ := fetchToken_token hf
        exact tok i t h1 (by rw [h2, hw]; simp)
      · exact .inr ⟨kd, none, t, rfl⟩
  induction k generalizing s with
  | zero => exact stp s
  | succ k ih =>
    rw [headerLoop]
    rcases stp s with ⟨u, hu⟩ | ⟨kd, i, u, hu⟩
    · rw [hu, andThen_ok]
      rcases hw : u.work with _ | w
      · exact .inl ⟨u, rfl⟩
      · exact ih u (by rw [hw]; simp)
    · rw [hu]; exact .inr ⟨kd, i, u, rfl⟩

/-- A step of a running header decode (42_header_codec R145). -/
theorem step_headerStep {s : State} {w : HeaderWork} (hw : s.work = some w) : step s = (headerStep s).concludeToken := by
  rw [step, stepWith, hw]
  simp only [headerStep, hw]
  rcases hf : s.fetchToken w.alloc with ⟨i, t⟩ | ⟨kd, t⟩
  · simp only
    by_cases hi : i = .internal ∨ ∃ v, i = .leaf v
    · rcases hi with rfl | ⟨v, rfl⟩ <;> rfl
    · exact absurd (fetchToken_token hf).1 hi
  · rfl

/-- The decoder ends well or with an error (44_stream_decoder R178). -/
theorem decodeLoop_ends_or_raises (k : Nat) (s : State) : (∃ u, decodeLoop k s = .ok u) ∨ ∃ kd i u, decodeLoop k s = .raised kd i u := by
  induction k generalizing s with
  | zero => exact .inr ⟨_, _, _, rfl⟩
  | succ k ih =>
    rw [decodeLoop]
    rcases decodeStep s with _ | ⟨_ | _, s1⟩
    · exact .inr ⟨_, _, _, rfl⟩
    · exact ih s1
    · exact .inl ⟨_, rfl⟩

/-- The encoder ends well or with an error (43_stream_encoder R163). -/
theorem encodeLoop_ends_or_raises (k : Nat) (s : State) : (∃ u, encodeLoop k s = .ok u) ∨ ∃ kd i u, encodeLoop k s = .raised kd i u := by
  have w : ∀ (sym) (s : State), (∃ u, s.writeCode sym = .ok u) ∨ ∃ kd i u, s.writeCode sym = .raised kd i u := by
    intro sym s; unfold State.writeCode; split
    · exact .inl ⟨_, rfl⟩
    · exact .inr ⟨_, _, _, rfl⟩
  induction k generalizing s with
  | zero => exact w _ _
  | succ k ih =>
    rw [encodeLoop]
    rcases s.readSym with _ | ⟨b, s1⟩
    · exact w _ _
    · simp only
      rcases w (Fin.ofNat 257 b.toNat) s1 with ⟨u, hu⟩ | ⟨kd, i, u, hu⟩
      · rw [hu, andThen_ok]; exact ih u
      · rw [hu]; exact .inr ⟨kd, i, u, rfl⟩

/-- BUILD_TREE within the weight bound (40_tree_builder R112, R120). -/
theorem exec_buildTree {s : State} (h : s.WeightBound) : exec .buildTree s
    = .next (s.start.dropTree.storeTree (huffman (counts s.freq)).1 (huffman (counts s.freq)).2).finish := by
  have hi : Instr.buildTree ∈ commands := by decide
  have hb : withinWeightBound Config.weightW s.start.freq = true := (weightBound_iff s).mpr h
  rw [exec_command hi]
  show (buildTreeBody Config.weightW s.start).conclude = _
  rw [buildTreeBody, if_pos hb]
  rfl

/-- A next state of BUILD_TREE is the one it stores its tree in (40_tree_builder R112, R117). -/
theorem exec_buildTree_next {s t : State} (h : exec .buildTree s = .next t) : s.WeightBound ∧
    t = (s.start.dropTree.storeTree (huffman (counts s.freq)).1 (huffman (counts s.freq)).2).finish := by
  have hi : Instr.buildTree ∈ commands := by decide
  have h' := h
  rw [exec_command hi] at h
  rcases Body.Ends.conclude (buildTreeBody_ends _ s.start) h with ⟨u, hu, ⟨h1, rfl⟩, rfl⟩ | ⟨kd, inf, u, _, k, rfl⟩
  · exact ⟨(weightBound_iff s).mp h1, rfl⟩
  · exact k.elim

end Sys2Proof.Machine
end

