-- ==== Sys2Proof/Laws/Nodes.lean ====
section
/-! SUPPORT. The nodes of a tree in the node store: parents, children and leaves (10_state R41). -/

namespace Sys2Proof.Machine

theorem isTreeAt_root_mem {nodes : Vector Node 513} {i : NodeIdx} {t : Tree} {is : List Nat} (h : IsTreeAt nodes i t is) : i.val ∈ is := by
  cases h <;> simp

/-- Every node of a tree but its root is some node's child (10_state R41). -/
theorem isTreeAt_parent {nodes : Vector Node 513} {i : NodeIdx} {t : Tree} {is : List Nat} (h : IsTreeAt nodes i t is) :
    ∀ j ∈ is, j ≠ i.val → ∃ p l r : NodeIdx, p.val ∈ is ∧ nodes[p] = .internal l r ∧ (l.val = j ∨ r.val = j) := by
  induction h with
  | leaf i sym h => intro j hj hne; simp at hj; exact absurd hj hne
  | node i l r tl tr il ir h hl hr ihl ihr =>
    intro j hj hne
    simp only [List.mem_cons, List.mem_append] at hj ⊢
    rcases hj with rfl | hj | hj
    · exact absurd rfl hne
    · by_cases e : j = l.val
      · exact ⟨i, l, r, .inl rfl, h, .inl e.symm⟩
      · obtain ⟨p, a, b, hp, hn, hh⟩ := ihl j hj e
        exact ⟨p, a, b, .inr (.inl hp), hn, hh⟩
    · by_cases e : j = r.val
      · exact ⟨i, l, r, .inl rfl, h, .inr e.symm⟩
      · obtain ⟨p, a, b, hp, hn, hh⟩ := ihr j hj e
        exact ⟨p, a, b, .inr (.inr hp), hn, hh⟩

/-- The children of a tree's node belong to the tree (10_state R41). -/
theorem isTreeAt_children {nodes : Vector Node 513} {i : NodeIdx} {t : Tree} {is : List Nat} (h : IsTreeAt nodes i t is) :
    ∀ p l r : NodeIdx, p.val ∈ is → nodes[p] = .internal l r → l.val ∈ is ∧ r.val ∈ is := by
  have root : ∀ {i : NodeIdx} {t : Tree} {is : List Nat}, IsTreeAt nodes i t is → i.val ∈ is := by
    intro i t is h; cases h <;> simp
  induction h with
  | leaf i sym h =>
    intro p l r hp hn
    simp only [List.mem_singleton] at hp
    have : p = i := Fin.ext hp
    rw [this, h] at hn; cases hn
  | node i l r tl tr il ir h hl hr ihl ihr =>
    intro p a b hp hn
    simp only [List.mem_cons, List.mem_append] at hp ⊢
    rcases hp with hp | hp | hp
    · have : p = i := Fin.ext hp
      rw [this, h] at hn; cases hn
      exact ⟨.inr (.inl (root hl)), .inr (.inr (root hr))⟩
    · have := ihl p a b hp hn; exact ⟨.inr (.inl this.1), .inr (.inl this.2)⟩
    · have := ihr p a b hp hn; exact ⟨.inr (.inr this.1), .inr (.inr this.2)⟩

/-- No node of a tree has its root as a child, or one child twice (10_state R41). -/
theorem isTreeAt_root_no_parent {nodes : Vector Node 513} {i : NodeIdx} {t : Tree} {is : List Nat} (h : IsTreeAt nodes i t is) (nd : is.Nodup) :
    ∀ p l r : NodeIdx, p.val ∈ is → nodes[p] = .internal l r → l ≠ i ∧ r ≠ i ∧ l ≠ r := by
  induction h with
  | leaf i sym h =>
    intro p l r hp hn
    have : p = i := Fin.ext (by simpa using hp)
    rw [this, h] at hn; cases hn
  | node i l r tl tr il ir h hl hr ihl ihr =>
    intro p a b hp hn
    simp only [List.nodup_cons, List.mem_append, not_or, List.nodup_append] at nd
    obtain ⟨⟨n1, n2⟩, n3, n4, n5⟩ := nd
    simp only [List.mem_cons, List.mem_append] at hp
    rcases hp with hp | hp | hp
    · have : p = i := Fin.ext hp
      subst this
      rw [h] at hn; cases hn
      refine ⟨?_, ?_, ?_⟩
      · rintro rfl; exact n1 (isTreeAt_root_mem hl)
      · rintro rfl; exact n2 (isTreeAt_root_mem hr)
      · rintro rfl; exact n5 _ (isTreeAt_root_mem hl) _ (isTreeAt_root_mem hr) rfl
    · have := isTreeAt_children hl p a b hp hn
      refine ⟨?_, ?_, (ihl n3 p a b hp hn).2.2⟩
      · rintro rfl; exact n1 this.1
      · rintro rfl; exact n1 this.2
    · have := isTreeAt_children hr p a b hp hn
      refine ⟨?_, ?_, (ihr n4 p a b hp hn).2.2⟩
      · rintro rfl; exact n2 this.1
      · rintro rfl; exact n2 this.2

/-- A node of a tree is the child of at most one (10_state R41). -/
theorem isTreeAt_parent_unique {nodes : Vector Node 513} {i : NodeIdx} {t : Tree} {is : List Nat} (h : IsTreeAt nodes i t is) (nd : is.Nodup) :
    ∀ (c p q l r l' r' : NodeIdx), p.val ∈ is → q.val ∈ is → nodes[p] = .internal l r → nodes[q] = .internal l' r' →
      (l = c ∨ r = c) → (l' = c ∨ r' = c) → p = q := by
  induction h with
  | leaf i sym h =>
    intro c p q l r l' r' hp _ hn
    have : p = i := Fin.ext (by simpa using hp)
    rw [this, h] at hn; cases hn
  | node i l r tl tr il ir h hl hr ihl ihr =>
    intro c p q a b a' b' hp hq hn hm hc hc'
    simp only [List.nodup_cons, List.mem_append, not_or, List.nodup_append] at nd
    obtain ⟨⟨n1, n2⟩, n3, n4, n5⟩ := nd
    have inl : ∀ x y z : NodeIdx, x.val ∈ il → nodes[x] = .internal y z → (y = c ∨ z = c) → c.val ∈ il ∧ c ≠ l := by
      intro x y z hx hn hc
      have m := isTreeAt_children hl x y z hx hn
      have n := isTreeAt_root_no_parent hl n3 x y z hx hn
      rcases hc with rfl | rfl
      · exact ⟨m.1, n.1⟩
      · exact ⟨m.2, n.2.1⟩
    have inr : ∀ x y z : NodeIdx, x.val ∈ ir → nodes[x] = .internal y z → (y = c ∨ z = c) → c.val ∈ ir ∧ c ≠ r := by
      intro x y z hx hn hc
      have m := isTreeAt_children hr x y z hx hn
      have n := isTreeAt_root_no_parent hr n4 x y z hx hn
      rcases hc with rfl | rfl
      · exact ⟨m.1, n.1⟩
      · exact ⟨m.2, n.2.1⟩
    have top : ∀ x y z : NodeIdx, x = i → nodes[x] = .internal y z → (y = c ∨ z = c) → c = l ∨ c = r := by
      rintro x y z rfl hn hc
      rw [h] at hn; cases hn
      rcases hc with rfl | rfl
      · exact .inl rfl
      · exact .inr rfl
    have ml := isTreeAt_root_mem hl
    have mr := isTreeAt_root_mem hr
    simp only [List.mem_cons, List.mem_append] at hp hq
    rcases hp with hp | hp | hp <;> rcases hq with hq | hq | hq
    · exact Fin.ext (hp.trans hq.symm)
    · have e := inl q a' b' hq hm hc'
      rcases top p a b (Fin.ext hp) hn hc with rfl | rfl
      · exact absurd rfl e.2
      · exact absurd rfl (n5 _ e.1 _ mr)
    · have e := inr q a' b' hq hm hc'
      rcases top p a b (Fin.ext hp) hn hc with rfl | rfl
      · exact absurd rfl (n5 _ ml _ e.1)
      · exact absurd rfl e.2
    · have e := inl p a b hp hn hc
      rcases top q a' b' (Fin.ext hq) hm hc' with rfl | rfl
      · exact absurd rfl e.2
      · exact absurd rfl (n5 _ e.1 _ mr)
    · exact ihl n3 c p q a b a' b' hp hq hn hm hc hc'
    · exact absurd rfl (n5 _ (inl p a b hp hn hc).1 _ (inr q a' b' hq hm hc').1)
    · have e := inr p a b hp hn hc
      rcases top q a' b' (Fin.ext hq) hm hc' with rfl | rfl
      · exact absurd rfl (n5 _ ml _ e.1)
      · exact absurd rfl e.2
    · exact absurd rfl (n5 _ (inl q a' b' hq hm hc').1 _ (inr p a b hp hn hc).1)
    · exact ihr n4 c p q a b a' b' hp hq hn hm hc hc'

/-- Below a tree's node stands a tree. -/
theorem isTreeAt_sub {nodes : Vector Node 513} {i : NodeIdx} {t : Tree} {is : List Nat} (h : IsTreeAt nodes i t is) :
    ∀ p : NodeIdx, p.val ∈ is → ∃ tp ip, IsTreeAt nodes p tp ip ∧ tp.leafCount ≤ t.leafCount := by
  induction h with
  | leaf i sym h =>
    intro p hp
    have : p = i := Fin.ext (by simpa using hp)
    subst this; exact ⟨_, _, .leaf p sym h, le_rfl⟩
  | node i l r tl tr il ir h hl hr ihl ihr =>
    intro p hp
    simp only [List.mem_cons, List.mem_append] at hp
    rcases hp with hp | hp | hp
    · have : p = i := Fin.ext hp
      subst this; exact ⟨_, _, .node p l r tl tr il ir h hl hr, le_rfl⟩
    · obtain ⟨tp, ip, a, b⟩ := ihl p hp; exact ⟨tp, ip, a, b.trans (by simp [Tree.leafCount])⟩
    · obtain ⟨tp, ip, a, b⟩ := ihr p hp; exact ⟨tp, ip, a, b.trans (by simp [Tree.leafCount])⟩

/-- The leaves among a tree's indices (10_state R41). -/
theorem isTreeAt_leaf_count {nodes : Vector Node 513} {i : NodeIdx} {t : Tree} {is : List Nat} (h : IsTreeAt nodes i t is) :
    is.countP (fun j => (nodes[j]?).elim false Node.isLeaf) = t.leafCount := by
  induction h with
  | leaf i sym h =>
    have : nodes[i.val]? = some (.leaf sym) := by rw [Vector.getElem?_eq_getElem i.isLt]; exact congrArg some h
    rw [List.countP_singleton, this]; rfl
  | node i l r tl tr il ir h hl hr ihl ihr =>
    have : nodes[i.val]? = some (.internal l r) := by rw [Vector.getElem?_eq_getElem i.isLt]; exact congrArg some h
    rw [List.countP_cons, List.countP_append, ihl, ihr, this]
    simp [Node.isLeaf, Tree.leafCount]

end Sys2Proof.Machine
end

