-- ==== Sys2Proof/Laws/PerInstr.lean ====
section
/-! SUPPORT. Statements for all instructions, one lemma for each constructor. -/

namespace Sys2Proof.Laws.EncodeFits

/-- The encoder's value has no bit above the instruction's width, and read as the bits of an opcode-table row
of as many whole bytes it decodes to the instruction (30_encoding R87, R96, R99). -/
def Statement (i : Instr) : Prop :=
  i.wellFormed = true → encodeWord i < 2 ^ encodeWidth i ∧
    decodeTableWord (8 * ((encodeWidth i + 7) / 8)) (encodeWord i) = some i

theorem buildTree : Statement .buildTree := by unfold Statement; decide
theorem genCodes : Statement .genCodes := by unfold Statement; decide
theorem hdrEncode : Statement .hdrEncode := by unfold Statement; decide
theorem hdrDecode : Statement .hdrDecode := by unfold Statement; decide
theorem streamEncode : Statement .streamEncode := by unfold Statement; decide
theorem streamDecode : Statement .streamDecode := by unfold Statement; decide
theorem magicWrite : Statement .magicWrite := by unfold Statement; decide
theorem magicCheck : Statement .magicCheck := by unfold Statement; decide
theorem compress : Statement .compress := by unfold Statement; decide
theorem decompress : Statement .decompress := by unfold Statement; decide
theorem internal : Statement .internal := by unfold Statement; decide

theorem leaf (sym : Nat) : Statement (.leaf sym) := by
  intro h
  have hs : sym < 512 := by simpa [Instr.wellFormed] using h
  have e : encodeWord (.leaf sym) = 1 * 2 ^ 9 + sym := by
    show 0x200 + sym % 512 = _
    omega
  have eb : Machine.bitsOf 10 (1 * 2 ^ 9 + sym) = true :: (Machine.bitsOf 9 sym ++ []) := by
    rw [List.append_nil, ← Machine.bitsOf_add_mul 9 9 sym 1 le_rfl]
    show Nat.testBit (1 * 2 ^ 9 + sym) 9 :: _ = _
    have ht : Nat.testBit (1 * 2 ^ 9 + sym) 9 = true := by
      rw [Nat.testBit_eq_decide_div_mod_eq]
      simp only [decide_eq_true_eq]
      omega
    rw [ht]
  refine ⟨by rw [e]; show 1 * 2 ^ 9 + sym < 1024; omega, ?_⟩
  have e16 : 8 * ((encodeWidth (.leaf sym) + 7) / 8) = 16 := by simp [encodeWidth]
  rw [e16, e]
  have hw : tokenWindow 16 (1 * 2 ^ 9 + sym) = some (true :: (Machine.bitsOf 9 sym ++ [])) := by
    rw [← eb]
    exact if_pos (show 1 * 2 ^ 9 + sym < 2 ^ 10 by omega)
  simp only [decodeTableWord, hw, Option.bind_some, Machine.decode_leaf hs]
  rfl

end Sys2Proof.Laws.EncodeFits
end

