-- ==== Sys2Proof/Tests/Slice0.lean ====
section
/-! SUPPORT. The model's own tests. Expected values come from spec/95_test_vectors.md (V1.4, C2 and so on) and
from the encoding tables of spec/30_encoding.md. The theorems named witness_ show that the hypotheses of the
obligation of that name can be met, clause by clause, at the edges of their ranges. -/

namespace Sys2Proof.Tests

open Sys2Proof Sys2Proof.Machine
set_option Elab.async false

/-- The reset state, with the tables it leaves free at known values. -/
def start0 : State :=
  { State.reset with
    nodes := Vector.replicate 513 (.leaf 0)
    nodeW := Vector.replicate 513 0
    codes := emptyCodes }

/-- A FREQ table with these counts, 0 elsewhere. -/
def freqs : List (Nat × Nat) → Vector Word 256
  | [] => Vector.replicate 256 0
  | (i, v) :: rest => (freqs rest).setIfInBounds i (BitVec.ofNat 32 v)

/-- The error and the state a body ends with. -/
def ended : Body → Option (Option ErrKind × State)
  | .ok s => some (none, s)
  | .raised k _ s => some (some k, s)
  | .fault _ => none
  | .refused _ => none

/-- The state an instruction leads to. -/
def nextOf (o : Host.Outcome State Fault Refusal) : Option State :=
  match o with
  | .next s => some s
  | .fault _ => none
  | .refused _ => none

/-- The words of NODE[0..n-1]. -/
def nodeWords (n : Nat) (s : State) : List Word :=
  (s.nodes.toList.take n).map nodeWord

/-- Bits from a string of 0 and 1. -/
def bits (t : String) : List Bool :=
  t.toList.map fun c => c = '1'

/-- A state whose BIT_IN holds these bits. -/
def withBits (data : List Bool) (s : State) : State :=
  { s with bitIn := { data := data, pos := 0 } }

/-- The header of V3.1 and the body of V4.1. -/
def header31 : List Bool := bits "00100100001011000000001001000001"

def body41 : List Bool := bits "111111110001"

/-! WellFormed and Decode. -/

theorem test_wellFormed_leaf : (Instr.leaf 511).wellFormed = true ∧ (Instr.leaf 512).wellFormed = false := by
  decide

/-- 30_encoding R94, R96: OP in bits 3..0, RSVD in bits 31..4. -/
theorem test_decode_commands :
    decodeCmd 0b00000000000000000000000000000001#32 = .ok .buildTree ∧
    decodeCmd 0b00000000000000000000000000000010#32 = .ok .genCodes ∧
    decodeCmd 0b00000000000000000000000000000011#32 = .ok .hdrEncode ∧
    decodeCmd 0b00000000000000000000000000000100#32 = .ok .hdrDecode ∧
    decodeCmd 0b00000000000000000000000000000101#32 = .ok .streamEncode ∧
    decodeCmd 0b00000000000000000000000000000110#32 = .ok .streamDecode ∧
    decodeCmd 0b00000000000000000000000000000111#32 = .ok .magicWrite ∧
    decodeCmd 0b00000000000000000000000000001000#32 = .ok .magicCheck ∧
    decodeCmd 0b00000000000000000000000000001001#32 = .ok .compress ∧
    decodeCmd 0b00000000000000000000000000001010#32 = .ok .decompress := by
  decide +kernel

/-- V0.7 to V0.10. -/
theorem test_decode_illegal :
    decodeCmd 0x00000000#32 = .error .reservedOp ∧ decodeCmd 0x0000000B#32 = .error .reservedOp ∧
    decodeCmd 0x00000011#32 = .error .reservedBits ∧ decodeCmd 0x80000001#32 = .error .reservedBits := by
  decide +kernel

/-- 30_encoding R99: `0`, and `1` with nine symbol bits, most significant first. -/
theorem test_decode_tokens :
    decodeToken [false, true] = .ok (.internal, [true]) ∧
    decodeToken (bits "10010000010") = .ok (.leaf 0x41, [false]) ∧
    decodeToken (bits "1100000000") = .ok (.leaf 256, []) ∧
    decodeToken (bits "100100") = .error .cutSymbol ∧ decodeToken [] = .error .noTag := by
  decide +kernel

/-- Each constructor's word, decoded from its row's whole bytes and encoded again. -/
theorem test_encode_decode :
    (commands.all fun i => decide (decodeTableWord 32 (encodeWord i) = some i)) = true ∧
    decodeTableWord 8 0 = some .internal ∧ decodeTableWord 16 0x3FF = some (.leaf 511) ∧
    encodeBits .internal = [false] ∧ encodeBits (.leaf 0x42) = bits "1001000010" := by
  decide +kernel

/-- Every row's word runs as the first instruction after reset. -/
theorem test_withFetchWord :
    (State.reset.withFetchWord 32 0x7).host = [.write 0 4 0x7] ∧
    step (State.reset.withFetchWord 32 0x7)
      = exec .magicWrite { State.reset with cmd := 0x7 } ∧
    (State.reset.withFetchWord 16 0x300).bitIn.data = bits "1100000000" :=
  ⟨rfl, rfl, by decide +kernel⟩

/-! BUILD_TREE. -/

/-- V1.4. -/
theorem test_buildTree_ties :
    (ended (buildTreeBody 32 { start0 with freq := freqs [(0x41, 1), (0x42, 2), (0x43, 3)] })).map
      (fun e => (nodeWords 7 e.2, e.2.nodeW.toList.take 7, e.2.root, e.2.nodeCount))
    = some ([0x80000041, 0x80000042, 0x80000043, 0x80000100, 0x00030000, 0x00040001, 0x00050002],
        [1, 2, 3, 1, 2, 4, 7], 6, 7) := by
  decide +kernel

/-- V1.10 and V1.11: the weight bound at its edge and beyond it. -/
theorem test_buildTree_bound :
    withinWeightBound 4 (freqs [(0x41, 14)]) = true ∧
    buildTreeBody 4 { start0 with freq := freqs [(0x41, 14), (0x42, 1)] } = .refused .weightBound := by
  decide +kernel

/-! GEN_CODES. -/

/-- A state with the decoded tree of a header. -/
def decoded (data : List Bool) : State :=
  (nextOf (exec .hdrDecode (withBits data start0))).getD start0

/-- The state with the code table of the decoded tree of V3.4. -/
def coded34 : State :=
  (nextOf (exec .genCodes (decoded header31))).getD start0

/-- V2.1 (by V3.4): 0x41 = `1`, 0x42 = `00`, EOS = `01`. -/
theorem test_genCodes_words :
    [0x41, 0x42, 256, 0x43].map (fun sym => readReg (.codeLen sym) coded34)
      = [0x80000001, 0x80000002, 0x80000002, 0] ∧
    [0x41, 0x42, 256].map (fun sym => readReg (.codeVal sym 0) coded34) = [1, 0, 1] ∧
    coded34.status.word = 0x1A := by
  decide +kernel

/-- V2.11: two leaves hold 0x41; the last one in preorder counts, and EOS has no code. -/
theorem test_genCodes_repeated :
    (nextOf (exec .genCodes (decoded (bits "010010000011001000001")))).map
      (fun s => (readReg (.codeLen 0x41) s, readReg (.codeVal 0x41 0) s, readReg (.codeLen 256) s))
    = some (0x80000001, 1, 0) := by
  decide +kernel

/-! HDR_ENCODE and HDR_DECODE. -/

/-- V3.1 (by V3.4) and V0.11. -/
theorem test_hdrEncode :
    (nextOf (exec .hdrEncode (decoded header31))).map (fun s => (s.bitOut, s.status.word))
      = some (header31, 0x0A) ∧
    (nextOf (exec .hdrEncode start0)).map (fun s => (s.bitOut, s.status.word, s.errWord, s.errInfoWord))
      = some ([], 0x04, 0x106, 0x3) := by
  decide +kernel

/-- V3.4 and V3.12. -/
theorem test_hdrDecode :
    (nextOf (exec .hdrDecode (withBits (header31 ++ bits "111") start0))).map
      (fun s => (nodeWords 5 s, s.root, s.nodeCount, s.bitIn.pos, s.status.word))
    = some ([0x00040001, 0x00030002, 0x80000042, 0x80000100, 0x80000041], 0, 5, 32, 0x0A) := by
  decide +kernel

/-- V3.5 and V3.6: cut headers. -/
theorem test_hdrDecode_cut :
    [header31.take 31, [], bits "100100"].map (fun data =>
      (nextOf (exec .hdrDecode (withBits data start0))).map fun s => (s.bitIn.pos, s.errWord, s.status.word))
    = [some (23, 0x002, 0x04), some (0, 0x002, 0x04), some (1, 0x002, 0x04)] := by
  decide +kernel

/-! STREAM_ENCODE and STREAM_DECODE. -/

/-- V4.3: a byte without a code. -/
theorem test_streamEncode_gap :
    (nextOf (exec .streamEncode { coded34 with symIn := { data := [0x41, 0x43], pos := 0 } })).map
      (fun s => (s.bitOut, s.symIn.pos, s.errWord, s.errInfoWord, s.status.word))
    = some ([true], 2, 0x104, 0x43, 0x1C) := by
  decide +kernel

/-- V4.1 and V4.4: a whole input, and one that is not rewound. -/
theorem test_streamEncode :
    [0, 9].map (fun pos => (nextOf (exec .streamEncode { coded34 with
      symIn := { data := List.replicate 8 0x41 ++ [0x42], pos := pos } })).map
        fun s => (s.bitOut, s.symIn.pos, s.status.word))
    = [some (body41, 9, 0x1A), some (bits "01", 9, 0x1A)] := by
  decide +kernel

/-- V5.1 to V5.3: a body, a body without EOS, and bits after a body. -/
theorem test_streamDecode :
    [body41, body41.take 10, body41 ++ bits "1010"].map (fun data =>
      (nextOf (exec .streamDecode (withBits data (decoded header31)))).map
        fun s => (s.symOut, s.bitIn.pos, s.cur, s.errWord, s.status.word))
    = [some (List.replicate 8 0x41 ++ [0x42], 12, 3, 0, 0x0A),
       some (List.replicate 8 0x41 ++ [0x42], 10, 0, 0x003, 0x0C),
       some (List.replicate 8 0x41 ++ [0x42], 12, 3, 0, 0x0A)] := by
  decide +kernel

/-- V5.7 and V5.8: a leaf root, and a leaf symbol above 256. -/
theorem test_streamDecode_odd :
    (nextOf (exec .streamDecode (withBits (bits "0101") (decoded (bits "1001000001"))))).map
      (fun s => (s.symOut, s.errWord, s.cur)) = some ([0x41, 0x41, 0x41, 0x41], 0x003, 0) ∧
    (nextOf (exec .streamDecode (withBits (bits "010011") (decoded (bits "01101000001010010000011100000000"))))).map
      (fun s => (s.symOut, s.errWord, s.cur)) = some ([0x41, 0x41, 0x41], 0, 4) := by
  decide +kernel

/-! MAGIC_WRITE and MAGIC_CHECK, with the example MAGIC of 00_scope R8. -/

/-- V6.1. -/
theorem test_magicWrite :
    (ended (magicWriteBody 0x48554646 start0)).map (fun e => e.2.bitOut)
    = some (bits "01001000010101010100011001000110") := by
  decide +kernel

/-- V6.2 to V6.5. -/
theorem test_magicCheck :
    (ended (magicCheckBody 0x48554646 (withBits (bits "010010000101010101000110010001101") start0))).map
      (fun e => (e.1, e.2.bitIn.pos)) = some (none, 32) ∧
    runCommand (magicCheckBody 0x48554646) (withBits (bitsOf 32 0xDEADBEEF) start0)
      = .next (((withBits (bitsOf 32 0xDEADBEEF) start0).pastBits 32).abort .badMagicHeader (some 0xDEADBEEF)) ∧
    (ended (magicCheckBody 0x48554646 (withBits (List.replicate 20 true) start0))).map
      (fun e => (e.1, e.2.bitIn.pos)) = some (some .badMagicHeader, 0) ∧
    (ended (magicCheckBody 0xDEADBEEF (withBits (bitsOf 32 0xDEADBEEF) start0))).map
      (fun e => (e.1, e.2.bitIn.pos)) = some (none, 32) := by
  refine ⟨by decide +kernel, rfl, by decide +kernel, by decide +kernel⟩

/-! COMPRESS and DECOMPRESS. -/

/-- The bytes of "AAAAAAAAB". -/
def text2 : List Byte := List.replicate 8 0x41 ++ [0x42]

/-- FREQ of "AAAAAAAAB", and these bytes in SYM_IN. -/
def presented (bytes : List Byte) : State :=
  { start0 with freq := freqs [(0x41, 8), (0x42, 1)], symIn := { data := bytes, pos := 0 } }

/-- C2. -/
theorem test_compress :
    (ended (compressBody 32 0x48554646 (presented text2))).map
      (fun e => (e.1, packBits e.2.bitOut, e.2.bitOut.length, e.2.symIn.pos))
    = some (none, [0x48, 0x55, 0x46, 0x46, 0x24, 0x2C, 0x02, 0x41, 0xFF, 0x10], 76, 9) := by
  decide +kernel

/-- V7.1. -/
theorem test_compress_gap :
    (ended (compressBody 32 0x48554646 (presented [0x41, 0x41, 0x43]))).map
      (fun e => (e.1, e.2.bitOut, e.2.symIn.pos))
    = some (some .internalEncodingGap, bitsOf 32 0x48554646 ++ header31 ++ bits "11", 3) := by
  decide +kernel

/-- V7.4. -/
theorem test_decompress :
    (ended (decompressBody 0x48554646 (withBits (unpackBytes
        [0x48, 0x55, 0x46, 0x46, 0x24, 0x2C, 0x02, 0x41, 0xFF, 0x10]) start0))).map
      (fun e => (e.1, e.2.symOut, e.2.bitIn.pos, e.2.cur, e.2.root, e.2.nodeCount))
    = some (none, text2, 76, 3, 0, 5) := by
  decide +kernel

/-- V7.6 to V7.8. -/
theorem test_decompress_errors :
    [bitsOf 32 0xDEADBEEF ++ header31 ++ body41, bitsOf 32 0x48554646 ++ header31,
      bitsOf 32 0x48554646 ++ header31.take 20].map (fun data =>
        (ended (decompressBody 0x48554646 (withBits data start0))).map
          fun e => (e.1, e.2.bitIn.pos, e.2.symOut))
    = [some (some .badMagicHeader, 32, []), some (some .truncatedStream, 64, []),
       some (some .malformedHeader, 45, [])] := by
  decide +kernel

/-! The header tokens. -/

/-- A header decode with this many nodes allocated and these pending nodes. -/
def decoding (alloc : Nat) (stack : List Frame) : State :=
  { start0 with
    status := { start0.status with busy := true }
    work := some { alloc := alloc, stack := stack } }

/-- 42_header_codec R145: an internal node waits for its left subtree. -/
theorem test_internal :
    (nextOf (exec .internal (decoding 0 []))).map (fun s => (s.work, s.status.word))
      = some (some { alloc := 1, stack := [.needLeft 0] }, 0x01) ∧
    exec .internal start0 = .refused .noHeaderDecode := by
  refine ⟨by decide +kernel, rfl⟩

/-- 42_header_codec R145: the last leaf of V3.8 completes the root. -/
theorem test_leaf :
    (nextOf (exec (.leaf 0x41) (decoding 2 [.needRight 0 1]))).map
      (fun s => (s.work, s.status.word, s.root, s.nodeCount, nodeWord s.nodes[(0 : NodeIdx)], nodeWord s.nodes[(2 : NodeIdx)]))
      = some (none, 0x0A, 0, 3, 0x00020001, 0x80000041) := by
  decide +kernel

/-- V3.10, V3.11: with 513 nodes allocated a token is CapacityExceeded, once its tag is read. -/
theorem test_capacity :
    (nextOf (step (withBits [true] (decoding 513 [.needLeft 512])))).map
      (fun s => (s.bitIn.pos, s.errWord, s.work)) = some (1, 0x007, none) ∧
    (nextOf (step (withBits [] (decoding 513 [.needLeft 512])))).map
      (fun s => (s.bitIn.pos, s.errWord)) = some (0, 0x002) := by
  decide +kernel

/-! The host's side. -/

/-- The idle core with one pending host action. -/
def facing (op : HostOp) : State :=
  { start0 with host := [op] }

/-- V0.1, V0.4: FREQ[256] reads 1 whatever is written to it. -/
theorem test_freq_eos :
    step (facing (.write 0x0800 4 5)) = .next start0 ∧ readReg (.freq 256) start0 = 1 :=
  ⟨rfl, rfl⟩

/-- V0.5: a count keeps WEIGHT_W bits. -/
theorem test_freq_width : readReg (.freq 0) (start0.writeFreq 4 0 0x13) = 0x3 := by
  decide +kernel

/-- V0.2. -/
theorem test_param : paramWord 32 = 0x19020120 := by decide +kernel

/-- V0.6. -/
theorem test_refused :
    [(0x0006, 2), (0x0005, 4), (0x0024, 4)].map (fun a => memRead (BitVec.ofNat 16 a.1) a.2 start0)
      = [.error .accessSize, .error .misaligned, .error .unmapped] ∧
    step (facing (.write 0x0010 4 1)) = .refused .readOnly := by
  refine ⟨by decide +kernel, rfl⟩

/-- V0.7. -/
theorem test_illegal :
    (nextOf (step (facing (.write 0 4 0)))).map (fun s => (s.status.word, s.errWord, s.errInfoWord, s.cmd))
    = some (0x04, 0x105, 0, 0) := by
  decide +kernel

/-! Witnesses. -/

/-- The tree Internal(Leaf(0x41), Leaf(256)). -/
def pair : Tree := .node (.leaf 0x41) (.leaf 256)

/-- A left comb with `n + 1` leaves, all of symbol 5. -/
def comb : Nat → Tree
  | 0 => .leaf 5
  | n + 1 => .node (comb n) (.leaf 5)

theorem comb_leafCount (n : Nat) : (comb n).leafCount = n + 1 := by
  induction n with
  | zero => rfl
  | succ n ih => rw [comb, Tree.leafCount, ih]; rfl

/-- The state with a valid tree `t`, stored in preorder. -/
def holding (t : Tree) : State :=
  { start0 with
    nodes := putNodes start0.nodes 0 (t.preorder 0)
    nodeCount := Fin.ofNat 514 t.size
    status := { start0.status with treeValid := true } }

theorem holding_tree {t : Tree} (h : t.leafCount ≤ 257) :
    IsTreeAt (holding t).nodes (holding t).root t (List.range' 0 t.size) := by
  have hs := size_eq t
  have hp := leafCount_pos t
  have e := preorderAt_putNodes start0.nodes (t := t) (n := 0) (by omega)
  rw [Nat.zero_add] at e
  exact isTreeAt_of_preorderAt e (by omega)

/-- The state with a valid tree and the code table of it. -/
def coded (t : Tree) : State :=
  { holding t with codes := t.codeTable, status := { start0.status with treeValid := true, codesValid := true } }

theorem weightW_pos : 2 ≤ 2 ^ Config.weightW := by
  have e : Config.weightW = Config.weightIndex.val + 1 := rfl
  have h := Nat.two_pow_pos Config.weightIndex.val
  rw [e, pow_succ]
  omega

/-- The all-zero table, entry by entry. -/
theorem zeros_get {n : Nat} (i : Fin n) : (Vector.replicate n (0 : Word))[i] = 0 := by
  show (Vector.replicate n (0 : Word))[i.val] = 0
  simp

/-- The sum of a table of equal counts. -/
theorem sum_replicate (n : Nat) (w : Word) :
    ((Vector.replicate n w).toList.map BitVec.toNat).sum = n * w.toNat := by
  rw [Vector.toList_replicate, List.map_replicate, List.sum_replicate, smul_eq_mul]

/-- The all-zero table is within the bound for every WEIGHT_W. -/
theorem zero_bound {s : State} (h : s.freq = Vector.replicate 256 0) : s.WeightBound := by
  have := weightW_pos
  have e : ((Vector.replicate 256 (0 : Word)).toList.map BitVec.toNat).sum = 0 := sum_replicate 256 0
  rw [State.WeightBound, h, e]
  generalize 2 ^ Config.weightW = x at *
  omega

/-- FREQ with one counted byte. -/
def oneByte : State := { start0 with freq := freqs [(0x41, 1)], symIn := { data := [0x41], pos := 0 } }

/-- It is within the bound of every WEIGHT_W but 1, for which no byte can be counted. -/
theorem oneByte_bound (h : 2 ≤ Config.weightW) : oneByte.WeightBound := by
  have e : (oneByte.freq.toList.map BitVec.toNat).sum = 1 := by decide +kernel
  have h4 : 2 ^ 2 ≤ 2 ^ Config.weightW := Nat.pow_le_pow_right (by omega) h
  rw [State.WeightBound, e]
  generalize 2 ^ Config.weightW = x at *
  omega

theorem oneByte_counted : oneByte.counted = [0x41, 256] := by decide +kernel

theorem witness_BitSequences : 511 < 2 ^ 9 ∧ 0 < 2 ^ 0 ∧ 0 < 9 ∧ 8 < 9 := by decide

theorem witness_PackingRule : 8 < (List.replicate 9 true).length ∧ 7 < 8 := by decide

/-- The last two bits, one too many, the last byte, and none left. -/
theorem witness_ChannelPrimitives :
    let s : State := { start0 with bitIn := { data := [true, false, true], pos := 1 }, symIn := { data := [7], pos := 0 } };
    s.bitIn.pos + 2 ≤ s.bitIn.data.length ∧ s.bitIn.data.length < s.bitIn.pos + 3 ∧
    s.symIn.pos < s.symIn.data.length ∧ start0.symIn.data.length ≤ start0.symIn.pos := by
  decide +kernel

theorem witness_EncodeDecode : (Instr.leaf 511).wellFormed = true ∧ Instr.leaf 511 ∉ commands ∧
    Instr.internal ∉ commands ∧ Instr.decompress ∈ commands := by
  decide

/-- The largest tree the node store holds. -/
theorem witness_HeaderSelfDelimiting : (comb 256).leafCount ≤ 257 ∧
    pair.header ++ [true] = pair.header ++ [true] :=
  ⟨by rw [comb_leafCount], rfl⟩

/-- One state for each clause. -/
theorem witness_RegisterAccess :
    (∃ r, regAt 0x6010 = some r ∧ (0x6010 : Addr).toNat % 4 = 0 ∧ (facing (.read 0x6010 4)).host = [.read 0x6010 4] ∧
      (facing (.read 0x6010 4)).work = none ∧ (facing (.read 0x6010 4)).status.busy = false) ∧
    regAt 0x6020 = none ∧ regAt 0x0024 = none ∧
    (∃ r, regAt 0x0010 = some r ∧ r ≠ .cmd ∧ ∀ sym, r ≠ .freq sym) ∧
    (let s : State := { facing (.read 0x0004 4) with status := { start0.status with busy := true } };
      s.work = none ∧ s.status.busy = true ∧ s.host = [.read 0x0004 4]) ∧
    (HostOp.rewindSym ≠ .read 0x0004 4 ∧ HostOp.rewindSym ≠ .reset) := by
  refine ⟨⟨_, rfl, rfl, rfl, rfl, rfl⟩, rfl, rfl, ⟨.root, rfl, by simp, by simp⟩, ⟨rfl, rfl, rfl⟩, by simp, by simp⟩

/-- ERR_INFO with and without a value. -/
theorem witness_ControlWords : start0.errInfo = none ∧ (start0.abort .sequenceError (some 5)).errInfo = some 5 :=
  ⟨rfl, rfl⟩

/-- The root and the last leaf of a tree. -/
theorem witness_NodeWords : (holding pair).status.treeValid = true ∧
    (0 : NodeIdx).val < (holding pair).nodeCount.val ∧ (2 : NodeIdx).val < (holding pair).nodeCount.val ∧
    (holding pair).nodes[(0 : NodeIdx)] = .internal 1 2 ∧ (holding pair).nodes[(2 : NodeIdx)] = .leaf 256 := by
  decide +kernel

/-- The last byte, and EOS. -/
theorem witness_FreqWrites :
    (∀ sym ∈ [(255 : Fin 257), 256], ∃ s : State, s.work = none ∧ s.status.busy = false ∧
      s.host = .write (BitVec.ofNat 16 (0x0400 + 4 * sym.val)) 4 7 :: []) ∧
    (255 : Fin 257).val < 256 ∧ (256 : Fin 257).val = 256 ∧ (0 : Fin 257) ≠ 255 :=
  ⟨fun sym _ => ⟨facing (.write (BitVec.ofNat 16 (0x0400 + 4 * sym.val)) 4 7), rfl, rfl, rfl⟩, by decide⟩

/-- No tree, and the first index past a valid one; a drawn word is a leaf's or an internal node's. -/
theorem witness_MeaninglessReads : start0.status.treeValid = false ∧
    ((holding pair).status.treeValid = true ∧ (holding pair).nodeCount.val ≤ (3 : NodeIdx).val) ∧
    ((readReg (.node 512) start0).getLsbD 31 = true ∨ (readReg (.node 512) start0).getLsbD 31 = false) :=
  ⟨rfl, by decide +kernel, by cases (readReg (.node 512) start0).getLsbD 31 <;> simp⟩

theorem witness_StepRunsTheWrittenCommand :
    (let s := facing (.write 0x0000 4 0x7);
      s.work = none ∧ s.status.busy = false ∧ s.host = [.write 0x0000 4 0x7] ∧
        decodeCmd 0x7 = .ok .magicWrite ∧ ∃ t, step s = .next t) ∧
    (let s : State := { facing (.write 0x0000 4 0x7) with status := { start0.status with busy := true } };
      s.work = none ∧ s.status.busy = true ∧ s.host = [.write 0x0000 4 0x7]) :=
  ⟨⟨rfl, rfl, rfl, rfl, _, rfl⟩, rfl, rfl, rfl⟩

/-- The last node's token, no bit, a symbol one bit short, and a full node store. -/
theorem witness_StepRunsTheFetchedToken :
    ((decoding 512 []).work = some { alloc := 512, stack := [] } ∧ 512 < 513 ∧ (Instr.leaf 511).wellFormed = true ∧
      Instr.leaf 511 ∉ commands ∧ (withBits (bits "1111111111") (decoding 512 [])).bitIn.rest
        = encodeBits (.leaf 511) ++ []) ∧
    (withBits [] (decoding 512 [])).bitIn.rest = [] ∧
    (withBits (bits "100000000") (decoding 512 [])).bitIn.rest = true :: bits "00000000" ∧
    (bits "00000000").length < 9 ∧
    513 ≤ 513 ∧ (withBits [false] (decoding 513 [])).bitIn.rest ≠ [] := by
  decide +kernel

theorem witness_IllegalCommandWords :
    (let s := facing (.write 0x0000 4 0x10);
      s.work = none ∧ s.status.busy = false ∧ s.host = [.write 0x0000 4 0x10]) ∧
    (0x10 : Word).toNat / 16 ≠ 0 ∧ (0xB : Word).toNat % 16 ∈ [0x0, 0xB, 0xC, 0xD, 0xE, 0xF] ∧
    (0xFFFFFFFF : Word).toNat / 16 ≠ 0 :=
  ⟨⟨rfl, rfl, rfl⟩, by decide +kernel⟩

theorem witness_HostActions :
    (∀ op : HostOp, (facing op).work = none ∧ (facing op).status.busy = false ∧ (facing op).host = [op]) ∧
    start0.host = [] :=
  ⟨fun _ => ⟨rfl, rfl, rfl⟩, rfl⟩

theorem witness_ResetInput : (facing .reset).work = none ∧ (facing .reset).host = [.reset] := ⟨rfl, rfl⟩

/-- A command that ends well and one that ends in an error. -/
theorem witness_CommandsEnd : Instr.magicWrite ∈ commands ∧ Instr.genCodes ∈ commands ∧
    (∃ t, exec .magicWrite start0 = .next t ∧ t.err = none) ∧
    ∃ t, exec .genCodes start0 = .next t ∧ t.err = some .sequenceError :=
  ⟨by decide, by decide, ⟨_, rfl, rfl⟩, _, rfl, rfl⟩

/-- A state without a tree, one without a code table, and one with both. -/
theorem witness_SequenceErrors :
    (start0.work = none ∧ start0.status.busy = false ∧ start0.status.treeValid = false ∧
      start0.status.codesValid = false) ∧
    (∃ t, exec .magicWrite start0 = .next t) ∧
    ∃ t, exec .magicWrite (coded pair) = .next t ∧ t.status.codesValid = true ∧
      ((coded pair).status.codesValid = true → (coded pair).status.treeValid = true) :=
  ⟨⟨rfl, rfl, rfl, rfl⟩, ⟨_, rfl⟩, _, rfl, rfl, fun _ => rfl⟩

/-- An end of each kind but CapacityExceeded and IllegalCommand, which test_capacity and test_illegal show. -/
theorem witness_ErrorKinds :
    (nextOf (exec .hdrDecode start0)).map State.err = some (some .malformedHeader) ∧
    (nextOf (exec .streamDecode (holding pair))).map State.err = some (some .truncatedStream) ∧
    (nextOf (exec .streamEncode { coded (.leaf 0) with symIn := { data := [9], pos := 0 } })).map State.err
      = some (some .internalEncodingGap) ∧
    (nextOf (exec .genCodes start0)).map State.err = some (some .sequenceError) ∧
    (nextOf (exec .magicCheck start0)).map State.err = some (some .badMagicHeader) := by
  decide +kernel

theorem witness_ChannelDiscipline : ∃ t, exec .internal (decoding 0 []) = .next t := ⟨_, rfl⟩

/-- BUILD_TREE of the all-zero table: the bound holds, it answers a next state, EOS is counted, and node 0
lies below NODE_COUNT. -/
theorem witness_BuildTree : start0.WeightBound ∧ start0.count 256 ≠ 0 ∧
    ∃ t, exec .buildTree start0 = .next t ∧ (0 : NodeIdx).val < t.nodeCount.val ∧ t.nodeCount.val ≤ (512 : NodeIdx).val := by
  have hb : start0.WeightBound := zero_bound rfl
  refine ⟨hb, by decide +kernel, _, exec_buildTree hb, ?_⟩
  decide +kernel

/-- Two leaves and one merge, for every WEIGHT_W but 1: the premises on symbols, on internal nodes and on
merges are met. -/
theorem witness_BuildTree_merge (h : 2 ≤ Config.weightW) :
    oneByte.count 0x41 ≠ 0 ∧ (0x41 : Fin 257) < 256 ∧ oneByte.counted.length ≤ (2 : NodeIdx).val ∧
    ∃ t, exec .buildTree oneByte = .next t ∧ (2 : NodeIdx).val < t.nodeCount.val ∧
      t.nodes[(2 : NodeIdx)] = .internal 0 1 ∧ (1 : NodeIdx) ≠ t.root := by
  refine ⟨by decide +kernel, by decide, by rw [oneByte_counted]; decide, _, exec_buildTree (oneByte_bound h), ?_⟩
  decide +kernel

/-- The same body with WEIGHT_W = 2, the least width with a merge. -/
theorem witness_BuildTree_width2 :
    (ended (buildTreeBody 2 oneByte)).map (fun e => (nodeWords 3 e.2, e.2.root, e.2.nodeCount))
      = some ([0x80000041, 0x80000100, 0x00010000], 2, 3) := by
  decide +kernel

/-- FREQ with one count is 0 elsewhere. -/
theorem freqs_other {x y : Fin 256} {n : Nat} (h : y ≠ x) : (freqs [(x.val, n)])[y] = 0 := by
  show ((Vector.replicate 256 (0 : Word)).setIfInBounds x.val (BitVec.ofNat 32 n))[y.val] = 0
  rw [Vector.getElem_setIfInBounds]
  · rw [if_neg fun e => h (Fin.ext e.symm)]
    simp

/-- A table that every WEIGHT_W refuses, and an input that every WEIGHT_W takes. -/
theorem witness_WeightBoundRule :
    (¬ ({ start0 with freq := Vector.replicate 256 0xFFFFFFFF } : State).WeightBound) ∧
    start0.WeightBound ∧
    (∀ i : Fin 256, start0.freq[i].toNat = histogram [] (BitVec.ofNat 8 i.val)) := by
  have e : ((Vector.replicate 256 (0xFFFFFFFF : Word)).toList.map BitVec.toNat).sum = 256 * (2 ^ 32 - 1) :=
    sum_replicate 256 0xFFFFFFFF
  have hw : Config.weightW ≤ 32 := Config.weightIndex.isLt
  have h32 : 2 ^ Config.weightW ≤ 2 ^ 32 := Nat.pow_le_pow_right (by omega) hw
  refine ⟨?_, zero_bound rfl, fun i => congrArg BitVec.toNat (zeros_get i)⟩
  rw [State.WeightBound]
  simp only [e]
  generalize 2 ^ Config.weightW = x at *
  omega

/-- One byte counted once and twice, at the edge of WEIGHT_W = 2 for the second, and none at WEIGHT_W = 1. -/
theorem witness_SmallTrees :
    (∀ x : Fin 256, start0.freq[x] = 0) ∧
    (∀ n ∈ [1, 2], (freqs [(0x41, n)])[(0x41 : Fin 256)].toNat = n ∧
      (∀ y : Fin 256, y ≠ 0x41 → (freqs [(0x41, n)])[y] = 0) ∧ n + 1 ≤ 2 ^ 2 - 1) :=
  ⟨fun x => zeros_get x, fun n hn => ⟨by revert n; decide +kernel, fun y hy => freqs_other (x := 0x41) hy, by revert n; decide⟩⟩

/-- Two states with the same FREQ and the same bytes in SYM_IN. -/
theorem witness_Determinism : start0.freq = (holding pair).freq ∧ start0.symIn.rest = (holding pair).symIn.rest ∧
    (∃ t, exec .buildTree start0 = .next t) ∧ ∃ t, exec .buildTree (holding pair) = .next t :=
  ⟨rfl, rfl, ⟨_, exec_buildTree (zero_bound rfl)⟩, _, exec_buildTree (zero_bound rfl)⟩

/-- The largest tree and the smallest, for GEN_CODES and HDR_ENCODE. -/
theorem witness_trees : ∀ t ∈ [comb 256, Tree.leaf 256], (holding t).status.treeValid = true ∧
    t.leafCount ≤ 257 ∧ IsTreeAt (holding t).nodes (holding t).root t (List.range' 0 t.size) := by
  intro t ht
  have hl : t.leafCount ≤ 257 := by
    simp only [List.mem_cons, List.not_mem_nil, or_false] at ht
    rcases ht with rfl | rfl
    · rw [comb_leafCount]
    · decide
  exact ⟨rfl, hl, holding_tree hl⟩

theorem witness_GenCodesResult : lastCode pair.codePaths 256 = some [true] ∧ lastCode pair.codePaths 0x42 = none := by
  decide +kernel

/-- Two symbols with codes. -/
theorem witness_CodesPrefixFree :
    (nextOf (exec .genCodes (holding pair))).map (fun u => (u.codes.codeOf 0x41, u.codes.codeOf 256))
      = some (some [false], some [true]) ∧
    ∃ t, exec .buildTree start0 = .next t ∧ (nextOf (exec .genCodes t)).isSome = true := by
  refine ⟨by decide +kernel, _, exec_buildTree (zero_bound rfl), by decide +kernel⟩

/-- A whole header, with and without bits after it. -/
theorem witness_HdrDecodeRebuilds : (withBits ((comb 256).header ++ [true]) start0).bitIn.rest
    = (comb 256).header ++ [true] ∧ (comb 256).leafCount ≤ 257 ∧
    (withBits pair.header start0).bitIn.rest = pair.header ++ [] :=
  ⟨rfl, by rw [comb_leafCount], by decide⟩

/-- A header without its last bit, no bit at all, and a header of 258 leaves. -/
theorem witness_HdrDecodeAborts :
    ((withBits (pair.header.take 20) start0).bitIn.rest ++ [false] = pair.header ∧ pair.leafCount ≤ 257) ∧
    (withBits [] start0).bitIn.rest ++ pair.header = pair.header ∧ pair.header ≠ [] ∧
    (withBits (comb 257).header start0).bitIn.rest = (comb 257).header ++ [] ∧ 257 < (comb 257).leafCount :=
  ⟨by decide +kernel, rfl, by decide, (List.append_nil _).symm, by rw [comb_leafCount]; decide⟩

theorem witness_HeaderSelfConsistency : ∃ u, exec .hdrEncode (holding pair) = .next u ∧
    u.bitOut = (holding pair).bitOut ++ pair.header ∧
    (withBits (pair.header ++ [true]) start0).bitIn.rest = pair.header ++ [true] :=
  ⟨_, exec_hdrEncode rfl (tree_of_isTreeAt (holding_tree (by decide)) (by decide)), rfl, rfl⟩

/-- The last free entry, a full node store, and no header decode. -/
theorem witness_InternalToken : (decoding 512 []).work = some { alloc := 512, stack := [] } ∧ 512 < 513 ∧
    (decoding 513 []).work = some { alloc := 513, stack := [] } ∧ 513 ≤ 513 ∧ start0.work = none :=
  ⟨rfl, by decide, rfl, le_rfl, rfl⟩

/-- The same, with each shape of pending nodes. -/
theorem witness_LeafToken : 511 < 512 ∧
    (∀ stack ∈ [[], [Frame.needLeft 511], [.needRight 1 2, .needLeft 0]],
      (decoding 512 stack).work = some { alloc := 512, stack := stack } ∧
      (decoding 513 stack).work = some { alloc := 513, stack := stack }) ∧
    waitingRight [] = [] ∧ waitingRight [(0, 1)] = [.needRight 0 1] ∧
    waitingRight [(3, 4), (1, 2)] ++ [.needLeft 0] = [.needRight 3 4, .needRight 1 2, .needLeft 0] :=
  ⟨by decide, fun _ _ => ⟨rfl, rfl⟩, rfl, rfl, rfl⟩

/-- The leaf of index 5 completes the nodes 3 and 1, each the right child of the one after it (42_header_codec
R145). -/
theorem test_leaf_completes (nodes : Vector Node 513) :
    closedTop [(3, 4), (1, 2)] 5 = 1 ∧
    closedNodes [(3, 4), (1, 2)] 5 nodes = (nodes.set 3 (.internal 4 5)).set 1 (.internal 2 3) :=
  ⟨rfl, rfl⟩

/-- An input with a code for every byte, and an empty one. -/
theorem witness_StreamEncodeResult :
    (let s : State := { coded pair with symIn := { data := [0x41], pos := 0 } };
      s.status.codesValid = true ∧ s.codes.bodyOf (s.symIn.rest.map byteSym ++ [256]) = some [false, true]) ∧
    (coded pair).codes.bodyOf ((coded pair).symIn.rest.map byteSym ++ [256]) = some [true] := by
  decide +kernel

/-- A byte without a code after one with a code, and a table without a code for EOS. -/
theorem witness_StreamEncodeGap :
    (let s : State := { coded pair with symIn := { data := [0x41, 0x43, 0x41], pos := 0 } };
      s.status.codesValid = true ∧ s.symIn.rest = [0x41] ++ 0x43 :: [0x41] ∧
      s.codes.bodyOf ([0x41].map byteSym) = some [false] ∧ s.codes.codeOf (byteSym 0x43) = none) ∧
    (coded (.leaf 0x41)).status.codesValid = true ∧
    (coded (.leaf 0x41)).codes.bodyOf ((coded (.leaf 0x41)).symIn.rest.map byteSym) = some [] ∧
    (coded (.leaf 0x41)).codes.codeOf 256 = none := by
  decide +kernel

theorem witness_StreamDecodeResult :
    (holding pair).status.treeValid = true ∧
    IsTreeAt (holding pair).nodes (holding pair).root pair (List.range' 0 pair.size) ∧
    ((0x41, [false]) ∈ pair.codePaths ∧ (0x41 : Sym) ≠ 256) ∧ (256, [true]) ∈ pair.codePaths ∧
    (withBits [false, true, false] (holding pair)).bitIn.rest
      = [((0x41 : Sym), [false])].flatMap Prod.snd ++ [true] ++ [false] :=
  ⟨rfl, holding_tree (by decide), by decide, by decide, rfl⟩

/-- A body cut between two codes, and inside one; a path goes on below no leaf. -/
theorem witness_StreamDecodeOutcomes_cut :
    let t : Tree := .node (.leaf 0x41) (.node (.leaf 0x42) (.leaf 256));
    (holding t).status.treeValid = true ∧ IsTreeAt (holding t).nodes (holding t).root t (List.range' 0 t.size) ∧
    ((0x42, [true, false]) ∈ t.codePaths ∧ (0x42 : Sym) ≠ 256) ∧
    nodeAtPath (holding t).nodes (holding t).root [] = some 0 ∧
    nodeAtPath (holding t).nodes (holding t).root [true] = some 2 ∧ (holding t).nodes[(2 : NodeIdx)].isLeaf = false ∧
    nodeAtPath (holding t).nodes (holding t).root [false, true] = none ∧
    (withBits [true, false, true] (holding t)).bitIn.rest
      = [((0x42 : Sym), [true, false])].flatMap Prod.snd ++ [true] :=
  ⟨rfl, holding_tree (by decide), by decide, rfl, by decide +kernel, by decide +kernel, by decide +kernel, rfl⟩

/-- A tree with an EOS leaf and one without; BIT_IN read to its end. -/
theorem witness_StreamDecodeOutcomes :
    (∀ t ∈ [pair, Tree.leaf 0x41], (holding t).status.treeValid = true ∧ (holding t).work = none ∧
      (holding t).bitIn.pos ≤ (holding t).bitIn.data.length ∧
      IsTreeAt (holding t).nodes (holding t).root t (List.range' 0 t.size)) ∧
    ∀ e ∈ (Tree.leaf 0x41).paths, e.1 ≠ 256 := by
  refine ⟨fun t ht => ⟨rfl, rfl, le_rfl, holding_tree ?_⟩, by decide⟩
  simp only [List.mem_cons, List.not_mem_nil, or_false] at ht
  rcases ht with rfl | rfl <;> decide

theorem witness_LeafRootDecode : ∀ sym ∈ [(256 : Sym), 0x41],
    (withBits [true] (holding (.leaf sym))).status.treeValid = true ∧
    (withBits [true] (holding (.leaf sym))).nodes[(withBits [true] (holding (.leaf sym))).root] = .leaf sym ∧
    (withBits [true] (holding (.leaf sym))).bitIn.rest = true :: [] := by
  decide +kernel

/-- One bit too few, another word, and MAGIC itself. -/
theorem witness_MagicCheckOutcomes : (withBits (List.replicate 31 true) start0).bitIn.rest.length < 32 ∧
    (withBits (bitsOf 32 (~~~Config.magic).toNat) start0).bitIn.rest = bitsOf 32 (~~~Config.magic).toNat ++ [] ∧
    ~~~Config.magic ≠ Config.magic ∧
    (withBits (bitsOf 32 Config.magic.toNat) start0).bitIn.rest = bitsOf 32 Config.magic.toNat ++ [] := by
  refine ⟨by decide, (List.append_nil _).symm, fun h => ?_, (List.append_nil _).symm⟩
  have := congrArg (fun w : Word => w.getLsbD 0) h
  simp at this

/-- COMPRESS of no byte, for every WEIGHT_W, and of one counted byte, for every one but 1. -/
theorem witness_Compress : (start0.WeightBound ∧ ∀ b ∈ start0.symIn.rest, start0.count (byteSym b) ≠ 0) ∧
    (2 ≤ Config.weightW → oneByte.WeightBound) ∧ oneByte.symIn.rest = [0x41] ∧ oneByte.count (byteSym 0x41) ≠ 0 :=
  ⟨⟨zero_bound rfl, by decide⟩, oneByte_bound, rfl, by decide +kernel⟩

/-- A byte that FREQ does not count, with no byte before it; one after a counted byte. -/
theorem witness_CompressGap :
    (let s : State := { start0 with symIn := { data := [0x42], pos := 0 } };
      s.WeightBound ∧ s.symIn.rest = [] ++ 0x42 :: [] ∧ s.count (byteSym 0x42) = 0) ∧
    oneByte.count (byteSym 0x41) ≠ 0 ∧ oneByte.count (byteSym 0x42) = 0 :=
  ⟨⟨zero_bound rfl, rfl, by decide +kernel⟩, by decide +kernel⟩

/-- BIT_IN with MAGIC and these bits. -/
def afterMagic (data : List Bool) : State :=
  withBits (bitsOf 32 Config.magic.toNat ++ data) start0

theorem afterMagic_check (data : List Bool) :
    exec .magicCheck (afterMagic data) = .next ((afterMagic data).pastBits 32).succeed := by
  have h := readBits_of_rest (s := (afterMagic data).start) (n := 32) (bits := bitsOf 32 Config.magic.toNat)
    (r := data) rfl (by simp) (by omega)
  show runCommand (magicCheckBody Config.magic) (afterMagic data) = _
  rw [valOf_bitsOf Config.magic.isLt] at h
  simp only [runCommand, magicCheckBody, h, if_true]
  rfl

/-- An end in each stage. -/
theorem witness_DecompressIsItsStages :
    (start0.work = none ∧ ∃ t, exec .decompress start0 = .next t) ∧
    (∃ a, exec .magicCheck start0 = .next a ∧ a.err ≠ none) ∧
    (∃ a b, exec .magicCheck (afterMagic []) = .next a ∧ a.err = none ∧ exec .hdrDecode a = .next b ∧ b.err ≠ none) ∧
    ∃ a b c, exec .magicCheck (afterMagic (bits "11000000000")) = .next a ∧ a.err = none ∧
      exec .hdrDecode a = .next b ∧ b.err = none ∧ exec .streamDecode b = .next c := by
  refine ⟨⟨rfl, _, rfl⟩, ⟨_, rfl, by decide⟩, ⟨_, _, afterMagic_check [], rfl, rfl, by decide⟩,
    _, _, _, afterMagic_check _, rfl, rfl, rfl, rfl⟩

/-- A container of one byte, with a bit after it; and the largest tree. -/
theorem witness_DecompressContainer : pair.leafCount ≤ 257 ∧
    ((0x41, [false]) ∈ pair.codePaths ∧ (0x41 : Sym) ≠ 256) ∧ (256, [true]) ∈ pair.codePaths ∧
    (afterMagic (pair.header ++ [false] ++ [true] ++ [false])).bitIn.rest
      = bitsOf 32 Config.magic.toNat ++ pair.header ++ [((0x41 : Sym), [false])].flatMap Prod.snd ++ [true] ++ [false] ∧
    (comb 256).leafCount ≤ 257 :=
  ⟨by decide, by decide, by decide, by rfl, by rw [comb_leafCount]⟩

/-- The empty input for every WEIGHT_W, and a byte for every one but 1. -/
theorem witness_RoundTrip : start0.Presented [] ∧ (2 ≤ Config.weightW → oneByte.Presented [0x41]) := by
  have h2 := weightW_pos
  refine ⟨⟨fun i => congrArg BitVec.toNat (zeros_get i), Nat.zero_le _, rfl⟩, fun h => ⟨?_, ?_, rfl⟩⟩
  · intro i
    by_cases hi : i = 0x41
    · rw [hi]; decide +kernel
    · have hb : (0x41 : Byte) ≠ BitVec.ofNat 8 i.val := fun e => hi (Fin.ext (by
        have := congrArg BitVec.toNat e
        rw [BitVec.toNat_ofNat, Nat.mod_eq_of_lt i.isLt] at this
        exact this.symm))
      rw [show oneByte.freq[i] = 0 from freqs_other (x := 0x41) hi]
      exact (List.count_eq_zero.mpr fun h => hb (List.mem_singleton.mp h).symm).symm
  have h4 : 2 ^ 2 ≤ 2 ^ Config.weightW := Nat.pow_le_pow_right (by omega) h
  show 1 ≤ 2 ^ Config.weightW - 2
  generalize 2 ^ Config.weightW = x at *
  omega

/-- A state with a valid tree and code table that meets the invariant. -/
theorem witness_Inv : (coded pair).Inv ∧ (coded pair).status.treeValid = true := by
  have hp := Nat.two_pow_pos Config.weightW
  have h0 : ∀ i : Fin 256, (coded pair).freq[i] = 0 := fun i => zeros_get i
  have h1 : ∀ i : NodeIdx, (coded pair).nodeW[i] = 0 := fun i => zeros_get i
  have ht : (coded pair).tree = some pair := tree_of_isTreeAt (holding_tree (t := pair) (by decide)) (by decide)
  refine ⟨⟨rfl, ⟨rfl, rfl⟩, rfl, fun _ => rfl, fun _ => rfl, ⟨le_rfl, le_rfl⟩, fun i => ?_, fun i => ?_, fun _ => ?_,
    fun _ => ⟨pair, ht, rfl⟩, fun w h => by cases h⟩, rfl⟩
  · rw [h0 i]; exact hp
  · rw [h1 i]; exact hp
  · exact ⟨pair, _, holding_tree (t := pair) (by decide), by decide +kernel⟩

/-- And one in the middle of a header decode. -/
theorem witness_Inv_decoding : (withBits [true] (decoding 0 [])).Inv := by
  have hp := Nat.two_pow_pos Config.weightW
  have h0 : ∀ i : Fin 256, (decoding 0 []).freq[i] = 0 := fun i => zeros_get i
  have h1 : ∀ i : NodeIdx, (decoding 0 []).nodeW[i] = 0 := fun i => zeros_get i
  refine ⟨rfl, ⟨rfl, rfl⟩, rfl, fun _ => rfl, fun h => h, ⟨le_rfl, Nat.zero_le _⟩, fun i => ?_, fun i => ?_,
    fun h => (by cases h), fun h => (by cases h), fun w h => ?_⟩
  · exact lt_of_eq_of_lt (congrArg BitVec.toNat (h0 i)) hp
  · exact lt_of_eq_of_lt (congrArg BitVec.toNat (h1 i)) hp
  · cases h
    exact ⟨rfl, by decide, rfl⟩

end Sys2Proof.Tests
end

section
/-! The statements of 00_scope: bit sequences (R10) and the channel primitives (R12). -/

namespace Sys2Proof.Proofs

open Sys2Proof.Machine

/-- Settles O1, from the laws of `bitsOf` and `valOf`: the order of the bits, each function as the inverse
of the other, and the rule's two examples. -/
theorem bitSequences : Obligations.BitSequences := by
  unfold Obligations.BitSequences
  refine ⟨?order, valOf_cons, ?valOfBits, bitsOf_valOf, valOf_nil, ?examples⟩
  case order => exact fun n v k h => bitsOf_getElem? v h
  case valOfBits => exact fun n v h => ⟨bitsOf_length n v, valOf_bitsOf h⟩
  case examples => decide

theorem readBits_of_fits {n : Nat} {s : State} (h : s.bitIn.pos + n ≤ s.bitIn.data.length) :
    s.readBits n = some (valOf (s.bitIn.rest.take n), s.pastBits n) := by
  obtain ⟨_, e⟩ | ⟨hlt, _⟩ := readBits_cases n s
  · exact e
  · omega

theorem readBits_of_overrun {n : Nat} {s : State} (h : s.bitIn.data.length < s.bitIn.pos + n) :
    s.readBits n = none := by
  obtain ⟨hle, _⟩ | ⟨_, e⟩ := readBits_cases n s
  · omega
  · exact e

theorem readSym_of_pos_lt {s : State} (h : s.symIn.pos < s.symIn.data.length) :
    s.readSym = some (s.symIn.data[s.symIn.pos], s.pastSyms 1) :=
  readSym_cons (List.drop_eq_getElem_cons h)

theorem readSym_of_length_le {s : State} (h : s.symIn.data.length ≤ s.symIn.pos) : s.readSym = none :=
  readSym_none (List.drop_eq_nil_of_le h)

/-- Settles O3, from what a read answers where enough of its channel is left and where it is not. -/
theorem channelPrimitives : Obligations.ChannelPrimitives := by
  unfold Obligations.ChannelPrimitives
  intro s
  refine ⟨?bitsFit, ?bitsEnd, ?writeBits, ?symLeft, readSym_of_length_le, ?writeSym⟩
  case bitsFit => exact fun _ => readBits_of_fits
  case bitsEnd => exact fun _ => readBits_of_overrun
  case writeBits => exact fun _ _ => rfl
  case symLeft => exact readSym_of_pos_lt
  case writeSym => exact fun _ => rfl

end Sys2Proof.Proofs
end

section
/-! The words the registers read as (10_state R25, R30 to R40, R47) and host writes to FREQ. -/

namespace Sys2Proof.Proofs

open Sys2Proof Sys2Proof.Machine

/-! STATUS, ERR and PARAM. -/

theorem weightW_le : Config.weightW ≤ 32 := Config.weightIndex.isLt

theorem toNat_ofNat_of_lt {n x : Nat} (h : x < 2 ^ n) : (BitVec.ofNat n x).toNat = x := by
  rw [BitVec.toNat_ofNat, Nat.mod_eq_of_lt h]

theorem getLsbD_of_toNat_lt {w : Word} {n k : Nat} (h : w.toNat < 2 ^ n) (hk : n ≤ k) : w.getLsbD k = false :=
  Nat.testBit_lt_two_pow (h.trans_le (Nat.pow_le_pow_right (by decide) hk))

theorem statusWord_bits (f : Status) :
    f.word.getLsbD 0 = f.busy ∧ f.word.getLsbD 1 = f.done ∧ f.word.getLsbD 2 = f.error ∧
      f.word.getLsbD 3 = f.treeValid ∧ f.word.getLsbD 4 = f.codesValid ∧ f.word.toNat < 2 ^ 5 := by
  obtain ⟨busy, done, error, treeValid, codesValid⟩ := f
  revert busy done error treeValid codesValid
  decide

/-- ERR depends on its two fields only, which take few values (10_state R30). -/
theorem errWord_fields (e : Option ErrKind) (valid : Bool) :
    let w := BitVec.ofNat 32 (e.elim 0 ErrKind.code + 256 * valid.toNat)
    w.toNat % 16 = e.elim 0 ErrKind.code ∧ w.getLsbD 8 = valid ∧
      (∀ k < 9, 4 ≤ k → k ≠ 8 → w.getLsbD k = false) ∧ w.toNat < 2 ^ 9 := by
  rcases e with _ | e
  · cases valid <;> decide
  · cases e <;> cases valid <;> decide

/-- Settles O11: STATUS and ERR by their finitely many values, the others by the width of their fields. -/
theorem controlWords : Obligations.ControlWords := by
  unfold Obligations.ControlWords
  refine ⟨fun s => ?_, by decide, rfl⟩
  obtain ⟨busy, done, error, treeValid, codesValid, statusLt⟩ := statusWord_bits s.status
  obtain ⟨code, valid, low, errLt⟩ := errWord_fields s.err s.errInfo.isSome
  refine ⟨busy, done, error, treeValid, codesValid, fun k => getLsbD_of_toNat_lt statusLt, code, valid,
    fun k h4 h8 => ?errHigh, ?noInfo, ?info, ?root, ?nodeCount, ?cur, rfl, ?param⟩
  case errHigh =>
    by_cases h9 : k < 9
    · exact low k h9 h4 h8
    · exact getLsbD_of_toNat_lt errLt (by omega)
  case noInfo => exact fun h => by simp [readReg, State.errInfoWord, h]
  case info => exact fun v h => by simp [readReg, State.errInfoWord, h]
  case root => exact toNat_ofNat_of_lt (by omega)
  case nodeCount => exact toNat_ofNat_of_lt (by omega)
  case cur => exact toNat_ofNat_of_lt (by omega)
  case param =>
    have := weightW_le
    rw [readReg, paramWord, Config.nodeCap, toNat_ofNat_of_lt (by omega)]

/-! NODE and NODE_W. -/

theorem lowBits_toNat {n : Nat} (hn : n ≤ 32) (w : Word) : (lowBits n w).toNat = w.toNat % 2 ^ n := by
  have hlt : w.toNat % 2 ^ n < 2 ^ 32 :=
    (Nat.mod_lt _ (Nat.two_pow_pos n)).trans_le (Nat.pow_le_pow_right (by decide) hn)
  rw [lowBits, BitVec.toNat_ofNat, Nat.mod_eq_of_lt hlt]

theorem lowBits_weightW_lt (w : Word) : (lowBits Config.weightW w).toNat < 2 ^ Config.weightW := by
  rw [lowBits_toNat weightW_le]
  exact Nat.mod_lt _ (Nat.two_pow_pos _)

theorem nodeWord_leaf (sym : Sym) : nodeWord (.leaf sym) = 0x80000000#32 ||| sym.setWidth 32 := by
  have disjoint := Nat.two_pow_add_eq_or_of_lt (i := 31) (b := sym.toNat) (by omega) 1
  apply BitVec.eq_of_toNat_eq
  rw [nodeWord, BitVec.toNat_or, BitVec.toNat_setWidth_of_le (by decide), toNat_ofNat_of_lt (by omega)]
  exact disjoint

theorem nodeWord_internal (l r : NodeIdx) :
    nodeWord (.internal l r) = (BitVec.ofNat 32 r.val <<< 16) ||| BitVec.ofNat 32 l.val := by
  have disjoint := Nat.two_pow_add_eq_or_of_lt (i := 16) (b := l.val) (by omega) r.val
  apply BitVec.eq_of_toNat_eq
  rw [nodeWord, BitVec.toNat_or, BitVec.toNat_shiftLeft, toNat_ofNat_of_lt (by omega),
    toNat_ofNat_of_lt (by omega), toNat_ofNat_of_lt (by omega), Nat.shiftLeft_eq,
    Nat.mod_eq_of_lt (by omega), Nat.mul_comm r.val]
  exact disjoint

theorem nodeMeant_iff {s : State} {i : NodeIdx} :
    s.nodeMeant i = true ↔ s.status.treeValid = true ∧ i.val < s.nodeCount.val := by
  simp [State.nodeMeant]

theorem readReg_node_of_meant {s : State} {i : NodeIdx} (h : s.nodeMeant i = true) :
    readReg (.node i) s = nodeWord s.nodes[i] := if_pos h

theorem readReg_nodeW_of_meant {s : State} {i : NodeIdx} (h : s.nodeMeant i = true) :
    readReg (.nodeW i) s = s.nodeW[i] := if_pos h

theorem readReg_node_of_not_meant {s : State} {i : NodeIdx} (h : ¬ s.nodeMeant i = true) :
    readReg (.node i) s = maskNodeWord (Config.drawNode s.draws i.val) := if_neg h

theorem readReg_nodeW_of_not_meant {s : State} {i : NodeIdx} (h : ¬ s.nodeMeant i = true) :
    readReg (.nodeW i) s = lowBits Config.weightW (Config.drawNodeW s.draws i.val) := if_neg h

/-- Settles O12, by the two formats of NODE: their fields do not overlap. -/
theorem nodeWords : Obligations.NodeWords := by
  unfold Obligations.NodeWords
  intro s i ht hi
  have meant := nodeMeant_iff.mpr ⟨ht, hi⟩
  rw [readReg_node_of_meant meant, readReg_nodeW_of_meant meant]
  exact ⟨fun sym h => h ▸ nodeWord_leaf sym, fun l r h => h ▸ nodeWord_internal l r, rfl⟩

theorem maskNodeWord_leaf_reserved {w : Word} (h : (maskNodeWord w).getLsbD 31 = true) {k : Nat}
    (hk : 9 ≤ k ∧ k < 31) : (maskNodeWord w).getLsbD k = false := by
  have reserved : ∀ k < 31, 9 ≤ k → (0x800001FF#32).getLsbD k = false := by decide
  by_cases hw : w.getLsbD 31
  · rw [maskNodeWord, if_pos hw, BitVec.getLsbD_and, reserved k hk.2 hk.1, Bool.and_false]
  · rw [maskNodeWord, if_neg hw, BitVec.getLsbD_and, Bool.and_eq_true] at h
    exact absurd h.1 hw

theorem maskNodeWord_internal_reserved {w : Word} (h : (maskNodeWord w).getLsbD 31 = false) {k : Nat}
    (hk : (10 ≤ k ∧ k < 16) ∨ (26 ≤ k ∧ k < 31)) : (maskNodeWord w).getLsbD k = false := by
  have reserved : ∀ k < 31, (10 ≤ k ∧ k < 16) ∨ (26 ≤ k ∧ k < 31) → (0x03FF03FF#32).getLsbD k = false := by
    decide
  by_cases hw : w.getLsbD 31
  · rw [maskNodeWord, if_pos hw, BitVec.getLsbD_and, hw] at h
    exact absurd h (by decide)
  · rw [maskNodeWord, if_neg hw, BitVec.getLsbD_and, reserved k (by omega) hk, Bool.and_false]

/-- An entry without meaning reads the same whatever the node store holds (10_state R47). -/
theorem readReg_eq_of_not_meant {s : State} {i : NodeIdx} (h : ¬ s.nodeMeant i = true)
    (nodes : Vector Node 513) (ws : Vector Word 513) :
    readReg (.node i) { s with nodes := nodes, nodeW := ws } = readReg (.node i) s ∧
    readReg (.nodeW i) { s with nodes := nodes, nodeW := ws } = readReg (.nodeW i) s := by
  have h' : ¬ { s with nodes := nodes, nodeW := ws }.nodeMeant i = true := h
  rw [readReg_node_of_not_meant h, readReg_nodeW_of_not_meant h]
  exact ⟨readReg_node_of_not_meant h', readReg_nodeW_of_not_meant h'⟩

/-- Settles O15: a register but NODE and NODE_W never reads the node store, and an entry without meaning reads
as a masked draw. -/
theorem meaninglessReads : Obligations.MeaninglessReads := by
  unfold Obligations.MeaninglessReads
  refine ⟨fun s nodes ws r ht => ?register, fun s i h => ?entry⟩
  case register =>
    have unmeant : ∀ i, ¬ s.nodeMeant i = true := by simp [nodeMeant_iff, ht]
    cases r with
    | node i => exact (readReg_eq_of_not_meant (unmeant i) nodes ws).1
    | nodeW i => exact (readReg_eq_of_not_meant (unmeant i) nodes ws).2
    | _ => rfl
  case entry =>
    have unmeant : ¬ s.nodeMeant i = true := by
      rw [nodeMeant_iff]
      rintro ⟨ht, hi⟩
      rcases h with h | h
      · simp [h] at ht
      · omega
    refine ⟨readReg_eq_of_not_meant unmeant, ?_⟩
    rw [readReg_node_of_not_meant unmeant, readReg_nodeW_of_not_meant unmeant]
    exact ⟨fun h31 k h9 hk => maskNodeWord_leaf_reserved h31 ⟨h9, hk⟩,
      fun h31 k hk => maskNodeWord_internal_reserved h31 hk, lowBits_weightW_lt _⟩

/-! CODE_LEN and CODE_VAL. -/

/-- A number is the sum of its digits to the base `2 ^ 32`. -/
theorem sum_words (v n : Nat) :
    ((List.range n).map fun w => v / 2 ^ (32 * w) % 2 ^ 32 * 2 ^ (32 * w)).sum = v % 2 ^ (32 * n) := by
  induction n with
  | zero => simp [Nat.mod_one]
  | succ n ih =>
    rw [List.range_succ, List.map_append, List.sum_append, ih, List.map_singleton, List.sum_singleton,
      show 32 * (n + 1) = 32 * n + 32 by omega, pow_add, Nat.mod_mul, Nat.mul_comm (2 ^ (32 * n))]

theorem codeValWord_toNat (v : BitVec 256) (w : Fin 8) :
    (codeValWord v w).toNat = v.toNat / 2 ^ (32 * w.val) % 2 ^ 32 := by
  rw [codeValWord, BitVec.extractLsb'_toNat, Nat.shiftRight_eq_div_pow]

theorem codeLenWord_toNat (e : CodeLen) : (codeLenWord e).toNat = 2 ^ 31 * e.valid.toNat + e.len.toNat := by
  have := Bool.toNat_le e.valid
  exact toNat_ofNat_of_lt (by omega)

/-- Settles O13: CODE_LEN by where its two fields lie, CODE_VAL as the digits of its value. -/
theorem codeTableWords : Obligations.CodeTableWords := by
  unfold Obligations.CodeTableWords
  intro s sym
  have hlen := (s.codes.len[sym].len).isLt
  have word : (readReg (.codeLen sym) s).toNat = 2 ^ 31 * (s.codes.len[sym].valid).toNat + s.codes.len[sym].len.toNat :=
    codeLenWord_toNat _
  refine ⟨?valid, ?len, ?reserved, ?bits, ?sum⟩
  case valid =>
    rw [BitVec.getLsbD, word, Nat.testBit_two_pow_mul_add _ (by omega)]
    cases s.codes.len[sym].valid <;> rfl
  case len => omega
  case reserved =>
    intro k h9 h31
    rw [BitVec.getLsbD, word, Nat.testBit_two_pow_mul_add _ (by omega), if_pos h31]
    exact Nat.testBit_lt_two_pow (hlen.trans_le (Nat.pow_le_pow_right (by decide) h9))
  case bits =>
    intro w k hk
    show (codeValWord _ w).getLsbD k = _
    rw [codeValWord, BitVec.getLsbD_extractLsb', decide_eq_true hk, Bool.true_and]
  case sum =>
    have digits := sum_words s.codes.val[sym].toNat 8
    rw [Nat.mod_eq_of_lt s.codes.val[sym].isLt] at digits
    rw [← digits, ← List.map_coe_finRange_eq_range, List.map_map]
    simp only [Function.comp_def, readReg, codeValWord_toNat]

/-! FREQ. -/

/-- The address map finds FREQ (20_memory R71). -/
theorem accessedReg_freq (sym : Fin 257) :
    accessedReg (BitVec.ofNat 16 (0x0400 + 4 * sym.val)) 4 = .ok (.freq sym) := by
  have addr : (BitVec.ofNat 16 (0x0400 + 4 * sym.val)).toNat = 0x0400 + 4 * sym.val :=
    toNat_ofNat_of_lt (by omega)
  have index : Fin.ofNat 257 ((0x0400 + 4 * sym.val - 0x0400) / 4) = sym := Fin.ext (by simp)
  have reg : regAt (BitVec.ofNat 16 (0x0400 + 4 * sym.val)) = some (.freq sym) := by
    simp only [regAt, addr]
    rw [if_neg (by omega), if_pos (by omega), index]
  simp only [accessedReg, addr, reg]
  rw [if_neg (by decide), if_neg (by omega)]

theorem readReg_freq_eos (s : State) : readReg (.freq 256) s = 1 := rfl

theorem readReg_writeFreq_same {w : Nat} {sym : Fin 257} (h : sym.val < 256) (v : Word) (s : State) :
    readReg (.freq sym) (s.writeFreq w sym v) = lowBits w v := by
  simp [readReg, State.writeFreq, h]

theorem readReg_writeFreq_other {w : Nat} {sym x : Fin 257} (h : x ≠ sym) (v : Word) (s : State) :
    readReg (.freq x) (s.writeFreq w sym v) = readReg (.freq x) s := by
  have hne : sym.val ≠ x.val := fun e => h (Fin.ext e.symm)
  unfold State.writeFreq
  split
  · by_cases hx : x.val < 256
    · simp [readReg, hx, Vector.getElem_set_ne _ _ hne]
    · simp [readReg, hx]
  · rfl

theorem writeFreq_frame (w : Nat) (sym : Fin 257) (v : Word) (s : State) :
    s.writeFreq w sym v = { s with freq := (s.writeFreq w sym v).freq } := by
  unfold State.writeFreq
  split <;> rfl

/-- Settles O14: the step is the write to FREQ, whose reads and frame are known. -/
theorem freqWrites : Obligations.FreqWrites := by
  unfold Obligations.FreqWrites
  intro s ops sym v hw hb hh
  refine ⟨{ s with host := ops }.writeFreq Config.weightW sym v, ?step, writeFreq_frame _ _ _ _, ?same, ?eos,
    fun x hx => readReg_writeFreq_other hx v _, readReg_freq_eos _, readReg_freq_eos _⟩
  case step =>
    rw [step_host hw hh]
    simp [hostAct, HostOp.allowed, hb, memWrite, accessedReg_freq]
  case same =>
    intro h
    rw [readReg_writeFreq_same h, lowBits_toNat weightW_le]
  case eos =>
    intro h
    rw [State.writeFreq, dif_neg (by omega)]

end Sys2Proof.Proofs
end

section
/-! The tree in the node store (10_state R41): its shape from the invariant, and what BUILD_TREE stores. -/

namespace Sys2Proof.Proofs

open Sys2Proof Sys2Proof.Machine

/-- How deep the tree at a node is: a rank that falls from a node to its children. -/
def heightAt (nodes : Vector Node 513) (i : NodeIdx) : Nat :=
  (shapeAt nodes 257 i).elim 0 Tree.depth

theorem heightAt_eq {nodes : Vector Node 513} {i : NodeIdx} {t : Tree} {is : List Nat} (h : IsTreeAt nodes i t is)
    (hl : t.leafCount ≤ 257) : heightAt nodes i = t.depth := by
  have := depth_lt_leafCount t
  rw [heightAt, shapeAt_of_isTreeAt h 257 (by omega), Option.elim_some]

/-- The children of a node of a tree have a smaller height: no cycle (10_state R41). -/
theorem heightAt_children {nodes : Vector Node 513} {root : NodeIdx} {t : Tree} {is : List Nat}
    (h : IsTreeAt nodes root t is) (hl : t.leafCount ≤ 257) {i l r : NodeIdx} (hi : i.val ∈ is)
    (hn : nodes[i] = .internal l r) : heightAt nodes l < heightAt nodes i ∧ heightAt nodes r < heightAt nodes i := by
  obtain ⟨ti, ii, hti, hle⟩ := isTreeAt_sub h i hi
  cases hti with
  | leaf _ sym hs => rw [hn] at hs; cases hs
  | node _ l' r' tl tr il ir hs htl htr =>
    rw [hn] at hs
    cases hs
    have whole := heightAt_eq (.node i l r tl tr il ir hn htl htr) (hle.trans hl)
    have count : (Machine.Tree.node tl tr).leafCount = tl.leafCount + tr.leafCount := rfl
    rw [whole, heightAt_eq htl (by omega), heightAt_eq htr (by omega)]
    simp only [Tree.depth]
    omega

/-- What is counted over a table of `N` entries but only below `n`, is counted over the numbers below `n`. -/
theorem filter_finRange_length {N n : Nat} (hn : n ≤ N) {p : Fin N → Bool} {q : Nat → Bool}
    (h : ∀ i : Fin N, p i = q i.val) :
    ((List.finRange N).filter fun i => decide (i.val < n) && p i).length = (List.range n).countP q := by
  calc ((List.finRange N).filter fun i => decide (i.val < n) && p i).length
      = ((List.finRange N).map Fin.val).countP fun j => decide (j < n) && q j := by
        simp only [← List.countP_eq_length_filter, List.countP_map, Function.comp_def, h]
    _ = (List.range n).countP q := by
        obtain ⟨m, rfl⟩ := Nat.exists_eq_add_of_le hn
        have below : (List.range n).countP (fun j => decide (j < n) && q j) = (List.range n).countP q :=
          List.countP_congr fun j hj => by simp [List.mem_range.mp hj]
        have above : ((List.range m).map (n + ·)).countP (fun j => decide (j < n) && q j) = 0 := by
          simp [List.countP_eq_zero]
        rw [List.map_coe_finRange_eq_range, List.range_add, List.countP_append, below, above, Nat.add_zero]

/-- Settles O57, from the laws of the nodes of a tree, whose indices are those below NODE_COUNT. -/
theorem treeWellFormed : Obligations.TreeWellFormed := by
  unfold Obligations.TreeWellFormed
  intro s h hv
  obtain ⟨t, is, ht, hp, _, hsize, hl⟩ := treeWf_tree (h.tree hv)
  have mem : ∀ i : NodeIdx, i.val < s.nodeCount.val ↔ i.val ∈ is := by simp [hp.mem_iff]
  have nodup : is.Nodup := hp.nodup_iff.mpr List.nodup_range
  simp only [mem]
  refine ⟨⟨t.leafCount, leafCount_pos t, hl, ?count, ?leaves⟩, isTreeAt_root_mem ht, ?children, ?parent,
    heightAt s.nodes, fun i l r => heightAt_children ht hl⟩
  case count => rw [← hsize, size_eq]
  case leaves =>
    simp only [← mem]
    rw [filter_finRange_length (q := fun j => (s.nodes[j]?).elim false Node.isLeaf) (by omega) (by simp),
      ← hp.countP_eq, isTreeAt_leaf_count ht]
  case children =>
    intro i l r hi hn
    obtain ⟨hli, hri⟩ := isTreeAt_children ht i l r hi hn
    obtain ⟨hlr, hrr, hne⟩ := isTreeAt_root_no_parent ht nodup i l r hi hn
    exact ⟨hli, hri, hne, hlr, hrr⟩
  case parent =>
    intro c hc hne
    obtain ⟨p, l, r, hpi, hn, hcl⟩ := isTreeAt_parent ht c.val hc fun e => hne (Fin.ext e)
    refine ⟨p, ⟨hpi, l, r, hn, hcl.imp Fin.ext Fin.ext⟩, ?_⟩
    rintro q ⟨hqi, l', r', hn', hcl'⟩
    exact isTreeAt_parent_unique ht nodup c q p l' r' l r hqi hpi hn' hn hcl' (hcl.imp Fin.ext Fin.ext)

/-! BUILD_TREE's leaves. -/

theorem leafCount_eq_syms_length (t : Machine.Tree) : t.leafCount = t.syms.length := by
  induction t with
  | leaf sym => rfl
  | node l r ihl ihr => rw [syms_node, List.length_append, ← ihl, ← ihr]; rfl

/-- Every entry of the leaves is a leaf, so none is lost. -/
theorem leafSyms_length (sym : Nat) (fs : List Nat) :
    (leafSyms (leafEntries sym fs)).length = (leafEntries sym fs).length := by
  rw [leafSyms, List.length_filterMap_eq_countP, List.countP_eq_length]
  intro e he
  obtain ⟨x, hx⟩ := leafEntries_leaf he
  simp [hx]

theorem counts_eq_map_count (s : State) : counts s.freq = (List.finRange 257).map s.count := by
  refine List.ext_getElem (by simp [counts]) fun k hk _ => ?_
  rw [List.getElem_map, List.getElem_finRange]
  by_cases h : k < 256
  · simp [counts, State.count, h]
  · obtain rfl : k = 256 := by simp [counts] at hk; omega
    simp [counts, State.count]

theorem counted_length (s : State) : s.counted.length = (counts s.freq).countP (· ≠ 0) := by
  rw [counts_eq_map_count, List.countP_map, State.counted, ← List.countP_eq_length_filter]
  rfl

/-- Leaves with the symbols of different counts are different, and there are 257 counts (10_state R41). -/
theorem distinct_of_syms_perm {t : Machine.Tree} {fs : List Nat} (hl : fs.length ≤ 257)
    (h : t.syms.Perm (leafSyms (leafEntries 0 fs))) : t.distinct := by
  have symbols : (t.paths.map fun e => e.1.toNat) = t.syms.map BitVec.toNat := by simp [Tree.syms]
  constructor
  · rw [symbols]
    exact (h.nodup_iff.mpr (leafSyms_nodup hl)).map BitVec.toNat_injective
  · intro e he
    have : e.1 ∈ leafSyms (leafEntries 0 fs) := h.mem_iff.mp (List.mem_map_of_mem he)
    obtain ⟨hlt, _⟩ := (mem_leafSyms hl e.1).mp this
    omega

/-- Settles O58: the leaves' symbols are those of the non-zero counts, each once. -/
theorem builtTreeDistinct : Obligations.BuiltTreeDistinct := by
  unfold Obligations.BuiltTreeDistinct
  intro s t h
  obtain ⟨_, rfl⟩ := exec_buildTree_next h
  have hlen : (counts s.freq).length ≤ 257 := by rw [counts_length]
  obtain ⟨tree, is, ht, _, syms, _⟩ := storeTree_tree (built_counts s.freq) hlen s.start.dropTree
  refine ⟨tree, is, ht, ?_, distinct_of_syms_perm hlen syms⟩
  calc tree.leafCount = (leafSyms (leafEntries 0 (counts s.freq))).length := by
        rw [leafCount_eq_syms_length, syms.length_eq]
    _ = (counts s.freq).countP (· ≠ 0) := by rw [leafSyms_length, leafEntries_length]
    _ = s.counted.length := (counted_length s).symm

end Sys2Proof.Proofs
end

section
/-! Commands as steps: the write that starts one (10_state R24), how each ends (R27, R30), and the reset state (R46). -/

namespace Sys2Proof.Proofs

open Sys2Proof Sys2Proof.Machine

/-- How a command that answers a next state ended: its body kept what `State.Kept` names, and DONE or ERROR and
ERR were set (10_state R26, R27, R30). -/
theorem exec_command_ended {i : Instr} (hi : i ∈ commands) {s t : State} (h : exec i s = .next t) :
    ∃ u, s.start.Kept u ∧ (t = u.finish ∨ ∃ k inf, t = u.abort k inf) := by
  rw [exec_command hi] at h
  rcases (commandBody_kept hi s.start).conclude h with ⟨u, _, hk, rfl⟩ | ⟨k, inf, u, _, hk, rfl⟩
  · exact ⟨u, hk, .inl rfl⟩
  · exact ⟨u, hk, .inr ⟨k, inf, rfl⟩⟩

/-- Settles O23, by the two ways a command ends. -/
theorem commandsEnd : Obligations.CommandsEnd := by
  unfold Obligations.CommandsEnd
  refine ⟨fun i hi s t h => ?_, rfl, rfl⟩
  obtain ⟨u, hk, rfl | ⟨k, inf, rfl⟩⟩ := exec_command_ended hi h
  · have err : u.err = none := hk.err
    have info : u.errInfo = none := hk.errInfo
    have error : u.status.error = false := hk.error
    simp [err, error, info, readReg, State.errWord, State.errInfoWord]
  · simp

theorem exec_command_cmd {i : Instr} (hi : i ∈ commands) {s t : State} (h : exec i s = .next t) : t.cmd = s.cmd := by
  obtain ⟨u, hk, rfl | ⟨k, inf, rfl⟩⟩ := exec_command_ended hi h
  · exact hk.cmd
  · exact hk.cmd

theorem decodeCmd_mem_commands {w : Word} {i : Instr} (h : decodeCmd w = .ok i) : i ∈ commands := by
  unfold decodeCmd decodeOp at h
  split at h
  · split at h <;> cases h <;> decide
  · cases h

/-- A write to CMD by an idle core's host (10_state R24). -/
theorem step_write_cmd {s : State} {ops : List HostOp} {w : Word} (hw : s.work = none)
    (hb : s.status.busy = false) (hh : s.host = .write 0x0000 4 w :: ops) :
    step s = writeCmd exec w { s with host := ops } := by
  rw [step_host hw hh]
  simp only [hostAct, HostOp.allowed, hb]
  rfl

/-- Settles O16: an idle core takes the word, decodes it and runs its command or is aborted, and neither
touches CMD again. -/
theorem stepRunsTheWrittenCommand : Obligations.StepRunsTheWrittenCommand := by
  unfold Obligations.StepRunsTheWrittenCommand
  refine ⟨?runs, ?reads, ?busy, rfl⟩
  case runs =>
    intro s ops w i hw hb hh hd
    rw [step_write_cmd hw hb hh, writeCmd, hd]
  case reads =>
    intro s t ops w hw hb hh hs
    rw [step_write_cmd hw hb hh, writeCmd] at hs
    split at hs
    next hd => exact exec_command_cmd (decodeCmd_mem_commands hd) hs
    next => cases hs; rfl
  case busy =>
    intro s ops w hw hb hh
    rw [step_host hw hh]
    simp [hostAct, HostOp.allowed, hb]

/-- Settles O21: each register has its reset value by definition, FREQ entry by entry. -/
theorem resetState : Obligations.ResetState := by
  unfold Obligations.ResetState
  refine ⟨rfl, rfl, rfl, rfl, rfl, rfl, rfl, rfl, rfl, fun sym => ?freq, rfl, rfl, rfl, rfl, rfl⟩
  case freq => simp [readReg, State.reset]

end Sys2Proof.Proofs
end

section
/-! The invariant of the machine (10_state R26 to R30, R36, R37, R41, R44): it holds at reset and every step
keeps it. -/

namespace Sys2Proof.Proofs

open Sys2Proof Sys2Proof.Machine

/-! What the invariant says of the node store and the code table, and how the command bodies keep it. -/

/-- What the invariant says of the stored tree and the code table of a core that decodes no header. -/
structure StoreInv (s : State) : Prop where
  idle : s.work = none
  flags : s.status.codesValid = true → s.status.treeValid = true
  weights : ∀ i : NodeIdx, s.nodeW[i].toNat < 2 ^ Config.weightW
  tree : s.status.treeValid = true → s.TreeWf
  codes : s.status.codesValid = true → ∃ t, s.tree = some t ∧ s.codes = t.codeTable

/-- A body that never faults and leaves the store as the invariant wants it, also where it raises. -/
structure EndsSound (b : Body) : Prop where
  sound : b.Ends StoreInv fun k i u => StoreInv (u.abort k i)
  noFault : ∀ f, b ≠ .fault f

theorem EndsSound.andThen {b : Body} {f : State → Body} (h : EndsSound b)
    (hf : ∀ s, StoreInv s → EndsSound (f s)) : EndsSound (b.andThen f) where
  sound := h.sound.andThen fun s hs => (hf s hs).sound
  noFault := by
    cases b with
    | ok s => exact (hf s h.sound).noFault
    | raised => nofun
    | fault f => exact absurd rfl (h.noFault f)
    | refused => nofun

theorem noFault_of_ends_or_raises {b : Body} (h : (∃ u, b = .ok u) ∨ ∃ k i u, b = .raised k i u) (f : Fault) :
    b ≠ .fault f := by
  rcases h with ⟨_, rfl⟩ | ⟨_, _, _, rfl⟩ <;> nofun

theorem needs_noFault {flag : Bool} {op : Nat} {body : State → Body} {s : State}
    (h : flag = true → ∀ f, body s ≠ .fault f) (f : Fault) : needs flag op body s ≠ .fault f := by
  cases flag
  · nofun
  · exact h rfl f

theorem StoreInv.abort {s : State} (h : StoreInv s) (k : ErrKind) (i : Option Word) : StoreInv (s.abort k i) :=
  { h with idle := rfl }

theorem StoreInv.ofNoTree {s : State} (hw : s.work = none) (ht : s.status.treeValid = false)
    (hc : s.status.codesValid = false) (h : ∀ i : NodeIdx, s.nodeW[i].toNat < 2 ^ Config.weightW) : StoreInv s where
  idle := hw
  flags := by simp [hc]
  weights := h
  tree := by simp [ht]
  codes := by simp [hc]

theorem StoreInv.encoded {s u : State} (h : StoreInv s) (e : s.Encoded u) : StoreInv u := by
  obtain ⟨n, x, rfl, _⟩ := e
  exact { h with }

theorem StoreInv.decoded {s u : State} (h : StoreInv s) (e : s.Decoded u) : StoreInv u := by
  obtain ⟨n, c, x, rfl, _⟩ := e
  exact { h with }

theorem weights_of_zeroed {s u : State} (h : ∀ i : NodeIdx, s.nodeW[i].toNat < 2 ^ Config.weightW)
    (hz : s.Zeroed u) (i : NodeIdx) : u.nodeW[i].toNat < 2 ^ Config.weightW := by
  rcases hz i with e | e
  · rw [e]; exact h i
  · rw [e]; exact Nat.two_pow_pos _

/-- The weights BUILD_TREE stores, and those it leaves (40_tree_builder R112, R116, R117). -/
theorem storeTree_weights_lt {s : State} {root : NodeIdx} {es : List Entry} (hb : Built (counts s.freq) root es)
    (hw : withinWeightBound Config.weightW s.freq = true)
    (h : ∀ i : NodeIdx, s.nodeW[i].toNat < 2 ^ Config.weightW) (i : NodeIdx) :
    (s.dropTree.storeTree root es).nodeW[i].toNat < 2 ^ Config.weightW := by
  rcases he : es[i.val]? with _ | e
  · have old : (s.dropTree.storeTree root es).nodeW[i] = s.nodeW[i] := by
      simp [Fin.getElem_fin, he]
    rw [old]; exact h i
  · have hsum : (counts s.freq).sum < 2 ^ Config.weightW := by
      rw [withinWeightBound_iff] at hw
      simpa [counts] using hw
    obtain ⟨exact, lt⟩ := storeTree_weight hb weightW_le hsum s.dropTree he
    rw [exact]; exact lt

theorem buildTreeBody_sound {s : State} (h : StoreInv s) : EndsSound (buildTreeBody Config.weightW s) where
  sound := by
    refine (buildTreeBody_ends _ s).imp ?_ fun _ _ _ => False.elim
    rintro u ⟨hw, rfl⟩
    have hb := built_counts s.freq
    obtain ⟨_, _, _, _, _, wf⟩ := storeTree_tree hb (by rw [counts_length]) s.dropTree
    exact { idle := h.idle, flags := nofun, weights := storeTree_weights_lt hb hw h.weights
            tree := fun _ => wf, codes := nofun }
  noFault := by unfold buildTreeBody; split <;> nofun

/-- A valid tree is one that GEN_CODES and HDR_ENCODE read to its end (41_code_table R131). -/
theorem StoreInv.exists_tree {s : State} (h : StoreInv s) (ht : s.status.treeValid = true) :
    ∃ t, s.tree = some t := by
  obtain ⟨t, _, _, _, e, _⟩ := treeWf_tree (h.tree ht)
  exact ⟨t, e⟩

theorem genCodesBody_sound {s : State} (h : StoreInv s) : EndsSound (genCodesBody s) where
  sound := by
    refine (genCodesBody_ends s).imp ?_ ?_
    · rintro u ⟨ht, t, e, rfl⟩
      exact { h with flags := fun _ => ht, codes := fun _ => ⟨t, e, rfl⟩ }
    · rintro k i u ⟨_, _, _, rfl⟩
      exact h.abort k i
  noFault := needs_noFault fun ht => by
    obtain ⟨t, e⟩ := h.exists_tree ht
    simp [e]

theorem hdrEncodeBody_sound {s : State} (h : StoreInv s) : EndsSound (hdrEncodeBody s) where
  sound := by
    refine (hdrEncodeBody_ends s).imp ?_ ?_
    · rintro u ⟨_, t, _, rfl⟩
      exact { h with }
    · rintro k i u ⟨_, _, _, rfl⟩
      exact h.abort k i
  noFault := needs_noFault fun ht => by
    obtain ⟨t, e⟩ := h.exists_tree ht
    simp [e]

theorem hdrDecodeBody_sound {s : State} (h : StoreInv s) : EndsSound (hdrDecodeBody s) where
  sound := by
    refine (hdrDecodeBody_ends s).imp ?_ ?_
    · rintro u ⟨hr, hw, _, wf⟩
      have hc : u.status.codesValid = false := by rw [hr.frame]
      exact { idle := hw, flags := by simp [hc], weights := weights_of_zeroed h.weights hr.zeroed
              tree := fun _ => wf, codes := by simp [hc] }
    · rintro k i u ⟨_, _, hr, ht, _⟩
      exact .ofNoTree rfl ht (by rw [abort_status, hr.frame]) (weights_of_zeroed h.weights hr.zeroed)
  noFault := noFault_of_ends_or_raises (headerLoop_ends_or_raises _ _ (by simp))

theorem streamEncodeBody_sound {s : State} (h : StoreInv s) : EndsSound (streamEncodeBody s) where
  sound := by
    refine (streamEncodeBody_ends s).imp (fun u e => h.encoded e.2) ?_
    rintro k i u (⟨_, _, _, rfl⟩ | ⟨_, _, _, e⟩)
    · exact h.abort k i
    · exact (h.encoded e).abort k i
  noFault := needs_noFault fun _ => noFault_of_ends_or_raises (encodeLoop_ends_or_raises _ _)

theorem streamDecodeBody_sound {s : State} (h : StoreInv s) : EndsSound (streamDecodeBody s) where
  sound := by
    refine (streamDecodeBody_ends s).imp (fun u e => h.decoded e.2.1) ?_
    rintro k i u (⟨_, _, _, rfl⟩ | ⟨_, _, _, e, _⟩)
    · exact h.abort k i
    · exact (h.decoded e).abort k i
  noFault := needs_noFault fun _ => noFault_of_ends_or_raises (decodeLoop_ends_or_raises _ _)

theorem magicWriteBody_sound {s : State} (magic : Word) (h : StoreInv s) : EndsSound (magicWriteBody magic s) :=
  ⟨{ h with }, nofun⟩

theorem magicCheckBody_sound {s : State} (magic : Word) (h : StoreInv s) : EndsSound (magicCheckBody magic s) where
  sound := by
    refine (magicCheckBody_ends magic s).imp ?_ ?_
    · rintro u ⟨_, rfl, _⟩
      exact { h with }
    · rintro k i u ⟨_, ⟨_, rfl⟩ | ⟨_, rfl, _⟩⟩
      · exact h.abort k i
      · exact { h with idle := rfl }
  noFault := by
    unfold magicCheckBody
    split
    · nofun
    · split <;> nofun

/-- Every command's body keeps what the invariant says of the store; the composite ones stage by stage. -/
theorem commandBody_sound (i : Instr) {s : State} (h : StoreInv s) : EndsSound (commandBody i s) := by
  cases i with
  | buildTree => exact buildTreeBody_sound h
  | genCodes => exact genCodesBody_sound h
  | hdrEncode => exact hdrEncodeBody_sound h
  | hdrDecode => exact hdrDecodeBody_sound h
  | streamEncode => exact streamEncodeBody_sound h
  | streamDecode => exact streamDecodeBody_sound h
  | magicWrite => exact magicWriteBody_sound _ h
  | magicCheck => exact magicCheckBody_sound _ h
  | compress =>
    exact ((((buildTreeBody_sound h).andThen fun _ => genCodesBody_sound).andThen
      fun _ => magicWriteBody_sound _).andThen fun _ => hdrEncodeBody_sound).andThen
      fun _ => streamEncodeBody_sound
  | decompress =>
    exact ((magicCheckBody_sound _ h).andThen fun _ => hdrDecodeBody_sound).andThen
      fun _ => streamDecodeBody_sound
  | internal | leaf => exact ⟨trivial, nofun⟩

/-! A command between its start and its end. -/

theorem storeInv_of_inv {s : State} (h : s.Inv) (hw : s.work = none) : StoreInv s :=
  { h with idle := hw }

/-- Positions stay in their channels and counts in their width where no more than `State.Kept` allows changed. -/
theorem positions_of_kept {s u : State} (h : s.Inv) (hk : s.start.Kept u) :
    u.symIn.pos ≤ u.symIn.data.length ∧ u.bitIn.pos ≤ u.bitIn.data.length := by
  obtain ⟨sym, bit⟩ := h.positions
  have symPos := hk.symPos.2
  have bitPos := hk.bitPos.2
  rw [hk.symData, hk.bitData]
  simp only [start_symIn, start_bitIn] at *
  omega

theorem counts_of_kept {s u : State} (h : s.Inv) (hk : s.start.Kept u) (i : Fin 256) :
    u.freq[i].toNat < 2 ^ Config.weightW := by
  rw [hk.freq]; exact h.counts i

theorem finish_inv {s u : State} (h : s.Inv) (hk : s.start.Kept u) (hu : StoreInv u) : u.finish.Inv where
  busy := by simp [hu.idle]
  ended := by simp [hk.error]
  error := by simp [hk.error, hk.err]
  info := by simp [hk.errInfo]
  flags := hu.flags
  positions := positions_of_kept (u := u) h hk
  counts := counts_of_kept (u := u) h hk
  weights := hu.weights
  tree := hu.tree
  codes := hu.codes
  work := by simp [hu.idle]

theorem abort_inv {s u : State} {k : ErrKind} {i : Option Word} (h : s.Inv) (hk : s.start.Kept u)
    (hu : StoreInv (u.abort k i)) : (u.abort k i).Inv where
  busy := by simp
  ended := by simp
  error := by simp
  info := by simp
  flags := hu.flags
  positions := positions_of_kept (u := u) h hk
  counts := counts_of_kept (u := u) h hk
  weights := hu.weights
  tree := hu.tree
  codes := hu.codes
  work := by simp

/-- An outcome that is no fault and, where it is a next state, meets the invariant. -/
def KeepsInv (o : Host.Outcome State Fault Refusal) : Prop :=
  (∀ t, o = .next t → t.Inv) ∧ ∀ f, o ≠ .fault f

theorem keepsInv_next {t : State} (h : t.Inv) : KeepsInv (.next t) :=
  ⟨fun _ e => by cases e; exact h, nofun⟩

theorem keepsInv_refused (r : Refusal) : KeepsInv (.refused r) :=
  ⟨fun _ e => (by cases e), nofun⟩

/-- A command keeps the invariant on an idle core. -/
theorem exec_command_keepsInv {i : Instr} (hi : i ∈ commands) {s : State} (h : s.Inv) (hw : s.work = none) :
    KeepsInv (exec i s) := by
  have hs : StoreInv s.start := { storeInv_of_inv h hw with }
  obtain ⟨sound, noFault⟩ := commandBody_sound i hs
  have kept := commandBody_kept hi s.start
  rw [exec_command hi]
  cases hb : commandBody i s.start with
  | ok u =>
    rw [hb] at sound kept
    exact keepsInv_next (finish_inv h kept sound)
  | raised k inf u =>
    rw [hb] at sound kept
    exact keepsInv_next (abort_inv h kept sound)
  | fault f => exact absurd hb (noFault f)
  | refused r => exact keepsInv_refused r

/-! A token of a running header decode. -/

/-- A running core stands as the start of its command left it (10_state R26, R27, R30). -/
theorem start_of_running {s : State} {w : HeaderWork} (h : s.Inv) (hw : s.work = some w) : s.start = s := by
  have busy : s.status.busy = true := by rw [h.busy, hw]; rfl
  obtain ⟨done, error⟩ : s.status.done = false ∧ s.status.error = false := by
    simpa [busy] using h.ended.2
  have err : s.err = none := by simpa [error] using h.error
  have info := h.info err
  have status : s.start.status = s.status := by
    rcases hs : s.status with ⟨b, d, e, treeValid, codesValid⟩
    simp_all
  calc s.start = { s with status := s.start.status, err := none, errInfo := none } := rfl
    _ = s := by rw [status, ← err, ← info]

theorem kept_of_built {s u : State} (h : s.Built u) : s.Kept u := by
  refine State.Decompressed.kept ⟨?_, h.data, h.pos, ⟨[], ?_⟩, h.zeroed⟩
  · rw [h.frame]
  · rw [h.frame]; simp

theorem codesValid_of_running {s : State} {w : HeaderWork} (h : s.Inv) (hw : s.work = some w) :
    s.status.codesValid = false := by
  have ht := (h.work w hw).1
  by_contra hc
  simp [h.flags (by simpa using hc)] at ht

/-- A token after which the header decode goes on. -/
theorem built_inv {s u : State} {w w' : HeaderWork} (h : s.Inv) (hw : s.work = some w) (hb : s.Built u)
    (hu : u.work = some w') (hp : w'.alloc ≤ 513 ∧ PendingAt u.nodes w'.alloc w'.stack) : u.Inv := by
  have hk := kept_of_built hb
  have hk' : s.start.Kept u := by rw [start_of_running h hw]; exact hk
  have status := (hb.running w' hu).1
  have ht := (h.work w hw).1
  exact {
    busy := by rw [status, h.busy, hw, hu]; rfl
    ended := by rw [status]; exact h.ended
    error := by rw [status, hk.err]; exact h.error
    info := by rw [hk.err, hk.errInfo]; exact h.info
    flags := by rw [status]; exact h.flags
    positions := positions_of_kept h hk'
    counts := counts_of_kept h hk'
    weights := weights_of_zeroed h.weights hb.zeroed
    tree := by simp [status, ht]
    codes := by simp [status, codesValid_of_running h hw]
    work := by
      intro w'' hw''
      obtain rfl : w' = w'' := by simpa [hu] using hw''
      exact ⟨by rw [status, ht], hp⟩ }

/-- The token that completes the header. -/
theorem built_finish_inv {s u : State} {w : HeaderWork} (h : s.Inv) (hw : s.work = some w) (hb : s.Built u)
    (hu : u.work = none) (wf : u.TreeWf) : u.finish.Inv := by
  have running := codesValid_of_running h hw
  have hc : u.status.codesValid = false := by rw [hb.frame]; exact running
  have hk : s.start.Kept u := by rw [start_of_running h hw]; exact kept_of_built hb
  exact finish_inv h hk
    { idle := hu, flags := by simp [hc], weights := weights_of_zeroed h.weights hb.zeroed
      tree := fun _ => wf, codes := by simp [hc] }

/-- An error in a header: only bits have been read. -/
theorem read_abort_inv {s u : State} {w : HeaderWork} (h : s.Inv) (hw : s.work = some w) (hr : s.Read u)
    (k : ErrKind) (i : Option Word) : (u.abort k i).Inv := by
  obtain ⟨m, rfl, hm⟩ := hr
  have hk : s.start.Kept (s.pastBits m) := by
    rw [start_of_running h hw]; exact State.Decompressed.kept (pastBits_decompressed hm)
  have hc := codesValid_of_running h hw
  exact abort_inv h hk (.ofNoTree rfl (h.work w hw).1 hc h.weights)

theorem headerStep_keepsInv {s : State} {w : HeaderWork} (h : s.Inv) (hw : s.work = some w) :
    KeepsInv (headerStep s).concludeToken := by
  have ends := headerStep_ends hw
  have noFault := noFault_of_ends_or_raises (headerLoop_ends_or_raises 0 s (by simp [hw]))
  cases hb : headerStep s with
  | ok u =>
    rw [hb] at ends
    obtain ⟨built, hlt, alloc, sound⟩ := ends
    obtain ⟨pending, wf⟩ := sound (h.work w hw).2.2
    rcases hu : u.work with _ | w'
    · rw [Body.concludeToken, hu]
      exact keepsInv_next (built_finish_inv h hw built hu (wf hu))
    · have := alloc w' hu
      rw [Body.concludeToken, hu]
      exact keepsInv_next (built_inv h hw built hu ⟨by omega, pending w' hu⟩)
  | raised k inf u =>
    rw [hb] at ends
    obtain ⟨_, _, read⟩ := ends
    exact keepsInv_next (read_abort_inv h hw read k inf)
  | fault f => exact absurd hb (noFault f)
  | refused r => exact keepsInv_refused r

/-! The host's actions. -/

theorem writeFreq_inv {s : State} (h : s.Inv) (sym : Fin 257) (v : Word) :
    (s.writeFreq Config.weightW sym v).Inv := by
  unfold State.writeFreq
  split
  next hs =>
    refine { h with counts := fun i => ?_ }
    show (s.freq.set sym.val _)[i.val].toNat < _
    rw [Vector.getElem_set]
    split
    · exact lowBits_weightW_lt v
    · exact h.counts i
  next => exact h

theorem illegalCommand_inv {s : State} (h : s.Inv) (hw : s.work = none) (w : Word) : (illegalCommand w s).Inv :=
  abort_inv h (.refl _) (StoreInv.abort { storeInv_of_inv h hw with } _ _)

theorem resetNodeW_lt (k : Nat) (i : NodeIdx) : (resetNodeW k)[i].toNat < 2 ^ Config.weightW := by
  rw [resetNodeW, Fin.getElem_fin, tabulate_get]
  exact lowBits_weightW_lt _

theorem replicate_zero_lt (i : Fin 256) :
    (Vector.replicate 256 (0 : Word))[i].toNat < 2 ^ Config.weightW := by
  rw [Fin.getElem_fin, Vector.getElem_replicate]
  exact Nat.two_pow_pos _

/-- An idle core with neither tree, code table nor result (10_state R46). -/
theorem inv_of_no_result {s : State} (hs : s.status = State.reset.status) (he : s.err = none) (hi : s.errInfo = none)
    (hw : s.work = none) (hp : s.symIn.pos ≤ s.symIn.data.length ∧ s.bitIn.pos ≤ s.bitIn.data.length)
    (hf : ∀ i : Fin 256, s.freq[i].toNat < 2 ^ Config.weightW)
    (hn : ∀ i : NodeIdx, s.nodeW[i].toNat < 2 ^ Config.weightW) : s.Inv where
  busy := by rw [hs, hw]; rfl
  ended := by rw [hs]; exact ⟨rfl, rfl⟩
  error := by rw [hs, he]; rfl
  info := fun _ => hi
  flags := by rw [hs]; nofun
  positions := hp
  counts := hf
  weights := hn
  tree := by rw [hs]; nofun
  codes := by rw [hs]; nofun
  work := by rw [hw]; nofun

theorem resetCore_inv {s : State} (h : s.Inv) : s.resetCore.Inv :=
  inv_of_no_result rfl rfl rfl rfl h.positions replicate_zero_lt (resetNodeW_lt _)

/-- Settles O59: after reset there is no tree, no code table and no work, and the free weights are masked to
`WEIGHT_W` bits. -/
theorem resetInv : Obligations.ResetInv := by
  unfold Obligations.ResetInv
  exact inv_of_no_result rfl rfl rfl rfl ⟨le_rfl, le_rfl⟩ replicate_zero_lt (resetNodeW_lt _)

theorem memWrite_keepsInv {s : State} (h : s.Inv) (hw : s.work = none) (addr : Addr) (size : Nat) (v : Word) :
    KeepsInv (memWrite exec addr size v s) := by
  unfold memWrite
  split
  · exact keepsInv_refused _
  · unfold writeCmd
    have h' : { s with cmd := v }.Inv := { h with }
    split
    next hd => exact exec_command_keepsInv (decodeCmd_mem_commands hd) h' hw
    next => exact keepsInv_next (illegalCommand_inv h' hw v)
  · exact keepsInv_next (writeFreq_inv h _ v)
  · exact keepsInv_refused _

theorem hostAct_keepsInv (op : HostOp) {s : State} (h : s.Inv) (hw : s.work = none) :
    KeepsInv (hostAct exec op s) := by
  unfold hostAct
  split
  · obtain ⟨sym, bit⟩ := h.positions
    cases op with
    | write addr size v => exact memWrite_keepsInv h hw addr size v
    | read addr size =>
      simp only
      split
      · exact keepsInv_next { h with }
      · exact keepsInv_refused _
    | loadSym bytes => exact keepsInv_next { h with positions := ⟨Nat.zero_le _, bit⟩ }
    | rewindSym => exact keepsInv_next { h with positions := ⟨Nat.zero_le _, bit⟩ }
    | loadBits bits => exact keepsInv_next { h with positions := ⟨sym, Nat.zero_le _⟩ }
    | loadBytes bytes => exact keepsInv_next { h with positions := ⟨sym, Nat.zero_le _⟩ }
    | clearOut => exact keepsInv_next { h with }
    | closeOut => exact keepsInv_next { h with }
    | reset => exact keepsInv_next (resetCore_inv h)
  · exact keepsInv_refused _

/-- Settles O60: a step is a token of a running header decode, the host's next action, or idle. -/
theorem stepKeepsInv : Obligations.StepKeepsInv := by
  unfold Obligations.StepKeepsInv
  intro s h
  show KeepsInv (step s)
  rcases hw : s.work with _ | w
  · rcases hh : s.host with _ | ⟨op, ops⟩
    · rw [step, stepWith, hw]
      simp only [hh]
      exact keepsInv_next h
    · rw [step_host hw hh]
      exact hostAct_keepsInv op { h with } hw
  · rw [step_headerStep hw]
    exact headerStep_keepsInv h hw

end Sys2Proof.Proofs
end

section
/-! The statements of 20_memory: packing and unpacking (R66 to R68), the register window (R70 to R74), and what
an instruction leaves of the channels (R75, R83, R85). -/

namespace Sys2Proof.Proofs

open Sys2Proof Sys2Proof.Machine

/-! Packing. -/

theorem unpack_packBits (bits : List Bool) : unpackBytes (packBits bits) = closeBits bits :=
  unpack_packBytes _ _ (by have := closeBits_length bits; omega)

theorem packBits_length (bits : List Bool) : 8 * (packBits bits).length = (closeBits bits).length := by
  rw [← unpack_length, unpack_packBits]

/-- Whole bytes need no pad, so packing undoes unpacking (20_memory R67, R68). -/
theorem packBits_unpack (bytes : List Byte) : packBits (unpackBytes bytes) = bytes := by
  have len : (closeBits (unpackBytes bytes)).length / 8 = bytes.length := by
    simp only [closeBits, padBits, List.length_append, List.length_replicate, unpack_length]
    omega
  rw [packBits, len]
  exact packBytes_unpack bytes _

/-- Unpacked, bit `7 - k` of byte `j` is the bit at `8 * j + k` (20_memory R66, R68). -/
theorem unpack_getElem? (bytes : List Byte) (j : Nat) {k : Nat} (hk : k < 8) :
    (unpackBytes bytes)[8 * j + k]? = (bytes[j]?).map fun b => b.getLsbD (7 - k) := by
  induction bytes generalizing j with
  | nil => simp [unpackBytes]
  | cons b bytes ih =>
    cases j with
    | zero =>
      rw [unpack_cons, List.getElem?_append_left (by simp; omega), Nat.mul_zero, Nat.zero_add,
        bitsOf_getElem? b.toNat hk]
      rfl
    | succ j =>
      rw [unpack_cons, List.getElem?_append_right (by simp; omega), List.getElem?_cons_succ, ← ih j]
      congr 1
      simp
      omega

/-- Settles O2: unpacking a packed sequence gives it back with its pad, and the place of each bit in the bytes is
read off the unpacked sequence. -/
theorem packingRule : Obligations.PackingRule := by
  unfold Obligations.PackingRule
  refine ⟨fun bits => ⟨?length, ?place, unpack_packBits bits⟩,
    fun bytes => ⟨packBits_unpack bytes, fun j _ hk => unpack_getElem? bytes j hk⟩⟩
  case length => simp [packBits_length, closeBits, padBits]
  case place =>
    intro k h
    have unpacked := unpack_getElem? (packBits bits) (k / 8) (Nat.mod_lt k (by decide))
    rw [Nat.div_add_mod, unpack_packBits, closeBits, List.getElem?_append_left h,
      List.getElem?_eq_getElem h] at unpacked
    exact Option.map_eq_some_iff.mp unpacked.symm

/-! The address map. -/

/-- A legal access (20_memory R70). -/
theorem accessedReg_eq_ok_iff {addr : Addr} {size : Nat} {r : Reg} :
    accessedReg addr size = .ok r ↔ size = 4 ∧ addr.toNat % 4 = 0 ∧ regAt addr = some r := by
  unfold accessedReg
  by_cases hs : size = 4
  · by_cases ha : addr.toNat % 4 = 0
    · cases hr : regAt addr <;> simp [hs, ha]
    · simp [hs, ha]
  · simp [hs]

theorem regAt_freq (sym : Fin 257) : regAt (BitVec.ofNat 16 (0x0400 + 4 * sym.val)) = some (.freq sym) :=
  (accessedReg_eq_ok_iff.mp (accessedReg_freq sym)).2.2

/-- The word number in a table of words is the entry's index. -/
theorem ofNat_wordNumber {n : Nat} [NeZero n] (base : Nat) (i : Fin n) :
    Fin.ofNat n ((base + 4 * i.val - base) / 4) = i := by
  rw [Nat.add_sub_cancel_left, Nat.mul_div_cancel_left _ (by decide)]
  exact Fin.ofNat_val_eq_self i

theorem regAt_node (i : NodeIdx) : regAt (BitVec.ofNat 16 (0x1000 + 4 * i.val)) = some (.node i) := by
  simp (disch := omega) only [regAt, toNat_ofNat_of_lt, if_neg, if_pos, ofNat_wordNumber]

theorem regAt_nodeW (i : NodeIdx) : regAt (BitVec.ofNat 16 (0x2000 + 4 * i.val)) = some (.nodeW i) := by
  simp (disch := omega) only [regAt, toNat_ofNat_of_lt, if_neg, if_pos, ofNat_wordNumber]

theorem regAt_codeLen (sym : Fin 257) : regAt (BitVec.ofNat 16 (0x3000 + 4 * sym.val)) = some (.codeLen sym) := by
  simp (disch := omega) only [regAt, toNat_ofNat_of_lt, if_neg, if_pos, ofNat_wordNumber]

theorem regAt_codeVal (sym : Fin 257) (w : Fin 8) :
    regAt (BitVec.ofNat 16 (0x4000 + 32 * sym.val + 4 * w.val)) = some (.codeVal sym w) := by
  have entry : (0x4000 + 32 * sym.val + 4 * w.val - 0x4000) / 32 = sym.val := by omega
  have word : (0x4000 + 32 * sym.val + 4 * w.val - 0x4000) % 32 / 4 = w.val := by omega
  simp (disch := omega) only [regAt, toNat_ofNat_of_lt, if_neg, if_pos, entry, word, Fin.ofNat_val_eq_self]

theorem controlReg_ne_none {n : Nat} (h : n < 9) : controlReg n ≠ none := by
  interval_cases n <;> nofun

/-- Outside the mapped ranges nothing is mapped, and inside each of them every word is (20_memory R71). -/
theorem regAt_eq_none_iff (addr : Addr) : regAt addr = none ↔
    (0x0024 ≤ addr.toNat ∧ addr.toNat ≤ 0x03FF) ∨ (0x0804 ≤ addr.toNat ∧ addr.toNat ≤ 0x0FFF) ∨
    (0x1804 ≤ addr.toNat ∧ addr.toNat ≤ 0x1FFF) ∨ (0x2804 ≤ addr.toNat ∧ addr.toNat ≤ 0x2FFF) ∨
    (0x3404 ≤ addr.toNat ∧ addr.toNat ≤ 0x3FFF) ∨ 0x6020 ≤ addr.toNat := by
  unfold regAt
  dsimp only
  split_ifs
  next => exact iff_of_false (controlReg_ne_none (by omega)) (by omega)
  next => exact iff_of_false nofun (by omega)
  next => exact iff_of_false nofun (by omega)
  next => exact iff_of_false nofun (by omega)
  next => exact iff_of_false nofun (by omega)
  next => exact iff_of_false nofun (by omega)
  next => exact iff_of_true rfl (by omega)

/-- Settles O9: the control words by evaluation, and each table and the unmapped ranges by a lemma. -/
theorem registerMap : Obligations.RegisterMap :=
  ⟨rfl, rfl, rfl, rfl, rfl, rfl, rfl, rfl, rfl, regAt_freq, regAt_node, regAt_nodeW, regAt_codeLen, regAt_codeVal,
    regAt_eq_none_iff⟩

/-! Register accesses. -/

theorem accessedReg_illegal {addr : Addr} {size : Nat} (h : size ≠ 4 ∨ addr.toNat % 4 ≠ 0 ∨ regAt addr = none) :
    ∃ e, accessedReg addr size = .error e := by
  cases ha : accessedReg addr size with
  | error e => exact ⟨e, rfl⟩
  | ok r =>
    obtain ⟨hs, hm, hr⟩ := accessedReg_eq_ok_iff.mp ha
    simp [hs, hm, hr] at h

/-- While BUSY = 1 the host may only read STATUS or reset the core (20_memory R70). -/
theorem allowed_busy_iff (op : HostOp) : op.allowed true = true ↔ op = .read 0x0004 4 ∨ op = .reset := by
  cases op with
  | read addr size => simp [HostOp.allowed]
  | _ => simp [HostOp.allowed]

theorem hostAct_not_allowed {op : HostOp} {s : State} (h : op.allowed s.status.busy = false) :
    hostAct exec op s = .refused .busy := by
  simp [hostAct, h]

theorem hostAct_read_legal {addr : Addr} {size : Nat} {r : Reg} {s : State}
    (ha : (HostOp.read addr size).allowed s.status.busy = true) (hr : accessedReg addr size = .ok r) :
    hostAct exec (.read addr size) s = .next { s with reads := s.reads ++ [readReg r s] } := by
  simp [hostAct, ha, memRead, hr]

theorem hostAct_read_illegal {addr : Addr} {size : Nat} {e : Refusal} (s : State)
    (hr : accessedReg addr size = .error e) : ∃ e, hostAct exec (.read addr size) s = .refused e := by
  cases ha : (HostOp.read addr size).allowed s.status.busy with
  | false => exact ⟨_, hostAct_not_allowed ha⟩
  | true => exact ⟨e, by simp [hostAct, ha, memRead, hr]⟩

theorem hostAct_write_refused {addr : Addr} {size : Nat} {v : Word} {s : State} {e : Refusal}
    (hm : memWrite exec addr size v s = .refused e) : ∃ e, hostAct exec (.write addr size v) s = .refused e := by
  cases ha : (HostOp.write addr size v).allowed s.status.busy with
  | false => exact ⟨_, hostAct_not_allowed ha⟩
  | true => exact ⟨e, by simp [hostAct, ha, hm]⟩

theorem memWrite_illegal {addr : Addr} {size : Nat} {e : Refusal} (v : Word) (s : State)
    (h : accessedReg addr size = .error e) : memWrite exec addr size v s = .refused e := by
  simp [memWrite, h]

/-- A register other than CMD and FREQ is read-only (20_memory R70). -/
theorem memWrite_readOnly {addr : Addr} {size : Nat} {r : Reg} (v : Word) (s : State)
    (h : accessedReg addr size = .ok r) (hc : r ≠ .cmd) (hf : ∀ sym, r ≠ .freq sym) :
    memWrite exec addr size v s = .refused .readOnly := by
  cases r with
  | cmd => exact absurd rfl hc
  | freq sym => exact absurd rfl (hf sym)
  | _ => simp [memWrite, h]

/-- What the host has pending shows in no register. -/
theorem readReg_host (r : Reg) (ops : List HostOp) (s : State) : readReg r { s with host := ops } = readReg r s := by
  cases r <;> rfl

/-- Settles O10: a step of an idle core is the host's action, which is refused unless the interlock and the
address map let it through. -/
theorem registerAccess : Obligations.RegisterAccess := by
  unfold Obligations.RegisterAccess
  intro s ops hw
  refine ⟨?readLegal, ?readIllegal, ?writeIllegal, ?readOnly, ?readStatus, ?busy⟩
  case readLegal =>
    intro addr r hb hh ha hr
    rw [step_host hw hh, hostAct_read_legal (by simp [HostOp.allowed, hb])
      (accessedReg_eq_ok_iff.mpr ⟨rfl, ha, hr⟩), readReg_host]
  case readIllegal =>
    intro addr size hh hbad
    obtain ⟨_, he⟩ := accessedReg_illegal hbad
    rw [step_host hw hh]
    exact hostAct_read_illegal _ he
  case writeIllegal =>
    intro addr size v hh hbad
    obtain ⟨_, he⟩ := accessedReg_illegal hbad
    rw [step_host hw hh]
    exact hostAct_write_refused (memWrite_illegal v _ he)
  case readOnly =>
    intro addr size v r hh hr hc hf
    rw [step_host hw hh]
    cases ha : accessedReg addr size with
    | error e => exact hostAct_write_refused (memWrite_illegal v _ ha)
    | ok r' =>
      obtain ⟨_, _, hr'⟩ := accessedReg_eq_ok_iff.mp ha
      obtain rfl : r = r' := by simpa [hr] using hr'
      exact hostAct_write_refused (memWrite_readOnly v _ ha hc hf)
  case readStatus =>
    intro hb hh
    rw [step_host hw hh, hostAct_read_legal (r := .status) (by simp [HostOp.allowed]) rfl]
    rfl
  case busy =>
    intro hb op hh hread hreset
    rw [step_host hw hh]
    apply hostAct_not_allowed
    rw [← Bool.not_eq_true, hb, allowed_busy_iff]
    exact not_or.mpr ⟨hread, hreset⟩

/-! What an instruction leaves of the channels. -/

/-- Input data, FREQ, CMD and the host's side are the same, positions have not gone back, and outputs have only
been appended to (20_memory R75, R83, R85; 10_state R37). -/
def Disciplined (s t : State) : Prop :=
  t.symIn.data = s.symIn.data ∧ t.bitIn.data = s.bitIn.data ∧
  s.symIn.pos ≤ t.symIn.pos ∧ s.bitIn.pos ≤ t.bitIn.pos ∧
  s.bitOut <+: t.bitOut ∧ s.symOut <+: t.symOut ∧
  t.freq = s.freq ∧ t.cmd = s.cmd ∧ t.host = s.host ∧ t.reads = s.reads ∧ t.packed = s.packed

theorem disciplined_of_kept {s u : State} (h : s.Kept u) : Disciplined s u := by
  obtain ⟨bits, hb⟩ := h.bitOut
  obtain ⟨syms, hs⟩ := h.symOut
  exact ⟨h.symData, h.bitData, h.symPos.1, h.bitPos.1, ⟨bits, hb.symm⟩, ⟨syms, hs.symm⟩,
    h.freq, h.cmd, h.host, h.reads, h.packed⟩

/-- The end of a command touches none of it. -/
theorem Disciplined.finish {s u : State} (h : Disciplined s u) : Disciplined s u.finish := h

theorem Disciplined.abort {s u : State} (h : Disciplined s u) (k : ErrKind) (inf : Option Word) :
    Disciplined s (u.abort k inf) := h

theorem exec_command_disciplined {i : Instr} (hi : i ∈ commands) {s t : State} (h : exec i s = .next t) :
    Disciplined s t := by
  obtain ⟨u, hk, rfl | ⟨k, inf, rfl⟩⟩ := exec_command_ended hi h
  · exact (disciplined_of_kept hk).finish
  · exact (disciplined_of_kept hk).abort k inf

/-- An instruction that is no command is a token. -/
theorem exec_token {i : Instr} (hi : i ∉ commands) (s : State) : exec i s = (tokenBody i s).concludeToken := by
  cases i with
  | internal => rfl
  | leaf sym => rfl
  | _ => exact absurd (by decide) hi

/-- Outside a header decode no instruction acts as a token (42_header_codec R145; log 3). -/
theorem tokenBody_idle (i : Instr) {s : State} (hw : s.work = none) : tokenBody i s = .refused .noHeaderDecode := by
  cases i with
  | internal => simp [tokenBody, internalBody, hw]
  | leaf sym => simp [tokenBody, leafBody, hw]
  | _ => rfl

/-- A token's next state: the decode goes on or is complete, or an error has been taken. -/
theorem concludeToken_next {b : Body} {t : State} (h : b.concludeToken = .next t) :
    (∃ u, b = .ok u ∧ (t = u ∨ t = u.finish)) ∨ ∃ k inf u, b = .raised k inf u ∧ t = u.abort k inf := by
  cases b with
  | ok u =>
    rw [Body.concludeToken] at h
    split at h
    · cases h; exact .inl ⟨_, rfl, .inr rfl⟩
    · cases h; exact .inl ⟨_, rfl, .inl rfl⟩
  | raised k inf u => cases h; exact .inr ⟨k, inf, u, rfl, rfl⟩
  | fault => cases h
  | refused => cases h

theorem exec_token_disciplined {i : Instr} (hi : i ∉ commands) {s t : State} (h : exec i s = .next t) :
    Disciplined s t := by
  rw [exec_token hi] at h
  rcases hw : s.work with _ | w
  · rw [tokenBody_idle i hw] at h
    cases h
  · have ends := tokenBody_ends (i := i) hw
    obtain ⟨u, hb, ht⟩ | ⟨k, inf, u, hb, rfl⟩ := concludeToken_next h
    · rw [hb] at ends
      have hu : Disciplined s u := disciplined_of_kept (kept_of_built ends.1)
      obtain rfl | rfl := ht
      · exact hu
      · exact hu.finish
    · rw [hb] at ends
      obtain ⟨_, _, rfl⟩ := ends
      exact (disciplined_of_kept (.refl _)).abort k inf

/-- Settles O26: an instruction is a command or a token. -/
theorem channelDiscipline : Obligations.ChannelDiscipline := by
  unfold Obligations.ChannelDiscipline
  intro i s t h
  by_cases hi : i ∈ commands
  · exact exec_command_disciplined hi h
  · exact exec_token_disciplined hi h

end Sys2Proof.Proofs
end

section
/-! The encodings: command words (30_encoding R88, R94 to R97), header tokens (R99, R101) and the host's channel
operations (R108). -/

namespace Sys2Proof.Proofs

open Sys2Proof Sys2Proof.Machine

/-! Decoding what the encoder writes. -/

theorem decodeCmd_encodeWord {i : Instr} (hi : i ∈ commands) :
    decodeCmd (BitVec.ofNat 32 (encodeWord i)) = .ok i := by
  fin_cases hi <;> rfl

theorem encodeBits_internal : encodeBits .internal = [false] := rfl

/-- A leaf token is a 1 and nine symbol bits (30_encoding R99). -/
theorem encodeBits_leaf (sym : Nat) : encodeBits (.leaf sym) = true :: bitsOf 9 sym := by
  have tag : Nat.testBit (2 ^ 9 + sym % 512) 9 = true := by
    have lt : sym % 512 < 2 ^ 9 := Nat.mod_lt sym (by decide)
    rw [Nat.testBit_two_pow_add_eq, Nat.testBit_lt_two_pow lt]
    rfl
  have symbol : bitsOf 9 (1 * 2 ^ 9 + sym % 2 ^ 9) = bitsOf 9 sym := by
    rw [bitsOf_add_mul 9 9 _ 1 le_rfl, bitsOf_mod 9 9 _ le_rfl]
  exact congrArg₂ List.cons tag symbol

/-- Settles O6: a command by its word, a token by the bits it is made of. -/
theorem encodeDecode : Obligations.EncodeDecode := by
  unfold Obligations.EncodeDecode
  refine fun i wf => ⟨decodeCmd_encodeWord, fun hi rest => ?token⟩
  cases i with
  | internal => exact decode_internal rest
  | leaf sym =>
    have hsym : sym < 512 := of_decide_eq_true wf
    rw [encodeBits_leaf]
    exact decode_leaf hsym rest
  | _ => exact absurd (by decide) hi

/-! Which words are commands. -/

theorem eq_encodeWord_of_decodeOp {n : Nat} {i : Instr} (h : decodeOp n = .ok i) : n = encodeWord i := by
  unfold decodeOp at h
  split at h <;> cases h <;> rfl

theorem eq_encodeWord_of_decodeCmd {w : Word} {i : Instr} (h : decodeCmd w = .ok i) :
    w = BitVec.ofNat 32 (encodeWord i) := by
  unfold decodeCmd at h
  split at h
  next hrsvd =>
    rw [← eq_encodeWord_of_decodeOp h, Nat.mod_eq_of_lt (by omega), BitVec.ofNat_toNat, BitVec.setWidth_eq]
  next => cases h

/-- The reserved values of OP (30_encoding R97). -/
theorem decodeOp_error_iff {n : Nat} (h : n < 16) :
    (∃ e, decodeOp n = .error e) ↔ n ∈ [0x0, 0xB, 0xC, 0xD, 0xE, 0xF] := by
  interval_cases n <;> simp [decodeOp]

/-- The illegal command words (30_encoding R97). -/
theorem decodeCmd_error_iff (w : Word) : (∃ e, decodeCmd w = .error e) ↔
    w.toNat / 16 ≠ 0 ∨ w.toNat % 16 ∈ [0x0, 0xB, 0xC, 0xD, 0xE, 0xF] := by
  rw [decodeCmd]
  split
  next hrsvd =>
    rw [decodeOp_error_iff (Nat.mod_lt _ (by decide))]
    simp only [ne_eq, hrsvd, not_true, false_or]
  next hrsvd => exact iff_of_true ⟨_, rfl⟩ (.inl hrsvd)

/-- Settles O4: a word that decodes is the word of a command, and the others are those with a reserved field. -/
theorem commandDecode : Obligations.CommandDecode := by
  unfold Obligations.CommandDecode
  refine ⟨fun w i => ⟨fun h => ⟨decodeCmd_mem_commands h, eq_encodeWord_of_decodeCmd h⟩, ?word⟩,
    decodeCmd_error_iff⟩
  case word =>
    rintro ⟨hi, rfl⟩
    exact decodeCmd_encodeWord hi

/-- Settles O5: each word is evaluated. -/
theorem sampleWords : Obligations.SampleWords := by
  unfold Obligations.SampleWords
  decide

/-- Settles O18: the word is rejected, so the step is the abort with it. -/
theorem illegalCommandWords : Obligations.IllegalCommandWords := by
  unfold Obligations.IllegalCommandWords
  intro s ops w hw hb hh illegal
  obtain ⟨e, he⟩ := (decodeCmd_error_iff w).mpr illegal
  refine ⟨illegalCommand w { s with host := ops, cmd := w }, ?step, rfl, rfl, ?frame⟩
  case step => rw [step_write_cmd hw hb hh, writeCmd, he]
  case frame => simp only [illegalCommand, State.abort, State.start, hb, hw]

/-! The host's channel operations (30_encoding R108). -/

/-- With BUSY = 0 the host may take any action. -/
theorem allowed_idle (op : HostOp) : op.allowed false = true := by
  cases op <;> rfl

/-- An idle core with nothing pending (60_exceptions R223; log 22). -/
theorem step_idle {s : State} (hw : s.work = none) (hh : s.host = []) : step s = .next s := by
  simp only [step, stepWith, hw, hh]

/-- Settles O19: the step of an idle core is the host's action, and with none it keeps the state. -/
theorem hostActions : Obligations.HostActions := by
  unfold Obligations.HostActions
  intro s ops hw hb
  refine ⟨fun bytes hh => ?loadSym, fun hh => ?rewindSym, fun bits hh => ?loadBits, fun bytes hh => ?loadBytes,
    fun hh => ?clearOut, fun hh => ?closeOut, step_idle hw⟩
  all_goals rw [step_host hw hh, hostAct, if_pos (by rw [hb, allowed_idle])]

end Sys2Proof.Proofs
end

section
/-! Headers as bit sequences (30_encoding R100, R102), and how HDR_DECODE ends. -/

namespace Sys2Proof.Proofs

open Sys2Proof Sys2Proof.Machine

theorem header_eq_encoded_tokens (t : Machine.Tree) : t.header = t.tokens.flatMap encodeBits := by
  induction t with
  | leaf sym => simp [Tree.header, Tree.tokens, encodeBits_leaf]
  | node l r ihl ihr => simp [Tree.header, Tree.tokens, encodeBits_internal, ihl, ihr]

theorem tokens_count_internal (t : Machine.Tree) : t.tokens.count .internal = t.leafCount - 1 := by
  induction t with
  | leaf sym => rfl
  | node l r ihl ihr =>
    have := leafCount_pos l
    have := leafCount_pos r
    simp only [Tree.tokens, Tree.leafCount, List.count_cons_self, List.count_append, ihl, ihr]
    omega

theorem tokens_leaves_length (t : Machine.Tree) :
    (t.tokens.filter fun i => i ≠ .internal).length = t.leafCount := by
  induction t with
  | leaf sym => rfl
  | node l r ihl ihr =>
    rw [Tree.tokens, List.filter_cons_of_neg (by simp), List.filter_append, List.length_append, ihl, ihr,
      Tree.leafCount]

/-- No header is the beginning of another: a bit sequence begins with at most one (30_encoding R100). -/
theorem header_append_inj {t u : Machine.Tree} {r r' : List Bool} (h : t.header ++ r = u.header ++ r') :
    t = u ∧ r = r' := by
  induction t generalizing u r r' with
  | leaf a =>
    cases u with
    | leaf b =>
      obtain ⟨hbits, hr⟩ := List.append_inj (List.cons.inj h).2 (by simp)
      exact ⟨congrArg Tree.leaf (BitVec.eq_of_toNat_eq (bitsOf_inj a.isLt b.isLt hbits)), hr⟩
    | node => cases h
  | node l t ihl iht =>
    cases u with
    | leaf => cases h
    | node l' t' =>
      have parts : l.header ++ (t.header ++ r) = l'.header ++ (t'.header ++ r') := by
        simpa [Tree.header] using h
      obtain ⟨rfl, rest⟩ := ihl parts
      obtain ⟨rfl, rfl⟩ := iht rest
      exact ⟨rfl, rfl⟩

/-- Settles O7: each count by induction on the tree, and unique parsing token by token. -/
theorem headerSelfDelimiting : Obligations.HeaderSelfDelimiting := by
  unfold Obligations.HeaderSelfDelimiting
  refine ⟨fun t => ⟨header_eq_encoded_tokens t, tokens_count_internal t, tokens_leaves_length t, leafCount_pos t,
    header_length t, fun hl => ?range⟩, fun t u r r' => header_append_inj⟩
  case range =>
    have := leafCount_pos t
    rw [header_length]
    omega

/-- Any nine bits after a leaf tag are a leaf's symbol (30_encoding R101). -/
theorem exists_leaf_header {bits : List Bool} (h : bits.length = 9) :
    ∃ sym, (Machine.Tree.leaf sym).header = true :: bits := by
  have lt : valOf bits < 2 ^ 9 := h ▸ valOf_lt bits
  refine ⟨BitVec.ofNat 9 (valOf bits), ?_⟩
  rw [Tree.header, toNat_ofNat_of_lt lt, ← h, bitsOf_valOf]

/-- A bit sequence begins with a complete header. -/
def BeginsWithHeader (bits : List Bool) : Prop :=
  ∃ (t : Machine.Tree) (r : List Bool), bits = t.header ++ r

/-- A bit sequence is the beginning of a longer header. -/
def BeginsHeader (bits : List Bool) : Prop :=
  ∃ (t : Machine.Tree) (x : List Bool), x ≠ [] ∧ bits ++ x = t.header

/-- A leaf tag and what follows it: a whole leaf token, or the beginning of one. -/
theorem leaf_tag_total (bits : List Bool) : BeginsWithHeader (true :: bits) ∨ BeginsHeader (true :: bits) := by
  by_cases h : 9 ≤ bits.length
  · obtain ⟨sym, hsym⟩ := exists_leaf_header (bits := bits.take 9) (by simpa using h)
    refine .inl ⟨.leaf sym, bits.drop 9, ?_⟩
    rw [hsym, List.cons_append, List.take_append_drop]
  · have lt : bits.length < 9 := Nat.lt_of_not_le h
    obtain ⟨sym, hsym⟩ := exists_leaf_header (bits := bits ++ List.replicate (9 - bits.length) false)
      (by rw [List.length_append, List.length_replicate]; omega)
    refine .inr ⟨.leaf sym, List.replicate (9 - bits.length) false, ?_, hsym.symm⟩
    rw [ne_eq, List.replicate_eq_nil_iff]
    omega

/-- Every bit sequence is a header and more, or the beginning of one (30_encoding R102). -/
theorem header_total (bits : List Bool) : BeginsWithHeader bits ∨ BeginsHeader bits := by
  match bits with
  | [] => exact .inr ⟨.leaf 0, _, header_ne_nil _, List.nil_append _⟩
  | true :: bits => exact leaf_tag_total bits
  | false :: bits =>
    rcases header_total bits with ⟨l, rest, hl⟩ | ⟨l, x, hx, hl⟩
    · rcases header_total rest with ⟨r, rest', hr⟩ | ⟨r, x, hx, hr⟩
      · exact .inl ⟨.node l r, rest', by simp [Tree.header, hl, hr]⟩
      · exact .inr ⟨.node l r, x, hx, by simp [Tree.header, hl, hr]⟩
    · exact .inr ⟨.node l (.leaf 0), x ++ (Tree.leaf 0).header, List.append_ne_nil_of_left_ne_nil hx _,
        by simp [Tree.header, ← hl]⟩
  termination_by bits.length
  decreasing_by
    · simp
    · simp [hl]

theorem exec_hdrDecode (s : State) : exec .hdrDecode s = (hdrDecodeBody s.start).conclude :=
  exec_command (by decide) s

/-- HDR_DECODE stops in no state (30_encoding R102). -/
theorem hdrDecodeBody_ends_or_raises (s : State) :
    (∃ u, hdrDecodeBody s = .ok u) ∨ ∃ k inf u, hdrDecodeBody s = .raised k inf u :=
  headerLoop_ends_or_raises _ s.beginHeader nofun

/-- What an ended HDR_DECODE has changed, in terms of the state before its start (42_header_codec R144). -/
theorem headerRead_frame {s u : State} (h : s.start.HeaderRead u) : u = { s with
    nodes := u.nodes
    nodeW := u.nodeW
    root := u.root
    nodeCount := u.nodeCount
    bitIn := { data := s.bitIn.data, pos := u.bitIn.pos }
    draws := u.draws
    work := u.work
    status := u.status
    err := none
    errInfo := none } := by
  have data : s.bitIn.data = u.bitIn.data := h.data.symm
  rw [data, h.frame]
  rfl

/-- Settles O8: a sequence is parsed tag by tag, and HDR_DECODE ends by the law of its body. -/
theorem headerDecodeTotal : Obligations.HeaderDecodeTotal := by
  unfold Obligations.HeaderDecodeTotal
  refine ⟨header_total, fun s => ?_⟩
  have ends := hdrDecodeBody_ends s.start
  rw [exec_hdrDecode]
  rcases hdrDecodeBody_ends_or_raises s.start with ⟨u, hu⟩ | ⟨k, inf, u, hu⟩
  · rw [hu] at ends ⊢
    obtain ⟨read, work, _⟩ := ends
    have frame := headerRead_frame read
    have err : u.err = none := by rw [frame]
    refine ⟨u.finish, rfl, .inl err, ?_⟩
    rw [finish_err, err, State.finish]
    conv_lhs => rw [frame, work]
  · rw [hu] at ends ⊢
    obtain ⟨kind, rfl, read, _⟩ := ends
    refine ⟨u.abort k none, rfl, .inr (kind.imp (congrArg some) (congrArg some)), ?_⟩
    conv_lhs => rw [headerRead_frame read]
    rfl

end Sys2Proof.Proofs
end

section
/-! STREAM_ENCODE as a step (30_encoding R105; 43_stream_encoder R162, R166). -/

namespace Sys2Proof.Proofs

open Sys2Proof Sys2Proof.Machine

/-- Settles O44: the encoder's loop appends the body, whose length is that of its codes. -/
theorem streamEncodeResult : Obligations.StreamEncodeResult := by
  unfold Obligations.StreamEncodeResult
  intro s body valid hbody
  refine ⟨?_, bodyOf_length _ hbody⟩
  rw [exec_streamEncode valid, ← start_symIn, encodeLoop_body (s := s.start) rfl hbody]
  rfl

end Sys2Proof.Proofs
end

section
/-! The tree BUILD_TREE stores (40_tree_builder R112 to R122): its nodes by index, their order and their weights. -/

namespace Sys2Proof.Proofs

open Sys2Proof Sys2Proof.Machine

/-! The leaves of a table, by symbol (40_tree_builder R114). -/

theorem counts_getElem (s : State) (sym : Fin 257) (h : sym.val < (counts s.freq).length) :
    (counts s.freq)[sym.val] = s.count sym := by
  simp [counts_eq_map_count]

theorem take_finRange (n k : Nat) :
    (List.finRange n).take k = (List.finRange n).filter fun i => decide (i.val < k) := by
  induction n generalizing k with
  | zero => simp
  | succ n ih =>
    rw [List.finRange_succ]
    cases k with
    | zero => simp
    | succ k => simp [← List.map_take, ih, List.filter_map, Function.comp_def]

theorem leafIndex_eq (s : State) (sym : Fin 257) :
    s.leafIndex sym = ((counts s.freq).take sym.val).countP (· ≠ 0) := by
  rw [counts_eq_map_count, ← List.map_take, take_finRange, List.countP_map, List.countP_filter,
    State.leafIndex, State.counted, List.filter_filter, ← List.countP_eq_length_filter]
  exact List.countP_congr fun i _ => by simp [and_comm]

theorem leafIndex_lt_of_lt {s : State} {sym sym' : Fin 257} (h : s.count sym ≠ 0) (hlt : sym < sym') :
    s.leafIndex sym < s.leafIndex sym' := by
  have hk : sym.val < (counts s.freq).length := by rw [counts_length]; exact sym.isLt
  rw [leafIndex_eq, leafIndex_eq]
  calc ((counts s.freq).take sym.val).countP (· ≠ 0)
      < ((counts s.freq).take (sym.val + 1)).countP (· ≠ 0) := by
        rw [List.take_succ_eq_append_getElem hk, List.countP_append, counts_getElem]
        simp [h]
    _ ≤ ((counts s.freq).take sym'.val).countP (· ≠ 0) :=
        (List.take_prefix_take_left hlt).sublist.countP_le

theorem leafIndex_eos (s : State) : s.leafIndex 256 + 1 = s.counted.length := by
  rw [leafIndex_eq, counted_length]
  simp [counts]

/-! The nodes BUILD_TREE stores. -/

/-- The nodes of the tree of a table, by index. -/
def builtNodes (freq : Vector Word 256) : List Entry :=
  (huffman (counts freq)).2

/-- The state BUILD_TREE's body ends in. -/
def treeStored (s : State) : State :=
  s.dropTree.storeTree (huffman (counts s.freq)).1 (builtNodes s.freq)

/-- The state BUILD_TREE leaves where it ends well. -/
def builtState (s : State) : State :=
  (treeStored s.start).finish

variable {s : State} {i : NodeIdx} {e : Entry}

theorem runCommand_buildTreeBody {w : Nat} (h : withinWeightBound w s.freq = true) :
    runCommand (buildTreeBody w) s = .next (builtState s) := by
  rw [runCommand, buildTreeBody, start_freq, if_pos h]
  rfl

theorem exec_buildTree_builtState (h : s.WeightBound) : exec .buildTree s = .next (builtState s) :=
  exec_buildTree h

theorem eq_builtState {t : State} (h : exec .buildTree s = .next t) : s.WeightBound ∧ t = builtState s :=
  exec_buildTree_next h

/-- A tree of `L` leaves has `2 L - 1` nodes (40_tree_builder R122). -/
theorem builtNodes_length (s : State) : (builtNodes s.freq).length + 1 = 2 * s.counted.length := by
  rw [counted_length]
  exact (built_counts s.freq).length

theorem builtNodes_length_le (freq : Vector Word 256) : (builtNodes freq).length ≤ 513 :=
  built_length_le (built_counts freq) (counts_length freq).le

theorem counted_length_le (s : State) : s.counted.length ≤ 257 := by
  have := builtNodes_length s
  have := builtNodes_length_le s.freq
  omega

@[simp] theorem builtState_nodeCount (s : State) : (builtState s).nodeCount.val = (builtNodes s.freq).length :=
  Nat.mod_eq_of_lt (Nat.lt_succ_of_le (builtNodes_length_le s.freq))

theorem builtState_root (s : State) : (builtState s).root.val + 1 = (builtNodes s.freq).length :=
  (built_counts s.freq).atRoot

theorem builtState_node (he : (builtNodes s.freq)[i.val]? = some e) : (builtState s).nodes[i] = e.node := by
  simp [builtState, treeStored, he]

theorem builtState_nodeW (he : (builtNodes s.freq)[i.val]? = some e) :
    (builtState s).nodeW[i] = BitVec.ofNat 32 e.weight := by
  simp [builtState, treeStored, he]

theorem builtState_above (h : (builtNodes s.freq).length ≤ i.val) :
    (builtState s).nodes[i] = s.nodes[i] ∧ (builtState s).nodeW[i] = s.nodeW[i] := by
  simp [builtState, treeStored, List.getElem?_eq_none h]

theorem exists_entry (h : i.val < (builtNodes s.freq).length) : ∃ e, (builtNodes s.freq)[i.val]? = some e :=
  ⟨_, List.getElem?_eq_getElem h⟩

/-- Within the weight bound a stored weight is the entry's own (40_tree_builder R116). -/
theorem builtState_weight (hb : s.WeightBound) (he : (builtNodes s.freq)[i.val]? = some e) :
    (builtState s).nodeW[i].toNat = e.weight ∧ e.weight < 2 ^ Config.weightW := by
  have sum : (counts s.freq).sum < 2 ^ Config.weightW := by
    have := (withinWeightBound_iff s.freq).mp ((weightBound_iff s).mpr hb)
    simpa [counts] using this
  exact storeTree_weight (built_counts s.freq) weightW_le sum s.start.dropTree he

/-! Leaves below `L`, merges from `L` on. -/

theorem leafEntries_weight_pos {sym : Nat} {fs : List Nat} {e : Entry} (h : e ∈ leafEntries sym fs) :
    1 ≤ e.weight := by
  induction fs generalizing sym with
  | nil => simp [leafEntries] at h
  | cons f fs ih =>
    rw [leafEntries] at h
    split at h
    next => exact ih h
    next hf =>
      rcases List.mem_cons.mp h with rfl | h
      · exact Nat.one_le_iff_ne_zero.mpr hf
      · exact ih h

theorem builtNodes_leaf_of_lt {k : Nat} (h : k < s.counted.length) :
    ∃ sym w, (builtNodes s.freq)[k]? = some ⟨.leaf sym, w⟩ ∧ 1 ≤ w := by
  obtain ⟨suffix, split⟩ := (built_counts s.freq).pre
  have hk : k < (leafEntries 0 (counts s.freq)).length := by rwa [leafEntries_length, ← counted_length]
  obtain ⟨sym, node⟩ := leafEntries_leaf (List.getElem_mem hk)
  refine ⟨sym, _, ?_, leafEntries_weight_pos (List.getElem_mem hk)⟩
  rw [builtNodes, ← split, List.getElem?_append_left hk, List.getElem?_eq_getElem hk, ← node]

theorem builtNodes_leafIndex {sym : Fin 257} (h : s.count sym ≠ 0) :
    (builtNodes s.freq)[s.leafIndex sym]? = some ⟨.leaf (BitVec.ofNat 9 sym.val), s.count sym⟩ := by
  obtain ⟨suffix, split⟩ := (built_counts s.freq).pre
  have hk : sym.val < (counts s.freq).length := by rw [counts_length]; exact sym.isLt
  have leaf := leafEntries_get 0 (counts s.freq) hk (by rwa [counts_getElem])
  rw [← leafIndex_eq, counts_getElem, Nat.zero_add] at leaf
  rw [builtNodes, ← split, List.getElem?_append_left (List.getElem?_eq_some_iff.mp leaf).1, leaf]

theorem builtNodes_merged {n : Nat} (hL : s.counted.length ≤ n) (hn : n < (builtNodes s.freq).length) :
    Merged (builtNodes s.freq) n :=
  (built_counts s.freq).merged n (by rwa [← counted_length]) hn

theorem merged_children {es : List Entry} {n : Nat} (h : Merged es n) :
    ∃ (l r : NodeIdx) (wl wr : Nat), es[n]? = some ⟨.internal l r, wl + wr⟩ ∧ l.val < n ∧ r.val < n ∧
      (es[l.val]?).map Entry.weight = some wl ∧ (es[r.val]?).map Entry.weight = some wr := by
  obtain ⟨l, r, wl, wr, he, hl, hr, hwl, hwr, _⟩ := h
  exact ⟨l, r, wl, wr, he, hl, hr, hwl, hwr⟩

end Sys2Proof.Proofs
end

section
/-! The statements of 40_tree_builder. -/

namespace Sys2Proof.Proofs

open Sys2Proof Sys2Proof.Machine

/-- Settles O27, from the nodes BUILD_TREE stores: the leaves come first, and a merge takes earlier nodes. -/
theorem buildTreeShape : Obligations.BuildTreeShape := by
  unfold Obligations.BuildTreeShape
  intro s hb
  have length := builtNodes_length s
  have root := builtState_root s
  have leaves := leafIndex_eos s
  have nodeCount := builtState_nodeCount s
  refine ⟨builtState s, exec_buildTree_builtState hb, rfl, rfl, by omega, counted_length_le s, by omega, by omega,
    by omega, fun i hi => ?leaf, fun i hL hi => ?internal⟩
  case leaf =>
    obtain ⟨sym, w, he, _⟩ := builtNodes_leaf_of_lt hi
    exact ⟨sym, builtState_node he⟩
  case internal =>
    obtain ⟨l, r, wl, wr, he, hl, hr, _⟩ := merged_children (builtNodes_merged hL (nodeCount ▸ hi))
    exact ⟨l, r, builtState_node he, hl, hr⟩

/-- Settles O28, from the leaf of a symbol among the nodes BUILD_TREE stores. -/
theorem buildTreeLeafOrder : Obligations.BuildTreeLeafOrder := by
  unfold Obligations.BuildTreeLeafOrder
  intro s t h
  obtain ⟨hb, rfl⟩ := eq_builtState h
  refine ⟨fun sym hc => ?leaf, leafIndex_eos s, fun sym sym' => leafIndex_lt_of_lt⟩
  case leaf =>
    have he := builtNodes_leafIndex hc
    have hi : s.leafIndex sym < 513 :=
      (List.getElem?_eq_some_iff.mp he).1.trans_le (builtNodes_length_le s.freq)
    exact ⟨hi, builtState_node (i := ⟨_, hi⟩) he, (builtState_weight (i := ⟨_, hi⟩) hb he).1⟩

/-- Settles O33: by definition, and entry by entry above NODE_COUNT. -/
theorem buildTreeFrame : Obligations.BuildTreeFrame := by
  unfold Obligations.BuildTreeFrame
  intro s t h
  obtain ⟨_, rfl⟩ := eq_builtState h
  exact ⟨rfl, fun i hi => builtState_above (builtState_nodeCount s ▸ hi)⟩

/-! Weights. -/

/-- A leaf's weight is a non-zero count, and a merge adds two weights. -/
theorem builtNodes_weight_pos {s : State} (k : Nat) {e : Entry} (he : (builtNodes s.freq)[k]? = some e) : 1 ≤ e.weight := by
  induction k using Nat.strongRecOn generalizing e with
  | ind k ih =>
    by_cases hL : k < s.counted.length
    · obtain ⟨sym, w, he', pos⟩ := builtNodes_leaf_of_lt hL
      cases he.symm.trans he'
      exact pos
    · obtain ⟨l, r, wl, wr, he', hl, _, hwl, _⟩ :=
        merged_children (builtNodes_merged (not_lt.mp hL) (List.getElem?_eq_some_iff.mp he).1)
      cases he.symm.trans he'
      obtain ⟨el, hel, rfl⟩ := Option.map_eq_some_iff.mp hwl
      exact (ih l.val hl hel).trans (Nat.le_add_right _ _)

theorem builtState_weight_of_map {s : State} (hb : s.WeightBound) {i : NodeIdx} {w : Nat}
    (h : ((builtNodes s.freq)[i.val]?).map Entry.weight = some w) : (builtState s).nodeW[i].toNat = w := by
  obtain ⟨e, he, rfl⟩ := Option.map_eq_some_iff.mp h
  exact (builtState_weight hb he).1

/-- A stored internal node is a merge. -/
theorem builtNodes_internal {s : State} {k : Nat} {l r : NodeIdx} {w : Nat}
    (he : (builtNodes s.freq)[k]? = some ⟨.internal l r, w⟩) : s.counted.length ≤ k := by
  by_contra hL
  obtain ⟨sym, _, he', _⟩ := builtNodes_leaf_of_lt (not_le.mp hL)
  cases he.symm.trans he'

/-- Settles O30: the weights stored are those of the entries, which a merge adds. -/
theorem buildTreeWeights : Obligations.BuildTreeWeights := by
  unfold Obligations.BuildTreeWeights
  intro s t h i hi
  obtain ⟨hb, rfl⟩ := eq_builtState h
  rw [builtState_nodeCount] at hi
  obtain ⟨⟨node, w⟩, he⟩ := exists_entry hi
  obtain ⟨weight, bound⟩ := builtState_weight hb he
  have pos := builtNodes_weight_pos i.val he
  refine ⟨by omega, by omega, fun l r hn => ?sum⟩
  case sum =>
    obtain rfl : node = .internal l r := (builtState_node he).symm.trans hn
    obtain ⟨l', r', wl, wr, he', _, _, hwl, hwr⟩ := merged_children (builtNodes_merged (builtNodes_internal he) hi)
    cases he.symm.trans he'
    rw [weight, builtState_weight_of_map hb hwl, builtState_weight_of_map hb hwr]

/-! The order of merges. -/

theorem builtState_internal_iff {s : State} {m l r : NodeIdx} (hm : m.val < (builtNodes s.freq).length) :
    (builtState s).nodes[m] = .internal l r ↔ ∃ w, (builtNodes s.freq)[m.val]? = some ⟨.internal l r, w⟩ := by
  obtain ⟨⟨node, w⟩, he⟩ := exists_entry hm
  rw [builtState_node he, he]
  simp

/-- The live nodes are those no merge so far has taken (40_tree_builder R113). -/
theorem liveAt_iff {s : State} {n c : NodeIdx} (hn : n.val ≤ (builtNodes s.freq).length) :
    (builtState s).liveAt n c ↔ c < n ∧ Unused (builtNodes s.freq) n.val c.val := by
  refine and_congr_right fun _ => ⟨fun h m hm l r w he => ?_, fun h m l r hm he => ?_⟩
  · have hm' : m < 513 := hm.trans n.isLt
    have node := (builtState_internal_iff (m := ⟨m, hm'⟩) (hm.trans_le hn)).mpr ⟨w, he⟩
    obtain ⟨hl, hr⟩ := h ⟨m, hm'⟩ l r hm node
    exact ⟨fun e => hl (Fin.ext e), fun e => hr (Fin.ext e)⟩
  · obtain ⟨w, he⟩ := (builtState_internal_iff (lt_of_lt_of_le hm hn)).mp he
    obtain ⟨hl, hr⟩ := h m.val hm l r w he
    exact ⟨fun e => hl (congrArg Fin.val e), fun e => hr (congrArg Fin.val e)⟩

/-- The stored nodes have the order of the working set (40_tree_builder R115). -/
theorem lighter_of_le {s : State} (hb : s.WeightBound) {a b : NodeIdx} {wa wb : Nat}
    (ha : ((builtNodes s.freq)[a.val]?).map Entry.weight = some wa)
    (hb' : ((builtNodes s.freq)[b.val]?).map Entry.weight = some wb) (hne : a ≠ b)
    (h : (Live.mk wa a.val).le ⟨wb, b.val⟩) : (builtState s).lighter a b := by
  rw [State.lighter, builtState_weight_of_map hb ha, builtState_weight_of_map hb hb']
  exact h.imp_right (And.imp_right fun hle => lt_of_le_of_ne hle hne)

/-- Settles O29: what a merge of the loop takes, read off the node store. -/
theorem buildTreeMergeOrder : Obligations.BuildTreeMergeOrder := by
  unfold Obligations.BuildTreeMergeOrder
  intro s t h n hL hn
  obtain ⟨hb, rfl⟩ := eq_builtState h
  rw [builtState_nodeCount] at hn
  obtain ⟨a, b, wa, wb, he, ha, hb', hwa, hwb, hne, hab, freeA, freeB, least⟩ := builtNodes_merged hL hn
  have live := fun c => liveAt_iff (c := c) hn.le
  refine ⟨a, b, builtState_node he, (live a).mpr ⟨ha, freeA⟩, (live b).mpr ⟨hb', freeB⟩,
    lighter_of_le hb hwa hwb hne hab, fun c hc hca hcb => ?others⟩
  case others =>
    obtain ⟨hcn, free⟩ := (live c).mp hc
    obtain ⟨e, hce⟩ := exists_entry (lt_trans hcn hn)
    have weight : ((builtNodes s.freq)[c.val]?).map Entry.weight = some e.weight := by rw [hce]; rfl
    exact lighter_of_le hb hwb weight (Ne.symm hcb)
      (least c.val e.weight hcn weight (fun e => hca (Fin.ext e)) (fun e => hcb (Fin.ext e)) free)

end Sys2Proof.Proofs
end

section
/-! The total weight and the tables of one or two leaves. -/

namespace Sys2Proof.Proofs

open Sys2Proof Sys2Proof.Machine

theorem sum_toNat {n : Nat} (words : Vector Word n) :
    (words.toList.map BitVec.toNat).sum = ∑ i : Fin n, words[i].toNat := by
  rw [← List.sum_ofFn]
  congr 1
  exact List.ext_getElem (by simp) fun k _ _ => by simp

/-- The counts of an input's bytes add up to its length (00_scope R18). -/
theorem histogram_sum (input : List Byte) :
    ∑ x : Fin 256, histogram input (BitVec.ofNat 8 x.val) = input.length := by
  have count (x : Fin 256) : histogram input (BitVec.ofNat 8 x.val) = (input.map BitVec.toFin).count x := by
    have byte : (BitVec.ofNat 8 x.val).toFin = x := Fin.ext (toNat_ofNat_of_lt x.isLt)
    conv_rhs => rw [← byte]
    exact (List.count_map_of_injective input BitVec.toFin (fun _ _ => BitVec.eq_of_toFin_eq) _).symm
  simp only [count]
  simpa using Multiset.sum_count_eq_card (s := Finset.univ)
    (m := ((input.map BitVec.toFin : List (Fin 256)) : Multiset (Fin 256))) fun _ _ => Finset.mem_univ _

theorem counts_sum (freq : Vector Word 256) : (counts freq).sum = (freq.toList.map BitVec.toNat).sum + 1 := by
  simp [counts]

/-- The root's weight is the total of all counts, EOS's included (40_tree_builder R117). -/
theorem builtState_root_weight {s : State} (hb : s.WeightBound) :
    (builtState s).nodeW[(builtState s).root].toNat = (s.freq.toList.map BitVec.toNat).sum + 1 := by
  rw [← counts_sum]
  exact builtState_weight_of_map hb (built_counts s.freq).total

/-- Every other node has a parent, which its sibling makes heavier (40_tree_builder R117). -/
theorem exists_heavier {s : State} (hb : s.WeightBound) {i : NodeIdx} (hi : i.val < (builtState s).nodeCount.val)
    (hne : i ≠ (builtState s).root) : ∃ p : NodeIdx, p.val < (builtNodes s.freq).length ∧
      (builtState s).nodeW[i].toNat < (builtState s).nodeW[p].toNat := by
  obtain ⟨tree, is, ht, perm, _⟩ := storeTree_tree (built_counts s.freq) (counts_length s.freq).le s.start.dropTree
  have mem (k : Nat) : k ∈ is ↔ k < (builtNodes s.freq).length := by rw [perm.mem_iff, List.mem_range]; rfl
  have weights := buildTreeWeights s _ (exec_buildTree_builtState hb)
  rw [builtState_nodeCount] at hi
  simp only [builtState_nodeCount, ← mem] at weights
  obtain ⟨p, l, r, hp, node, child⟩ := isTreeAt_parent ht i.val ((mem _).mpr hi) fun e => hne (Fin.ext e)
  obtain ⟨hl, hr⟩ := isTreeAt_children ht p l r hp node
  obtain ⟨_, _, sum⟩ := weights p hp
  specialize sum l r node
  obtain ⟨posL, _⟩ := weights l hl
  obtain ⟨posR, _⟩ := weights r hr
  refine ⟨p, (mem _).mp hp, ?_⟩
  rcases child with e | e
  · obtain rfl := Fin.ext e
    omega
  · obtain rfl := Fin.ext e
    omega

/-- Settles O31: a body beyond the bound is refused; the root's weight is the total, which bounds every parent's;
a histogram adds up to the length. -/
theorem weightBoundRule : Obligations.WeightBoundRule := by
  unfold Obligations.WeightBoundRule
  refine ⟨fun s hb => ?refused, fun s t hb h => ?weights, fun s input hist => ?length⟩
  case refused =>
    have body : buildTreeBody Config.weightW s.start = .refused .weightBound :=
      if_neg fun h => hb ((weightBound_iff s).mp h)
    rw [exec_command (i := .buildTree) (by decide), exec_command (i := .compress) (by decide)]
    simp only [commandBody, compressBody, body]
    exact ⟨rfl, rfl⟩
  case weights =>
    obtain ⟨_, rfl⟩ := eq_builtState h
    refine ⟨builtState_root_weight hb, fun i hi hne => ?_⟩
    obtain ⟨p, hp, heavier⟩ := exists_heavier hb hi hne
    obtain ⟨e, he⟩ := exists_entry hp
    obtain ⟨weight, _⟩ := builtState_weight hb he
    have total : e.weight ≤ (counts s.freq).sum := (built_counts s.freq).bound e (List.mem_of_getElem? he)
    rw [builtState_root_weight hb, ← counts_sum]
    exact heavier.trans_le (weight.trans_le total)
  case length =>
    have two : 2 ≤ 2 ^ Config.weightW := Nat.le_self_pow (Nat.succ_ne_zero _) 2
    rw [State.WeightBound, sum_toNat]
    simp only [hist, histogram_sum]
    omega

/-! Tables of one or two leaves (40_tree_builder R118, R119). -/

theorem count_castSucc (s : State) (x : Fin 256) : s.count x.castSucc = s.freq[x].toNat := dif_pos x.isLt

theorem count_eos (s : State) : s.count 256 = 1 := rfl

theorem counted_perm {s : State} {syms : List (Fin 257)} (nodup : syms.Nodup)
    (h : ∀ sym, s.count sym ≠ 0 ↔ sym ∈ syms) : s.counted.Perm syms :=
  (List.perm_ext_iff_of_nodup ((List.nodup_finRange 257).filter _) nodup).mpr fun sym => by simp [h]

theorem leafIndex_of_perm {s : State} {syms : List (Fin 257)} (h : s.counted.Perm syms) (sym : Fin 257) :
    s.leafIndex sym = syms.countP (· < sym) := by
  rw [State.leafIndex, ← List.countP_eq_length_filter, h.countP_eq]

theorem counted_of_all_zero {s : State} (h : ∀ x : Fin 256, s.freq[x] = 0) : s.counted.Perm [256] := by
  refine counted_perm (List.nodup_singleton _) fun sym => ?_
  cases sym using Fin.lastCases with
  | last => exact iff_of_true one_ne_zero (List.mem_singleton_self _)
  | cast y =>
    have := y.castSucc_lt_last.ne
    simpa [count_castSucc, h] using this

theorem counted_of_single {s : State} {x : Fin 256} (hx : s.freq[x] ≠ 0) (h : ∀ y : Fin 256, y ≠ x → s.freq[y] = 0) :
    s.counted.Perm [x.castSucc, 256] := by
  have ne_eos (y : Fin 256) : y.castSucc ≠ 256 := y.castSucc_lt_last.ne
  refine counted_perm (by simpa using ne_eos x) fun sym => ?_
  cases sym using Fin.lastCases with
  | last => exact iff_of_true one_ne_zero (by simp)
  | cast y =>
    by_cases hy : y = x
    · subst hy
      simpa [count_castSucc, BitVec.toNat_eq] using hx
    · simp [count_castSucc, h y hy, hy, ne_eos y]

/-- The first merge of two leaves, the second of weight 1: a tie leaves the first in front (40_tree_builder R119). -/
theorem merged_two {es : List Entry} {f : Nat} (h : Merged es 2) (h0 : (es[0]?).map Entry.weight = some f)
    (h1 : (es[1]?).map Entry.weight = some 1) (hf : f ≠ 0) :
    ∃ w, es[2]? = some ⟨if f = 1 then .internal 0 1 else .internal 1 0, w⟩ := by
  obtain ⟨a, b, wa, wb, he, ha, hb, hwa, hwb, hne, hle, _⟩ := h
  refine ⟨wa + wb, he.trans ?_⟩
  have hne : a.val ≠ b.val := fun e => hne (Fin.ext e)
  have order : (a.val = 0 ∧ b.val = 1) ∨ (a.val = 1 ∧ b.val = 0) := by omega
  rcases order with ⟨ha0, hb1⟩ | ⟨ha1, hb0⟩
  · obtain rfl : a = 0 := Fin.ext ha0
    obtain rfl : b = 1 := Fin.ext hb1
    cases h0.symm.trans hwa
    cases h1.symm.trans hwb
    have tie : f = 1 := by simp [Live.le] at hle; omega
    rw [if_pos tie]
  · obtain rfl : a = 1 := Fin.ext ha1
    obtain rfl : b = 0 := Fin.ext hb0
    cases h1.symm.trans hwa
    cases h0.symm.trans hwb
    have more : f ≠ 1 := by simp [Live.le] at hle; omega
    rw [if_neg more]

theorem withinWeightBound_of_sum {w n : Nat} {freq : Vector Word 256} (hsum : ∑ x : Fin 256, freq[x].toNat = n)
    (h : n + 1 < 2 ^ w) : withinWeightBound w freq = true := by
  rw [withinWeightBound_iff, sum_toNat, hsum]
  exact h

theorem builtNodes_of_all_zero {s : State} (h : ∀ x : Fin 256, s.freq[x] = 0) :
    (builtNodes s.freq).length = 1 ∧ (builtNodes s.freq)[0]? = some ⟨.leaf 256, 1⟩ := by
  have perm := counted_of_all_zero h
  have length := builtNodes_length s
  have eos := builtNodes_leafIndex (s := s) (sym := 256) one_ne_zero
  rw [leafIndex_of_perm perm] at eos
  rw [perm.length_eq, List.length_singleton] at length
  exact ⟨by omega, eos⟩

theorem builtNodes_of_single {s : State} {x : Fin 256} (hx : s.freq[x] ≠ 0)
    (h : ∀ y : Fin 256, y ≠ x → s.freq[y] = 0) :
    (builtNodes s.freq).length = 3 ∧
      (builtNodes s.freq)[0]? = some ⟨.leaf (BitVec.ofNat 9 x.val), s.freq[x].toNat⟩ ∧
      (builtNodes s.freq)[1]? = some ⟨.leaf 256, 1⟩ ∧
      ∃ w, (builtNodes s.freq)[2]? = some ⟨if s.freq[x].toNat = 1 then .internal 0 1 else .internal 1 0, w⟩ := by
  have perm := counted_of_single hx h
  have below : x.castSucc < 256 := x.castSucc_lt_last
  have pos : s.freq[x].toNat ≠ 0 := fun e => hx (BitVec.eq_of_toNat_eq e)
  have length := builtNodes_length s
  have byte := builtNodes_leafIndex (s := s) (sym := x.castSucc) (by rwa [count_castSucc])
  have eos := builtNodes_leafIndex (s := s) (sym := 256) one_ne_zero
  have first : [x.castSucc, 256].countP (· < x.castSucc) = 0 := by simp [below.le]
  have second : [x.castSucc, 256].countP (· < 256) = 1 := by simp [below]
  rw [leafIndex_of_perm perm, first, count_castSucc] at byte
  rw [leafIndex_of_perm perm, second] at eos
  rw [perm.length_eq, List.length_cons, List.length_singleton] at length
  have merged := builtNodes_merged (s := s) (n := 2) perm.length_eq.le (by omega)
  exact ⟨by omega, byte, eos, merged_two merged (by rw [byte]; rfl) (by rw [eos]; rfl) pos⟩

/-- Settles O32: the counted symbols give the leaves, and the one merge of two leaves compares their weights. -/
theorem smallTrees : Obligations.SmallTrees := by
  unfold Obligations.SmallTrees
  refine ⟨fun _ => rfl, Nat.succ_pos _, weightW_le, fun w s hw _ => ⟨fun zero => ?one, fun x hx others bound => ?two⟩⟩
  case one =>
    obtain ⟨length, eos⟩ := builtNodes_of_all_zero zero
    have root := builtState_root s
    have nodeCount := builtState_nodeCount s
    have sum : ∑ x : Fin 256, s.freq[x].toNat = 0 := Finset.sum_eq_zero fun x _ => by simp [zero x]
    have within := withinWeightBound_of_sum sum (Nat.one_lt_two_pow (by omega : w ≠ 0))
    rw [length] at root nodeCount
    exact ⟨builtState s, runCommand_buildTreeBody within, builtState_node (i := 0) eos, builtState_nodeW (i := 0) eos,
      Fin.ext (Nat.succ.inj root), Fin.ext nodeCount⟩
  case two =>
    obtain ⟨length, byte, eos, _, merge⟩ := builtNodes_of_single hx others
    have root := builtState_root s
    have nodeCount := builtState_nodeCount s
    have sum : ∑ y : Fin 256, s.freq[y].toNat = s.freq[x].toNat :=
      Finset.sum_eq_single x (fun y _ hy => by simp [others y hy]) fun h => absurd (Finset.mem_univ x) h
    have within := withinWeightBound_of_sum (w := w) sum (by omega)
    have top : (builtState s).nodes[(2 : NodeIdx)] = _ := builtState_node (i := 2) merge
    rw [length] at root nodeCount
    exact ⟨builtState s, runCommand_buildTreeBody within, builtState_node (i := 0) byte, builtState_node (i := 1) eos,
      Fin.ext (Nat.succ.inj root), Fin.ext nodeCount, fun h => top.trans (if_neg (by omega)),
      fun h => top.trans (if_pos h)⟩

end Sys2Proof.Proofs
end

section
/-! What BUILD_TREE and COMPRESS depend on (40_tree_builder R121; 45_container R199). -/

namespace Sys2Proof.Proofs

open Sys2Proof Sys2Proof.Machine

/-- The codes of a row of bytes and of EOS, up to the first symbol without a code (43_stream_encoder R162, R163). -/
def bodyUpToGap (codes : CodeTable) : List Byte → List Bool
  | [] => (codes.codeOf 256).getD []
  | b :: bytes => (codes.codeOf (byteSym b)).elim [] (· ++ bodyUpToGap codes bytes)

/-- Whether it runs to its end or raises, the encoder has appended `bodyUpToGap`. -/
theorem encodeLoop_bitOut (bytes : List Byte) {s : State} (hr : s.symIn.rest = bytes) :
    (encodeLoop bytes.length s).Ends (fun u => u.bitOut = s.bitOut ++ bodyUpToGap s.codes bytes)
      fun _ _ u => u.bitOut = s.bitOut ++ bodyUpToGap s.codes bytes := by
  induction bytes generalizing s with
  | nil =>
    rw [List.length_nil, encodeLoop, bodyUpToGap]
    rcases code : s.codes.codeOf 256 with _ | c
    · rw [writeCode_none code]
      exact (List.append_nil _).symm
    · rw [writeCode_some code]
      exact rfl
  | cons b bytes ih =>
    rw [List.length_cons, encodeLoop, readSym_cons hr, bodyUpToGap]
    have rest := pastSyms_rest 1 s
    rw [hr] at rest
    change ((State.writeCode (byteSym b) (s.pastSyms 1)).andThen _).Ends _ _
    rcases code : s.codes.codeOf (byteSym b) with _ | c
    · rw [writeCode_none (s := s.pastSyms 1) code]
      exact (List.append_nil _).symm
    · rw [writeCode_some (s := s.pastSyms 1) code, andThen_ok, Option.elim_some, ← List.append_assoc]
      exact ih (s := { s.pastSyms 1 with bitOut := s.bitOut ++ c }) rest

/-- The tree that BUILD_TREE stores for a table is the same in every state (40_tree_builder R121). -/
theorem exists_builtTree (freq : Vector Word 256) :
    ∃ t, ∀ s : State, s.freq = freq → (treeStored s).tree = some t := by
  obtain ⟨t, is, ht, perm, _⟩ := (built_counts freq).tree
  refine ⟨t, fun s hs => ?_⟩
  subst hs
  have stored := isTreeAt_storeTree (root := (huffman (counts s.freq)).1) s.dropTree ht _ rfl
  have size : t.size = (builtNodes s.freq).length := by
    rw [← isTreeAt_length stored, perm.length_eq, List.length_range]
    rfl
  have := size_eq t
  have := builtNodes_length_le s.freq
  exact tree_of_isTreeAt stored (by omega)

theorem genCodesBody_of_tree {s : State} {t : Machine.Tree} (hv : s.status.treeValid = true) (ht : s.tree = some t) :
    genCodesBody s = .ok { s with codes := t.codeTable, status := { s.status with codesValid := true } } := by
  simp only [genCodesBody, hv, needs_true, ht]

theorem hdrEncodeBody_of_tree {s : State} {t : Machine.Tree} (hv : s.status.treeValid = true) (ht : s.tree = some t) :
    hdrEncodeBody s = .ok { s with bitOut := s.bitOut ++ t.header } := by
  simp only [hdrEncodeBody, hv, needs_true, ht, emit_eq]

theorem streamEncodeBody_of_codes {s : State} (hv : s.status.codesValid = true) :
    streamEncodeBody s = encodeLoop s.symIn.rest.length s := by
  rw [streamEncodeBody, hv, needs_true]

/-- The state COMPRESS's first four stages end in, from the one BUILD_TREE's body ends in: the code table of the
tree `t`, the magic word and the header (45_container R193). -/
def containerBegun (magic : Word) (t : Machine.Tree) (u : State) : State :=
  { u with
    codes := t.codeTable
    status := { u.status with codesValid := true }
    bitOut := u.bitOut ++ bitsOf 32 magic.toNat ++ t.header }

theorem encode_stages {u : State} {t : Machine.Tree} (magic : Word) (hv : u.status.treeValid = true)
    (ht : u.tree = some t) :
    (((genCodesBody u).andThen (magicWriteBody magic)).andThen hdrEncodeBody).andThen streamEncodeBody
      = encodeLoop u.symIn.rest.length (containerBegun magic t u) := by
  have coded := genCodesBody_of_tree hv ht
  set v : State := { u with codes := t.codeTable, status := { u.status with codesValid := true } }
  have header : hdrEncodeBody (v.writeBits 32 magic.toNat) = .ok (containerBegun magic t u) :=
    hdrEncodeBody_of_tree hv ht
  rw [coded, andThen_ok, magicWriteBody, andThen_ok, header, andThen_ok, streamEncodeBody_of_codes rfl]
  rfl

/-- Within the weight bound COMPRESS is its last stage after the other four (45_container R193, R194). -/
theorem compressBody_eq_encodeLoop {w : Nat} {s : State} {t : Machine.Tree} (magic : Word)
    (hb : withinWeightBound w s.freq = true) (ht : (treeStored s).tree = some t) :
    compressBody w magic s = encodeLoop s.symIn.rest.length (containerBegun magic t (treeStored s)) := by
  have build : buildTreeBody w s = .ok (treeStored s) := if_pos hb
  rw [compressBody, build, andThen_ok]
  exact encode_stages magic rfl ht

/-- What COMPRESS appends, with the tree `t` of the table: it ends well or at a symbol without a code. -/
theorem exec_compress_bitOut {s u : State} {t : Machine.Tree} (ht : (treeStored s.start).tree = some t)
    (h : exec .compress s = .next u) :
    u.bitOut = s.bitOut ++ (bitsOf 32 Config.magic.toNat ++ t.header ++ bodyUpToGap t.codeTable s.symIn.rest) := by
  rw [exec_command (i := .compress) (by decide), commandBody] at h
  by_cases hb : withinWeightBound Config.weightW s.start.freq = true
  · rw [compressBody_eq_encodeLoop _ hb ht] at h
    have ends := encodeLoop_bitOut s.symIn.rest (s := containerBegun Config.magic t (treeStored s.start)) rfl
    have out : (containerBegun Config.magic t (treeStored s.start)).bitOut
        = s.bitOut ++ bitsOf 32 Config.magic.toNat ++ t.header := rfl
    rw [out] at ends
    rcases ends.conclude h with ⟨v, _, hv, rfl⟩ | ⟨k, inf, v, _, hv, rfl⟩
    · exact hv.trans (by simp [containerBegun])
    · exact hv.trans (by simp [containerBegun])
  · rw [compressBody, buildTreeBody, if_neg hb] at h
    cases h

/-- Settles O34: the stored entries are those of FREQ, and COMPRESS appends bits that its tree, MAGIC and the bytes
left in SYM_IN give. -/
theorem determinism : Obligations.Determinism := by
  unfold Obligations.Determinism
  intro s s' t t' hf
  refine ⟨fun h h' => ?tree, fun hr h h' => ?output⟩
  case tree =>
    obtain ⟨_, rfl⟩ := eq_builtState h
    obtain ⟨_, rfl⟩ := eq_builtState h'
    refine ⟨?_, Fin.ext ?_, fun i hi => ?_⟩
    · simp only [builtState, treeStored, finish_root, storeTree_root, start_freq, hf]
    · simp only [builtState_nodeCount, hf]
    · rw [builtState_nodeCount] at hi
      obtain ⟨e, he⟩ := exists_entry hi
      have he' : (builtNodes s'.freq)[i.val]? = some e := hf ▸ he
      rw [builtState_node he, builtState_node he', builtState_nodeW he, builtState_nodeW he']
      exact ⟨rfl, rfl⟩
  case output =>
    obtain ⟨tree, stored⟩ := exists_builtTree s.freq
    have out := exec_compress_bitOut (stored s.start rfl) h
    have out' := exec_compress_bitOut (stored s'.start hf.symm) h'
    rw [← hr] at out'
    exact ⟨_, out, out'⟩

end Sys2Proof.Proofs
end

section
/-! The code table GEN_CODES writes (41_code_table R127 to R132): its entries are those of the codes it holds. -/

namespace Sys2Proof.Proofs

open Sys2Proof Sys2Proof.Machine

/-- An entry of the code table holds its code right-aligned, with zeros above it, and only zeros where it holds no
code (10_state R39, R40; 30_encoding R107). -/
def RightAligned (c : CodeTable) (sym : Fin 257) : Prop :=
  (c.len[sym].valid = true → c.val[sym].toNat < 2 ^ c.len[sym].len.toNat) ∧
  (c.len[sym].valid = false → c.len[sym].len = 0 ∧ c.val[sym] = 0)

theorem rightAligned_emptyCodes (sym : Fin 257) : RightAligned emptyCodes sym := by
  simp [RightAligned, emptyCodes]

theorem RightAligned.bind {c : CodeTable} {sym : Fin 257} (h : RightAligned c sym) (x : Sym) {k v : Nat}
    (hk : k ≤ 256) (hv : v < 2 ^ k) : RightAligned (c.bind x k v) sym := by
  unfold CodeTable.bind
  split
  case isTrue hx =>
    by_cases same : x.toNat = sym.val
    · have len : (BitVec.ofNat 9 k).toNat = k := toNat_ofNat_of_lt (by omega)
      have val : (BitVec.ofNat 256 v).toNat = v :=
        toNat_ofNat_of_lt (hv.trans_le (Nat.pow_le_pow_right (by omega) hk))
      simp only [RightAligned, Fin.getElem_fin, Vector.getElem_set, if_pos same, len, val]
      exact ⟨fun _ => hv, fun h => by cases h⟩
    · simpa only [RightAligned, Fin.getElem_fin, Vector.getElem_set, if_neg same] using h
  case isFalse => exact h

theorem RightAligned.walk {c : CodeTable} {sym : Fin 257} (h : RightAligned c sym) (t : Machine.Tree) {k v : Nat}
    (hk : k + t.depth ≤ 256) (hv : v < 2 ^ k) : RightAligned (t.walk k v c) sym := by
  induction t generalizing k v c with
  | leaf x => exact h.bind x hk hv
  | node l r ihl ihr =>
    rw [Tree.depth] at hk
    have pow := pow_succ 2 k
    exact ihr (ihl h (by omega) (by omega)) (by omega) (by omega)

theorem rightAligned_codeTable {t : Machine.Tree} (ht : t.depth ≤ 256) (sym : Fin 257) :
    RightAligned t.codeTable sym := by
  cases t with
  | leaf x => exact (rightAligned_emptyCodes sym).bind x (by omega) (by omega)
  | node l r => exact (rightAligned_emptyCodes sym).walk (.node l r) (by omega) (by omega)

theorem RightAligned.entry_of_codeOf {c : CodeTable} {sym : Fin 257} {code : List Bool} (h : RightAligned c sym)
    (hc : c.codeOf sym = some code) :
    c.len[sym] = { valid := true, len := BitVec.ofNat 9 code.length } ∧ c.val[sym].toNat = valOf code := by
  have length := codeOf_length hc
  rw [CodeTable.codeOf] at hc
  split at hc
  case isTrue valid =>
    obtain rfl := Option.some.inj hc
    refine ⟨?_, (valOf_bitsOf (h.1 valid)).symm⟩
    rw [length, BitVec.ofNat_toNat, BitVec.setWidth_eq, ← valid]
  case isFalse => cases hc

theorem RightAligned.entry_of_codeOf_none {c : CodeTable} {sym : Fin 257} (h : RightAligned c sym)
    (hc : c.codeOf sym = none) : c.len[sym] = { valid := false, len := 0 } ∧ c.val[sym] = 0 := by
  have invalid : c.len[sym].valid = false := by simpa [CodeTable.codeOf] using hc
  obtain ⟨len, val⟩ := h.2 invalid
  exact ⟨by rw [← invalid, ← len], val⟩

/-- A code has 1 to 256 bits: a lone leaf's has one, and no path is longer than the tree is deep (41_code_table
R130, R131). -/
theorem codePaths_length {t : Machine.Tree} (ht : t.depth ≤ 256) {e : Sym × List Bool} (he : e ∈ t.codePaths) :
    1 ≤ e.2.length ∧ e.2.length ≤ 256 := by
  cases t with
  | leaf x =>
    obtain rfl := List.mem_singleton.mp he
    exact ⟨le_rfl, Nat.one_le_ofNat⟩
  | node l r =>
    refine ⟨?_, (paths_length_le he).trans ht⟩
    simp only [Tree.codePaths, Tree.paths, List.mem_append, List.mem_map] at he
    rcases he with ⟨_, _, rfl⟩ | ⟨_, _, rfl⟩ <;> exact Nat.succ_pos _

/-- Settles O35: the table is that of the tree, whose codes are the paths and whose entries are right-aligned. -/
theorem genCodesResult : Obligations.GenCodesResult := by
  unfold Obligations.GenCodesResult
  intro s t is valid ht leaves
  have depth : t.depth ≤ 256 := by have := depth_lt_leafCount t; omega
  refine ⟨t.codeTable, exec_genCodes valid (tree_of_isTreeAt ht leaves), fun sym => ?_⟩
  have aligned := rightAligned_codeTable depth sym
  rw [← codeTable_codeOf t depth sym]
  refine ⟨fun code hc => ?_, aligned.entry_of_codeOf_none⟩
  obtain ⟨len, val⟩ := aligned.entry_of_codeOf hc
  rw [codeTable_codeOf t depth] at hc
  obtain ⟨x, _, path⟩ := lastCode_mem hc
  exact ⟨len, val, codePaths_length depth path⟩

end Sys2Proof.Proofs
end

section
/-! Which symbols have a code, and that none begins another one (41_code_table R133; 10_state R42). -/

namespace Sys2Proof.Proofs

open Sys2Proof Sys2Proof.Machine

/-- A path to a leaf goes on to no other leaf. -/
theorem eq_of_paths_prefix {t : Machine.Tree} {e f : Sym × List Bool} (he : e ∈ t.paths) (hf : f ∈ t.paths)
    (h : e.2 <+: f.2) : e = f := by
  induction t generalizing e f with
  | leaf x => rw [List.mem_singleton.mp he, List.mem_singleton.mp hf]
  | node l r ihl ihr =>
    simp only [Tree.paths, List.mem_append, List.mem_map] at he hf
    rcases he with ⟨e, he, rfl⟩ | ⟨e, he, rfl⟩ <;> rcases hf with ⟨f, hf, rfl⟩ | ⟨f, hf, rfl⟩ <;>
      obtain ⟨bit, h⟩ := List.cons_prefix_cons.mp h
    · rw [ihl he hf h]
    · cases bit
    · cases bit
    · rw [ihr he hf h]

theorem eq_of_codePaths_prefix {t : Machine.Tree} {e f : Sym × List Bool} (he : e ∈ t.codePaths)
    (hf : f ∈ t.codePaths) (h : e.2 <+: f.2) : e = f := by
  cases t with
  | leaf x => rw [List.mem_singleton.mp he, List.mem_singleton.mp hf]
  | node l r => exact eq_of_paths_prefix he hf h

/-- No code of a tree begins the code of another symbol (41_code_table R133). -/
theorem codeTable_prefixFree {t : Machine.Tree} (ht : t.depth ≤ 256) {a b : Fin 257} {ca cb : List Bool}
    (ha : t.codeTable.codeOf a = some ca) (hb : t.codeTable.codeOf b = some cb) (h : ca <+: cb) : a = b := by
  rw [codeTable_codeOf t ht] at ha hb
  obtain ⟨x, hx, pathA⟩ := lastCode_mem ha
  obtain ⟨y, hy, pathB⟩ := lastCode_mem hb
  obtain rfl : x = y := congrArg Prod.fst (eq_of_codePaths_prefix pathA pathB h)
  exact Fin.ext (hx.symm.trans hy)

theorem codePaths_syms (t : Machine.Tree) : t.codePaths.map Prod.fst = t.syms := by
  cases t <;> rfl

/-- The symbols with a code are those of the leaves (41_code_table R132). -/
theorem codeTable_codeOf_isSome_iff {t : Machine.Tree} (ht : t.depth ≤ 256) (sym : Fin 257) :
    (t.codeTable.codeOf sym).isSome = true ↔ BitVec.ofNat 9 sym.val ∈ t.syms := by
  have value : (BitVec.ofNat 9 sym.val).toNat = sym.val := toNat_ofNat_of_lt (by omega)
  rw [codeTable_codeOf t ht, ← Option.ne_none_iff_isSome, ne_eq, lastCode_none, ← codePaths_syms, List.mem_map]
  push Not
  refine exists_congr fun e => and_congr_right fun _ => ?_
  rw [← BitVec.toNat_inj, value]

/-- The tree BUILD_TREE stores has a leaf for each counted symbol and no other one (40_tree_builder R114). -/
theorem exists_countedTree (s : State) : ∃ t, (builtState s).tree = some t ∧ t.leafCount ≤ 257 ∧
    ∀ sym : Fin 257, BitVec.ofNat 9 sym.val ∈ t.syms ↔ s.count sym ≠ 0 := by
  have len := counts_length s.freq
  obtain ⟨t, is, ht, _, syms, _⟩ := storeTree_tree (built_counts s.freq) len.le s.start.dropTree
  have leaves : t.leafCount ≤ 257 := by
    rw [leafCount_eq_syms_length, syms.length_eq, leafSyms_length, leafEntries_length, ← len]
    exact List.countP_le_length
  refine ⟨t, tree_of_isTreeAt (s := builtState s) ht leaves, leaves, fun sym => ?_⟩
  have value : (BitVec.ofNat 9 sym.val).toNat = sym.val := toNat_ofNat_of_lt (by omega)
  have inRange : sym.val < (counts s.freq).length := by omega
  rw [syms.mem_iff, mem_leafSyms len.le]
  simp only [value, counts_getElem, inRange, exists_true_left]

/-- Settles O36: codes are paths to different leaves, and the built tree's leaves are the counted symbols. -/
theorem codesPrefixFree : Obligations.CodesPrefixFree := by
  unfold Obligations.CodesPrefixFree
  refine ⟨?prefixFree, ?counted⟩
  case prefixFree =>
    intro s u t is valid ht leaves h a b ca cb hab ha hb hp
    rw [exec_genCodes valid (tree_of_isTreeAt ht leaves)] at h
    cases h
    have depth := depth_lt_leafCount t
    exact hab (codeTable_prefixFree (by omega) ha hb hp)
  case counted =>
    intro s t u build h
    obtain ⟨_, rfl⟩ := eq_builtState build
    obtain ⟨tree, stored, leaves, syms⟩ := exists_countedTree s
    rw [exec_genCodes rfl stored] at h
    cases h
    have depth := depth_lt_leafCount tree
    exact ⟨rfl, fun sym => (codeTable_codeOf_isSome_iff (by omega) sym).trans (syms sym)⟩

end Sys2Proof.Proofs
end

section
/-! Header tokens (42_header_codec R145, R147, R148): the step that fetches one, and what it does. -/

namespace Sys2Proof.Proofs

open Sys2Proof Sys2Proof.Machine

/-- A running header decode executes the token it fetches (42_header_codec R145; log 22). -/
theorem step_of_fetched_token {s t : State} {w : HeaderWork} {i : Instr} (hw : s.work = some w)
    (hf : s.fetchToken w.alloc = .token i t) : step s = exec i t := by
  simp only [step, stepWith, hw, hf]

/-- A running header decode aborts where no token can be read (42_header_codec R147, R148). -/
theorem step_of_fetch_raised {s t : State} {w : HeaderWork} {k : ErrKind} (hw : s.work = some w)
    (hf : s.fetchToken w.alloc = .raised k t) : step s = .next (t.abort k none) := by
  simp only [step, stepWith, hw, hf]

/-- The fetch finds the token whose encoding BIT_IN stands at (30_encoding R99, R101). -/
theorem fetchToken_encodeBits {i : Instr} (wf : i.wellFormed = true) (hi : i ∉ commands) {s : State} {n : Nat}
    {r : List Bool} (hn : n < 513) (hr : s.bitIn.rest = encodeBits i ++ r) :
    s.fetchToken n = .token i (s.pastBits (encodeWidth i)) := by
  cases i with
  | internal => exact fetch_internal hn hr
  | leaf sym =>
    have hsym : sym < 512 := of_decide_eq_true wf
    rw [encodeBits_leaf] at hr
    exact fetch_leaf hn hsym hr
  | _ => exact absurd (by decide) hi

/-- Settles O17: a step is the fetch, and the four clauses are what the fetch can find. -/
theorem stepRunsTheFetchedToken : Obligations.StepRunsTheFetchedToken := by
  unfold Obligations.StepRunsTheFetchedToken
  intro s w hw
  refine ⟨fun i r hn wf hi hr => ?token, fun hr => ?noTag, fun r hn hr hlt => ?cutSymbol, fun hn hr => ?full⟩
  case token => exact step_of_fetched_token hw (fetchToken_encodeBits wf hi hn hr)
  case noTag => exact step_of_fetch_raised hw (fetch_empty hr)
  case cutSymbol => exact step_of_fetch_raised hw (fetch_cut hn hr hlt)
  case full => exact step_of_fetch_raised hw (fetch_full hn hr)

theorem ofNat_eq_mk {n : Nat} (h : n < 513) : Fin.ofNat 513 n = ⟨n, h⟩ :=
  Fin.ext (ofNat_val h)

theorem internalBody_of_lt {s : State} {w : HeaderWork} (hw : s.work = some w) (h : w.alloc < 513) :
    internalBody s = .ok { s with
      work := some { alloc := w.alloc + 1, stack := .needLeft ⟨w.alloc, h⟩ :: w.stack } } := by
  simp only [internalBody, hw, Config.nodeCap, if_pos h, ofNat_eq_mk h]

theorem internalBody_of_full {s : State} {w : HeaderWork} (hw : s.work = some w) (h : 513 ≤ w.alloc) :
    internalBody s = .raised .capacityExceeded none s := by
  rw [internalBody, hw]
  exact if_neg (Nat.not_lt.mpr h)

theorem leafBody_of_lt {s : State} {w : HeaderWork} (sym : Nat) (hw : s.work = some w) (h : w.alloc < 513) :
    leafBody sym s = .ok (State.deliver (w.alloc + 1) ⟨w.alloc, h⟩ w.stack
      (s.setNode ⟨w.alloc, h⟩ (.leaf (BitVec.ofNat 9 sym)))) := by
  simp only [leafBody, hw, Config.nodeCap, if_pos h, ofNat_eq_mk h]

theorem leafBody_of_full {s : State} {w : HeaderWork} (sym : Nat) (hw : s.work = some w) (h : 513 ≤ w.alloc) :
    leafBody sym s = .raised .capacityExceeded none s := by
  rw [leafBody, hw]
  exact if_neg (Nat.not_lt.mpr h)

/-- A token that leaves the header incomplete does not end the command (42_header_codec R146). -/
theorem concludeToken_ok_running {u : State} {w : HeaderWork} (h : u.work = some w) :
    (Body.ok u).concludeToken = .next u := by
  simp [Body.concludeToken, h]

/-- The token that completes the header ends the command (42_header_codec R146). -/
theorem concludeToken_ok_complete {u : State} (h : u.work = none) : (Body.ok u).concludeToken = .next u.finish := by
  simp [Body.concludeToken, h]

theorem exec_internal (s : State) : exec .internal s = (internalBody s).concludeToken :=
  exec_token (by decide) s

theorem exec_leaf (sym : Nat) (s : State) : exec (.leaf sym) s = (leafBody sym s).concludeToken :=
  exec_token (by simp [commands]) s

/-- An internal token where a node is free. -/
theorem exec_internal_of_lt {s : State} {w : HeaderWork} (hw : s.work = some w) (h : w.alloc < 513) :
    exec .internal s = .next { s with
      work := some { alloc := w.alloc + 1, stack := .needLeft ⟨w.alloc, h⟩ :: w.stack } } := by
  rw [exec_internal, internalBody_of_lt hw h, concludeToken_ok_running rfl]

/-- Settles O41: a free node is taken, a full store aborts, and no running decode is a refusal. -/
theorem internalToken : Obligations.InternalToken := by
  unfold Obligations.InternalToken
  refine fun s => ⟨fun w h hw => exec_internal_of_lt hw h, fun w hw h => ?full, fun hw => ?idle⟩
  case full => rw [exec_internal, internalBody_of_full hw h]; rfl
  case idle => rw [exec_token (by decide), tokenBody_idle _ hw]; rfl

/-- A leaf that completes every pending node completes the header (42_header_codec R145). -/
theorem exec_leaf_complete {s : State} {w : HeaderWork} {ps : List (NodeIdx × NodeIdx)} (sym : Nat)
    (hw : s.work = some w) (h : w.alloc < 513) (hs : w.stack = waitingRight ps) :
    exec (.leaf sym) s = .next { s with
      nodes := closedNodes ps ⟨w.alloc, h⟩ (s.nodes.set w.alloc (.leaf (BitVec.ofNat 9 sym)))
      nodeW := closedWeights ps (s.nodeW.set w.alloc 0)
      root := closedTop ps ⟨w.alloc, h⟩
      nodeCount := ⟨w.alloc + 1, by omega⟩
      work := none
      status := { s.status with busy := false, done := true, treeValid := true } } := by
  have count : Fin.ofNat 514 (w.alloc + 1) = ⟨w.alloc + 1, by omega⟩ := Fin.ext (Nat.mod_eq_of_lt (by omega))
  rw [exec_leaf, leafBody_of_lt sym hw h, hs, ← List.append_nil (waitingRight ps),
    deliver_waitingRight, State.deliver, count, concludeToken_ok_complete rfl]
  rfl

/-- A leaf that completes the left subtree of the pending node below those it completes (42_header_codec R145). -/
theorem exec_leaf_running {s : State} {w : HeaderWork} {ps : List (NodeIdx × NodeIdx)} {q : NodeIdx}
    {rest : List Frame} (sym : Nat) (hw : s.work = some w) (h : w.alloc < 513)
    (hs : w.stack = waitingRight ps ++ .needLeft q :: rest) :
    exec (.leaf sym) s = .next { s with
      nodes := closedNodes ps ⟨w.alloc, h⟩ (s.nodes.set w.alloc (.leaf (BitVec.ofNat 9 sym)))
      nodeW := closedWeights ps (s.nodeW.set w.alloc 0)
      work := some { alloc := w.alloc + 1, stack := .needRight q (closedTop ps ⟨w.alloc, h⟩) :: rest } } := by
  rw [exec_leaf, leafBody_of_lt sym hw h, hs, deliver_waitingRight, State.deliver, concludeToken_ok_running rfl]
  rfl

/-- Above the innermost node that waits for its left subtree, if there is one, all wait for their right one. -/
theorem eq_waitingRight_or_append_needLeft (stack : List Frame) : (∃ ps, stack = waitingRight ps) ∨
    ∃ ps q rest, stack = waitingRight ps ++ .needLeft q :: rest := by
  induction stack with
  | nil => exact .inl ⟨[], rfl⟩
  | cons f stack ih =>
    cases f with
    | needLeft q => exact .inr ⟨[], q, stack, rfl⟩
    | needRight p l =>
      rcases ih with ⟨ps, rfl⟩ | ⟨ps, q, rest, rfl⟩
      · exact .inl ⟨(p, l) :: ps, rfl⟩
      · exact .inr ⟨(p, l) :: ps, q, rest, rfl⟩

/-- Settles O42: a stack is pending nodes that the leaf completes, then none or one that waits for its left
subtree; the clauses about a short stack are cases of those two. -/
theorem leafToken : Obligations.LeafToken := by
  unfold Obligations.LeafToken
  intro s sym _
  refine ⟨fun w h hw => ⟨?root, ?left, ?right, fun ps => ⟨?complete, ?running⟩, ?frame⟩, fun w hw h => ?full,
    fun hw => ?idle⟩
  case root => exact exec_leaf_complete (ps := []) sym hw h
  case left => exact fun p rest => exec_leaf_running (ps := []) sym hw h
  case right => exact fun p l q rest => exec_leaf_running (ps := [(p, l)]) sym hw h
  case complete => exact exec_leaf_complete sym hw h
  case running => exact fun q rest => exec_leaf_running sym hw h
  case frame =>
    rcases eq_waitingRight_or_append_needLeft w.stack with ⟨ps, hs⟩ | ⟨ps, q, rest, hs⟩
    · exact ⟨_, exec_leaf_complete sym hw h hs, rfl, rfl⟩
    · exact ⟨_, exec_leaf_running sym hw h hs, rfl, rfl⟩
  case full => rw [exec_leaf, leafBody_of_full sym hw h]; rfl
  case idle => rw [exec_token (by simp [commands]), tokenBody_idle _ hw]; rfl

theorem runSteps_one (s : State) : runSteps 1 s = step s := by
  rw [runSteps]
  cases step s <;> rfl

theorem runSteps_succ {s t : State} (h : step s = .next t) (n : Nat) : runSteps (n + 1) s = runSteps n t := by
  rw [runSteps, h]

/-- A header decode with fuel for every free node is a run of token steps, of one token more than that at most. -/
theorem headerLoop_eq_runSteps {k : Nat} {s : State} {w : HeaderWork} (hw : s.work = some w)
    (hk : 513 ≤ w.alloc + k) : ∃ n, n ≤ k + 1 ∧ runSteps n s = (headerLoop k s).conclude := by
  induction k generalizing s w with
  | zero =>
    have ends := headerStep_ends hw
    refine ⟨1, le_rfl, ?_⟩
    rw [runSteps_one, step_headerStep hw, headerLoop]
    cases hb : headerStep s with
    | ok u =>
      rw [hb] at ends
      obtain ⟨_, free, _⟩ := ends
      omega
    | _ => rfl
  | succ k ih =>
    have ends := headerStep_ends hw
    have hstep := step_headerStep hw
    rw [headerLoop_succ]
    cases hb : headerStep s with
    | ok u =>
      rw [hb] at ends hstep
      obtain ⟨_, _, alloc, _⟩ := ends
      cases hu : u.work with
      | none =>
        rw [concludeToken_ok_complete hu] at hstep
        refine ⟨1, by omega, ?_⟩
        rw [runSteps_one, hstep, andThen_ok, resume, hu]
        rfl
      | some w' =>
        rw [concludeToken_ok_running hu] at hstep
        have := alloc w' hu
        obtain ⟨n, hn, run⟩ := ih hu (by omega)
        refine ⟨n + 1, by omega, ?_⟩
        rw [runSteps_succ hstep, run, andThen_ok, resume, hu]
    | _ =>
      rw [hb] at hstep
      exact ⟨1, by omega, by rw [runSteps_one, hstep]; rfl⟩

/-- Settles O43: HDR_DECODE's loop has fuel for all 513 nodes. -/
theorem headerDecodeByTokens : Obligations.HeaderDecodeByTokens := by
  unfold Obligations.HeaderDecodeByTokens
  intro s
  rw [exec_hdrDecode]
  exact headerLoop_eq_runSteps (s := s.start.beginHeader) rfl (by decide)

end Sys2Proof.Proofs
end

section
/-! HDR_ENCODE and HDR_DECODE as steps (42_header_codec R143, R146 to R150). -/

namespace Sys2Proof.Proofs

open Sys2Proof Sys2Proof.Machine

/-- HDR_ENCODE on the tree at ROOT (42_header_codec R143). -/
theorem exec_hdrEncode_of_isTreeAt {s : State} {t : Machine.Tree} {is : List Nat} (valid : s.status.treeValid = true)
    (ht : IsTreeAt s.nodes s.root t is) (leaves : t.leafCount ≤ 257) :
    exec .hdrEncode s = .next { s.succeed with bitOut := s.bitOut ++ t.header } :=
  exec_hdrEncode valid (tree_of_isTreeAt ht leaves)

/-- Settles O37: the command appends the header, whose length is a count over the tree. -/
theorem hdrEncodeAppendsHeader : Obligations.HdrEncodeAppendsHeader := by
  unfold Obligations.HdrEncodeAppendsHeader
  exact fun s t is valid ht leaves => ⟨exec_hdrEncode_of_isTreeAt valid ht leaves, header_length t⟩

/-- The state HDR_DECODE leaves after the header of `t` (42_header_codec R146). -/
def headerDecoded (t : Machine.Tree) (s : State) : State :=
  { s.stored 0 t with
    root := 0
    nodeCount := Fin.ofNat 514 t.size
    draws := s.draws + 1
    work := none
    status := { busy := false, done := true, error := false, treeValid := true, codesValid := false }
    err := none
    errInfo := none }

section
variable {s : State} {t : Machine.Tree}

/-- HDR_DECODE of a complete header that fits the node store (42_header_codec R146). -/
theorem exec_hdrDecode_of_header {r : List Bool} (hr : s.bitIn.rest = t.header ++ r) (leaves : t.leafCount ≤ 257) :
    exec .hdrDecode s = .next (headerDecoded t s) := by
  rw [exec_hdrDecode, hdrDecodeBody_header (s := s.start) hr leaves]
  rfl

/-- What HDR_DECODE changes at most (42_header_codec R144). -/
theorem headerDecoded_frame : headerDecoded t s = { s with
    nodes := (headerDecoded t s).nodes
    nodeW := (headerDecoded t s).nodeW
    root := (headerDecoded t s).root
    nodeCount := (headerDecoded t s).nodeCount
    bitIn := (headerDecoded t s).bitIn
    draws := (headerDecoded t s).draws
    work := none
    status := { busy := false, done := true, error := false, treeValid := true, codesValid := false }
    err := none
    errInfo := none } := by
  simp only [headerDecoded, State.stored, State.pastBits]

theorem headerDecoded_rest {r : List Bool} (hr : s.bitIn.rest = t.header ++ r) :
    (headerDecoded t s).bitIn.rest = r := by
  have rest := stored_bits 0 t s
  rwa [hr, List.drop_left] at rest

theorem size_le_nodeCap (leaves : t.leafCount ≤ 257) : t.size ≤ 513 := by
  rw [size_eq]
  omega

theorem headerDecoded_nodeCount (leaves : t.leafCount ≤ 257) : (headerDecoded t s).nodeCount.val = t.size :=
  Nat.mod_eq_of_lt (Nat.lt_succ_of_le (size_le_nodeCap leaves))

theorem headerDecoded_preorderAt (leaves : t.leafCount ≤ 257) : PreorderAt (headerDecoded t s).nodes 0 t.size t := by
  have stored := preorderAt_putNodes s.nodes (t := t) (n := 0) (by have := size_le_nodeCap leaves; omega)
  rwa [Nat.zero_add] at stored

theorem headerDecoded_isTreeAt (leaves : t.leafCount ≤ 257) :
    IsTreeAt (headerDecoded t s).nodes (headerDecoded t s).root t (List.range' 0 t.size) :=
  isTreeAt_of_preorderAt (headerDecoded_preorderAt leaves) (by decide)

theorem headerDecoded_treeWf (leaves : t.leafCount ≤ 257) : (headerDecoded t s).TreeWf := by
  refine ⟨t, _, headerDecoded_isTreeAt leaves, ?_⟩
  rw [headerDecoded_nodeCount leaves, List.range_eq_range']

/-- The weights of the stored nodes are 0 (42_header_codec R145). -/
theorem headerDecoded_nodeW_of_lt {i : NodeIdx} (h : i.val < t.size) : (headerDecoded t s).nodeW[i] = 0 := by
  simp [headerDecoded, State.stored, zeroWeights, h]

/-- Entries above the stored nodes keep what they held (42_header_codec R144). -/
theorem headerDecoded_get_of_le {i : NodeIdx} (h : t.size ≤ i.val) :
    (headerDecoded t s).nodes[i] = s.nodes[i] ∧ (headerDecoded t s).nodeW[i] = s.nodeW[i] := by
  simp [headerDecoded, State.stored, putNodes, zeroWeights, h]

end

/-- Settles O38: each clause is a fact about the state `headerDecoded`. -/
theorem hdrDecodeRebuilds : Obligations.HdrDecodeRebuilds := by
  unfold Obligations.HdrDecodeRebuilds
  intro s t r hr leaves
  have count := headerDecoded_nodeCount (s := s) leaves
  refine ⟨headerDecoded t s, exec_hdrDecode_of_header hr leaves, headerDecoded_preorderAt leaves,
    headerDecoded_treeWf leaves, rfl, count.trans (size_eq t), count,
    fun i hi => headerDecoded_nodeW_of_lt (count ▸ hi), fun i hi => headerDecoded_get_of_le (count ▸ hi), ?position,
    headerDecoded_rest hr, headerDecoded_frame⟩
  case position => rw [← header_length]; rfl

/-- An abort of HDR_DECODE before its header is complete, in terms of the state before its start (42_header_codec
R147). -/
theorem headerAborted_frame {s u : State} (h : s.start.beginHeader.SameBut u) (k : ErrKind) :
    u.abort k none = { s with
      nodes := u.nodes
      nodeW := u.nodeW
      bitIn := u.bitIn
      draws := u.draws
      work := none
      status := { busy := false, done := false, error := true, treeValid := false, codesValid := false }
      err := some k
      errInfo := none } := by
  rw [h.eq]
  rfl

/-- HDR_DECODE of a header that BIT_IN cuts short (42_header_codec R147). -/
theorem hdrDecodeBody_cut {s : State} {t : Machine.Tree} {x : List Bool} (hx : x ≠ [])
    (hr : s.bitIn.rest ++ x = t.header) (leaves : t.leafCount ≤ 257) :
    ∃ u, hdrDecodeBody s = .raised .malformedHeader none u ∧ s.beginHeader.SameBut u ∧
      u.bitIn.rest.length < 9 := by
  have fits := size_le_nodeCap leaves
  have fuel : Config.nodeCap = t.size + (513 - t.size) := (Nat.add_sub_of_le fits).symm
  rw [hdrDecodeBody, fuel]
  exact headerLoop_cut t 0 _ s.beginHeader [] x rfl hr hx (by omega)

/-- HDR_DECODE of a header whose tree does not fit the node store (42_header_codec R148). -/
theorem hdrDecodeBody_full {s : State} {t : Machine.Tree} {r : List Bool} (hr : s.bitIn.rest = t.header ++ r)
    (leaves : 257 < t.leafCount) :
    ∃ u, hdrDecodeBody s = .raised .capacityExceeded none u ∧ s.beginHeader.SameBut u := by
  have size := size_eq t
  exact headerLoop_full t 0 s.beginHeader [] r rfl hr (by decide) (by omega)

/-- Settles O39: both aborts leave what the decode had changed so far. -/
theorem hdrDecodeAborts : Obligations.HdrDecodeAborts := by
  unfold Obligations.HdrDecodeAborts
  intro s t
  refine ⟨fun x hx hr leaves => ?cut, fun r hr leaves => ?full⟩
  case cut =>
    obtain ⟨u, raised, same, short⟩ := hdrDecodeBody_cut (s := s.start) hx hr leaves
    exact ⟨u.abort .malformedHeader none, by rw [exec_hdrDecode, raised, conclude_raised], short, same.data,
      headerAborted_frame same _⟩
  case full =>
    obtain ⟨u, raised, same⟩ := hdrDecodeBody_full (s := s.start) hr leaves
    exact ⟨u.abort .capacityExceeded none, by rw [exec_hdrDecode, raised, conclude_raised], same.data,
      headerAborted_frame same _⟩

/-- Settles O40: the decoded state holds the same tree, on which HDR_ENCODE and GEN_CODES depend alone. -/
theorem headerSelfConsistency : Obligations.HeaderSelfConsistency := by
  unfold Obligations.HeaderSelfConsistency
  intro s t is valid ht leaves
  refine ⟨_, t.header, exec_hdrEncode_of_isTreeAt valid ht leaves, rfl, fun v r hr => ?_⟩
  have decoded := headerDecoded_isTreeAt (s := v) leaves
  exact ⟨headerDecoded t v, exec_hdrDecode_of_header hr leaves, rfl, headerDecoded_rest hr, ⟨_, decoded⟩,
    ⟨_, exec_hdrEncode_of_isTreeAt rfl decoded leaves, rfl⟩,
    _, _, exec_genCodes valid (tree_of_isTreeAt ht leaves), exec_genCodes rfl (tree_of_isTreeAt decoded leaves), rfl⟩

end Sys2Proof.Proofs
end

section
/-! STREAM_ENCODE at the first symbol without a code (43_stream_encoder R163; 60_exceptions R210). -/

namespace Sys2Proof.Proofs

open Sys2Proof Sys2Proof.Machine

/-- ERR_INFO's word for a byte is the byte (60_exceptions R213). -/
theorem ofNat_byteSym (b : Byte) : BitVec.ofNat 32 (byteSym b).val = b.setWidth 32 := by
  have lt : b.toNat < 257 := b.isLt.trans (by decide)
  have val : (byteSym b).val = b.toNat := Nat.mod_eq_of_lt lt
  rw [val, BitVec.ofNat_toNat]

/-- The encoder has read the byte that stops it. -/
theorem encodeLoop_cons_of_codeOf_none {s : State} {b : Byte} {r : List Byte} (hr : s.symIn.rest = b :: r)
    (hc : s.codes.codeOf (byteSym b) = none) :
    encodeLoop (b :: r).length s = .raised .internalEncodingGap (some (b.setWidth 32)) (s.pastSyms 1) := by
  have stops := writeCode_none (s := s.pastSyms 1) hc
  rw [ofNat_byteSym] at stops
  rw [List.length_cons, encodeLoop, readSym_cons hr]
  change ((s.pastSyms 1).writeCode (byteSym b)).andThen _ = _
  rw [stops, andThen_raised]

/-- The encoder up to the first byte without a code. -/
theorem encodeLoop_byte_gap {s : State} {before after : List Byte} {b : Byte} {body : List Bool}
    (hr : s.symIn.rest = before ++ b :: after) (hb : s.codes.bodyOf (before.map byteSym) = some body)
    (hc : s.codes.codeOf (byteSym b) = none) :
    encodeLoop s.symIn.rest.length s = .raised .internalEncodingGap (some (b.setWidth 32))
      { s.pastSyms (before.length + 1) with bitOut := s.bitOut ++ body } := by
  have rest : (s.pastSyms before.length).symIn.rest = b :: after := by
    rw [pastSyms_rest, hr, List.drop_left]
  rw [hr, List.length_append, encodeLoop_append before s (b :: after) body hr hb,
    encodeLoop_cons_of_codeOf_none (s := { s.pastSyms before.length with bitOut := s.bitOut ++ body }) rest hc]
  rfl

/-- The encoder where every byte has a code and EOS has none. -/
theorem encodeLoop_eos_gap {s : State} {body : List Bool} (hb : s.codes.bodyOf (s.symIn.rest.map byteSym) = some body)
    (hc : s.codes.codeOf 256 = none) :
    encodeLoop s.symIn.rest.length s = .raised .internalEncodingGap (some 256)
      { s.pastSyms s.symIn.rest.length with bitOut := s.bitOut ++ body } := by
  have bytes := encodeLoop_append s.symIn.rest s [] body (List.append_nil _).symm hb
  rw [List.length_nil, Nat.add_zero] at bytes
  rw [bytes, encodeLoop]
  exact writeCode_none hc

/-- Settles O45: the encoder's loop raises at the byte or at EOS, and the abort keeps what it appended and read. -/
theorem streamEncodeGap : Obligations.StreamEncodeGap := by
  unfold Obligations.StreamEncodeGap
  intro s valid
  rw [exec_streamEncode valid, ← start_symIn]
  refine ⟨fun before b after body hr hb hc => ?byte, fun body hb hc => ?eos⟩
  case byte =>
    rw [encodeLoop_byte_gap (s := s.start) hr hb hc]
    rfl
  case eos =>
    rw [encodeLoop_eos_gap (s := s.start) hb hc]
    rfl

end Sys2Proof.Proofs
end

section
/-! STREAM_DECODE (44_stream_decoder R172 to R178): a body of codes, a cut body, a leaf root, and how it ends. -/

namespace Sys2Proof.Proofs

open Sys2Proof Sys2Proof.Machine

/-- The state in which STREAM_DECODE's loop starts (44_stream_decoder R172). -/
def atRoot (s : State) : State :=
  { s.start with cur := s.root }

theorem exec_streamDecode_atRoot {s : State} (h : s.status.treeValid = true) :
    exec .streamDecode s = (decodeLoop (atRoot s).bitIn.rest.length (atRoot s)).conclude :=
  exec_streamDecode h

/-! A body of codes, whole or cut. -/

/-- At a leaf either bit stays there (44_stream_decoder R174). -/
theorem stepNode_leaf {nodes : Vector Node 513} {i : NodeIdx} {sym : Sym} (h : nodes[i] = .leaf sym) (bit : Nat) :
    stepNode nodes i bit = i := by
  unfold stepNode
  rw [h]

/-- The code of a leaf leads to it from the root, also where the root is that leaf (44_stream_decoder R173, R174). -/
theorem follow_code {nodes : Vector Node 513} {i : NodeIdx} {t : Machine.Tree} {is : List Nat}
    (h : IsTreeAt nodes i t is) {e : Sym × List Bool} (he : e ∈ t.codePaths) :
    nodes[follow nodes i e.2] = .leaf e.1 := by
  cases t with
  | leaf sym =>
    obtain rfl : e = (sym, [false]) := List.mem_singleton.mp he
    cases h with
    | leaf _ _ hn =>
      have stays : follow nodes i [false] = i := stepNode_leaf hn 0
      simp only [stays, hn]
  | node l r => exact follow_path h he

theorem ne_eos_of_codes {body : List (Sym × List Bool)} {t : Machine.Tree}
    (h : ∀ e ∈ body, e ∈ t.codePaths ∧ e.1 ≠ 256) : ∀ e ∈ body, e.1.toNat ≠ Config.eos :=
  fun e he => mt eos_iff.mp (h e he).2

/-- Settles O46: the decoder's loop emits the codes' bytes and ends at the leaf that EOS's code leads to. -/
theorem streamDecodeResult : Obligations.StreamDecodeResult := by
  unfold Obligations.StreamDecodeResult
  intro s t is body stop r valid tree codes code eos rest
  have leaf := follow_code tree code
  rw [eos] at leaf
  have decoded := decodeLoop_all body stop (s := atRoot s) tree rfl (fun e he => (codes e he).1)
    (ne_eos_of_codes codes) code (eos_iff.mpr eos) (rest.trans (List.append_assoc _ _ _))
  refine ⟨follow s.nodes s.root stop.2, leaf, ?_⟩
  rw [exec_streamDecode_atRoot valid, decoded]
  rfl

/-- A body that BIT_IN ends in: the bytes of its codes stay, and CUR is the node where the walk stood
(44_stream_decoder R176, R178). -/
theorem exec_streamDecode_cut {s : State} {t : Machine.Tree} {is : List Nat} {body : List (Sym × List Bool)}
    {path : List Bool} {c : NodeIdx} (valid : s.status.treeValid = true) (tree : IsTreeAt s.nodes s.root t is)
    (codes : ∀ e ∈ body, e ∈ t.codePaths ∧ e.1 ≠ 256) (walk : nodeAtPath s.nodes s.root path = some c)
    (above : path = [] ∨ s.nodes[c].isLeaf = false) (rest : s.bitIn.rest = body.flatMap Prod.snd ++ path) :
    exec .streamDecode s
      = .next { (s.pastBits ((body.flatMap Prod.snd).length + path.length)).abort .truncatedStream none with
          cur := c
          symOut := s.symOut ++ body.map fun e => e.1.setWidth 8 } := by
  have cut := decodeLoop_cut body path (s := atRoot s) tree rfl (fun e he => (codes e he).1) (ne_eos_of_codes codes)
    walk above rest
  rw [exec_streamDecode_atRoot valid, cut]
  rfl

/-! A leaf root. -/

/-- The loop at a leaf root: a bit of either value reaches the leaf (44_stream_decoder R174). -/
theorem decodeLoop_leafRoot {s : State} {sym : Sym} {b : Bool} {r : List Bool} (hc : s.cur = s.root)
    (hn : s.nodes[s.cur] = .leaf sym) (hr : s.bitIn.rest = b :: r) :
    decodeLoop s.bitIn.rest.length s
      = if sym.toNat = Config.eos then .ok (s.pastBits 1)
        else decodeLoop r.length ((s.pastBits 1).writeSym (sym.setWidth 8)) := by
  rw [hr, List.length_cons, decodeLoop_cons hr]
  simp only [stepNode_leaf hn, hn, ← hc]
  rfl

/-- Settles O48: the bit reaches the root's leaf; after a leaf of another symbol the loop stands where the command
would start it. -/
theorem leafRootDecode : Obligations.LeafRootDecode := by
  unfold Obligations.LeafRootDecode
  intro s sym b r valid leaf rest
  rw [exec_streamDecode_atRoot valid, decodeLoop_leafRoot (s := atRoot s) rfl leaf rest]
  refine ⟨fun eos => ?eos, fun other => ?other⟩
  case eos =>
    rw [if_pos (eos_iff.mpr eos)]
    rfl
  case other =>
    have left : (s.pastBits 1).bitIn.rest = r := by rw [pastBits_rest, rest, List.drop_one, List.tail_cons]
    rw [if_neg (mt eos_iff.mp other), ← left,
      exec_streamDecode_atRoot (s := { s.pastBits 1 with symOut := s.symOut ++ [sym.setWidth 8] }) valid]
    rfl

/-! A walk from the root stays in the tree. -/

theorem leaf_mem_syms {nodes : Vector Node 513} {i : NodeIdx} {t : Machine.Tree} {is : List Nat}
    (h : IsTreeAt nodes i t is) {p : NodeIdx} (hp : p.val ∈ is) {sym : Sym} (hn : nodes[p] = .leaf sym) :
    sym ∈ t.syms := by
  induction h with
  | leaf i x hx =>
    obtain rfl : p = i := Fin.ext (List.mem_singleton.mp hp)
    rw [hx] at hn
    cases hn
    exact List.mem_singleton_self _
  | node i l r tl tr il ir hi hl hr ihl ihr =>
    rw [syms_node, List.mem_append]
    rcases List.mem_cons.mp hp with hp | hp
    · obtain rfl : p = i := Fin.ext hp
      rw [hi] at hn
      cases hn
    · exact (List.mem_append.mp hp).imp ihl ihr

theorem stepNode_mem {nodes : Vector Node 513} {i : NodeIdx} {t : Machine.Tree} {is : List Nat}
    (h : IsTreeAt nodes i t is) {cur : NodeIdx} (hc : cur.val ∈ is) (bit : Nat) :
    (stepNode nodes cur bit).val ∈ is := by
  unfold stepNode
  split
  · exact hc
  · next l r hn =>
    obtain ⟨hl, hr⟩ := isTreeAt_children h cur l r hc hn
    split
    · exact hl
    · exact hr

/-- CUR is in the tree of indices `is` that stands at ROOT. -/
def InTree (t : Machine.Tree) (is : List Nat) (s : State) : Prop :=
  IsTreeAt s.nodes s.root t is ∧ s.cur.val ∈ is

theorem atRoot_inTree {s : State} {t : Machine.Tree} {is : List Nat} (h : IsTreeAt s.nodes s.root t is) :
    InTree t is (atRoot s) :=
  ⟨h, isTreeAt_root_mem h⟩

theorem decodeStep_inTree {t : Machine.Tree} {is : List Nat} {s u : State} {ended : Bool} (h : InTree t is s)
    (hu : decodeStep s = some (ended, u)) : InTree t is u := by
  obtain ⟨tree, cur⟩ := h
  rw [decodeStep] at hu
  rcases readBits_cases 1 s with ⟨_, e⟩ | ⟨_, e⟩ <;> simp only [e] at hu
  · split at hu
    · split at hu <;> cases hu
      · exact ⟨tree, stepNode_mem tree cur _⟩
      · exact ⟨tree, isTreeAt_root_mem tree⟩
    · cases hu
      exact ⟨tree, stepNode_mem tree cur _⟩
  · cases hu

theorem decodeLoop_inTree {t : Machine.Tree} {is : List Nat} (k : Nat) {s u : State} (h : InTree t is s)
    (hu : decodeLoop k s = .ok u) : InTree t is u := by
  induction k generalizing s with
  | zero => cases hu
  | succ k ih =>
    rw [decodeLoop] at hu
    rcases e : decodeStep s with _ | ⟨_ | _, s1⟩ <;> rw [e] at hu
    · cases hu
    · exact ih (decodeStep_inTree h e) hu
    · cases hu
      exact decodeStep_inTree h e

/-! How the command ends. -/

/-- The loop's two ends (44_stream_decoder R175, R176, R178). -/
theorem decodeLoop_cases (s : State) :
    (∃ u, decodeLoop s.bitIn.rest.length s = .ok u ∧ s.Decoded u ∧ u.nodes[u.cur] = .leaf 256) ∨
    (∃ u, decodeLoop s.bitIn.rest.length s = .raised .truncatedStream none u ∧ s.Decoded u ∧ u.bitIn.rest = []) := by
  have ends := decodeLoop_ends _ s rfl
  rcases decodeLoop_ends_or_raises s.bitIn.rest.length s with ⟨u, hu⟩ | ⟨k, i, u, hu⟩ <;> rw [hu] at ends
  · obtain ⟨decoded, sym, leaf, eos⟩ := ends
    rw [eos_iff.mp eos] at leaf
    exact .inl ⟨u, hu, decoded, leaf⟩
  · obtain ⟨rfl, rfl, decoded, read⟩ := ends
    exact .inr ⟨u, hu, decoded, read⟩

theorem pos_eq_of_rest_nil {s : State} {n : Nat} (bound : s.bitIn.pos + n ≤ max s.bitIn.pos s.bitIn.data.length)
    (pos : s.bitIn.pos ≤ s.bitIn.data.length) (read : (s.pastBits n).bitIn.rest = []) :
    s.bitIn.pos + n = s.bitIn.data.length := by
  have left : s.bitIn.data.length - (s.bitIn.pos + n) = 0 :=
    (rest_length _).symm.trans (List.length_eq_zero_iff.mpr read)
  omega

/-- Settles O47: the loop ends at an EOS leaf, which is one of the tree's, or with BIT_IN read; and a cut body ends
where its walk stood. -/
theorem streamDecodeOutcomes : Obligations.StreamDecodeOutcomes := by
  unfold Obligations.StreamDecodeOutcomes
  refine ⟨fun s valid idle pos => ?_, fun _ _ _ _ _ _ => exec_streamDecode_cut⟩
  rw [exec_streamDecode_atRoot valid]
  rcases decodeLoop_cases (atRoot s) with ⟨u, ended, decoded, leaf⟩ | ⟨u, ended, decoded, read⟩ <;> rw [ended]
  · have inTree : ∀ t is, IsTreeAt s.nodes s.root t is → 256 ∈ t.syms := fun t is tree => by
      obtain ⟨tree, cur⟩ := decodeLoop_inTree _ (atRoot_inTree tree) ended
      exact leaf_mem_syms tree cur leaf
    obtain ⟨n, c, x, rfl, _⟩ := decoded
    refine ⟨_, rfl, .inl ⟨rfl, leaf⟩, fun t is tree noEos => ?_, rfl⟩
    obtain ⟨e, he, eos⟩ := List.mem_map.mp (inTree t is tree)
    exact absurd eos (noEos e he)
  · obtain ⟨n, c, x, rfl, bound⟩ := decoded
    refine ⟨_, rfl, .inr ⟨rfl, rfl, pos_eq_of_rest_nil (s := s) bound pos read⟩, fun _ _ _ _ => rfl, ?_⟩
    rw [idle]
    rfl

end Sys2Proof.Proofs
end

section
/-! The magic word (45_container R186 to R190). -/

namespace Sys2Proof.Proofs

open Sys2Proof Sys2Proof.Machine

/-- MAGIC_WRITE as a step (45_container R186). -/
theorem exec_magicWrite (s : State) :
    exec .magicWrite s = .next { s.succeed with bitOut := s.bitOut ++ bitsOf 32 Config.magic.toNat } := rfl

/-- Settles O49: the command is one write of 32 bits, and the sequence is evaluated. -/
theorem magicWriteAppends : Obligations.MagicWriteAppends := by
  unfold Obligations.MagicWriteAppends
  exact ⟨exec_magicWrite, rfl⟩

theorem exec_magicCheck (s : State) : exec .magicCheck s = (magicCheckBody Config.magic s.start).conclude :=
  exec_command (by decide) s

/-- With fewer than 32 bits left nothing is read (45_container R189). -/
theorem magicCheckBody_of_short {magic : Word} {s : State} (h : s.bitIn.rest.length < 32) :
    magicCheckBody magic s = .raised .badMagicHeader none s := by
  rw [magicCheckBody, readBits_none h]

/-- The next 32 bits are consumed, whether they are MAGIC or not (45_container R189). -/
theorem magicCheckBody_of_word {magic v : Word} {s : State} {r : List Bool}
    (hr : s.bitIn.rest = bitsOf 32 v.toNat ++ r) :
    magicCheckBody magic s
      = if v = magic then .ok (s.pastBits 32) else .raised .badMagicHeader (some v) (s.pastBits 32) := by
  rw [magicCheckBody, readBits_of_rest hr (bitsOf_length 32 _) (by decide), valOf_bitsOf v.isLt]
  simp only [BitVec.toNat_inj, BitVec.ofNat_toNat, BitVec.setWidth_eq]

/-- MAGIC_CHECK at the magic word (45_container R189, R190). -/
theorem exec_magicCheck_of_magic {s : State} {r : List Bool}
    (hr : s.bitIn.rest = bitsOf 32 Config.magic.toNat ++ r) :
    exec .magicCheck s = .next (s.pastBits 32).succeed := by
  rw [exec_magicCheck, magicCheckBody_of_word (s := s.start) hr, if_pos rfl]
  rfl

/-- Settles O50: the read fails, or it gives the 32 bits that are compared with MAGIC. -/
theorem magicCheckOutcomes : Obligations.MagicCheckOutcomes := by
  unfold Obligations.MagicCheckOutcomes
  refine fun s => ⟨fun short => ?short, fun v r hr => ⟨fun other => ?other, fun same => ?same⟩⟩
  case short =>
    rw [exec_magicCheck, magicCheckBody_of_short (s := s.start) short]
    rfl
  case other =>
    rw [exec_magicCheck, magicCheckBody_of_word (s := s.start) hr, if_neg other]
    rfl
  case same =>
    subst same
    exact exec_magicCheck_of_magic hr

end Sys2Proof.Proofs
end

section
/-! DECOMPRESS and COMPRESS as their stages (45_container R193 to R196): a command that ended well stands, when the
next one starts, where its body ended. -/

namespace Sys2Proof.Proofs

open Sys2Proof Sys2Proof.Machine

/-- The body of a command leaves the flags and ERR as a start sets them (10_state R26, R27, R30). -/
theorem start_of_kept {s u : State} (h : s.start.Kept u) : u.start = u := by
  have status : u.start.status = u.status := by
    have busy : u.status.busy = true := h.busy
    have done : u.status.done = false := h.done
    have error : u.status.error = false := h.error
    show Status.mk true false false _ _ = Status.mk u.status.busy u.status.done u.status.error _ _
    rw [busy, done, error]
  have err : u.err = none := h.err
  have info : u.errInfo = none := h.errInfo
  calc u.start = { u with status := u.start.status, err := none, errInfo := none } := rfl
    _ = u := by rw [status, ← err, ← info]

section
variable {i : Instr} {s t : State}

/-- After a command that ended well the next one starts in the state its body ended in. -/
theorem commandBody_of_err_none (hi : i ∈ commands) (h : exec i s = .next t) (he : t.err = none) :
    commandBody i s.start = .ok t.start := by
  rw [exec_command hi] at h
  rcases (commandBody_kept hi s.start).conclude h with ⟨u, hu, kept, rfl⟩ | ⟨k, inf, u, _, _, rfl⟩
  · rw [hu]
    exact congrArg Body.ok (start_of_kept kept).symm
  · cases he

/-- A command that left an error raised it. -/
theorem commandBody_of_err_ne_none (hi : i ∈ commands) (h : exec i s = .next t) (he : t.err ≠ none) :
    ∃ k inf u, commandBody i s.start = .raised k inf u ∧ t = u.abort k inf := by
  rw [exec_command hi] at h
  rcases (commandBody_kept hi s.start).conclude h with ⟨u, _, kept, rfl⟩ | ⟨k, inf, u, hu, _, rfl⟩
  · exact absurd kept.err he
  · exact ⟨k, inf, u, hu, rfl⟩

end

/-! DECOMPRESS. -/

theorem exec_decompress (s : State) : exec .decompress s = (((commandBody .magicCheck s.start).andThen
    (commandBody .hdrDecode)).andThen (commandBody .streamDecode)).conclude :=
  exec_command (by decide) s

/-- DECOMPRESS after two stages that end well is its third (45_container R196). -/
theorem exec_decompress_of_header {s a b : State} (magic : exec .magicCheck s = .next a) (ha : a.err = none)
    (header : exec .hdrDecode a = .next b) (hb : b.err = none) : exec .decompress s = exec .streamDecode b := by
  rw [exec_decompress, commandBody_of_err_none (by decide) magic ha, andThen_ok,
    commandBody_of_err_none (by decide) header hb, andThen_ok, exec_command (by decide)]

/-- An abort of the first stage is DECOMPRESS's, and the node store and both flags stay (45_container R196). -/
theorem exec_decompress_of_magic_abort {s a : State} (magic : exec .magicCheck s = .next a) (ha : a.err ≠ none) :
    exec .decompress s = .next a ∧ a.nodes = s.nodes ∧ a.nodeW = s.nodeW ∧
      a.status.treeValid = s.status.treeValid ∧ a.status.codesValid = s.status.codesValid := by
  have ends : (commandBody .magicCheck s.start).Ends _ _ := magicCheckBody_ends Config.magic s.start
  obtain ⟨k, inf, u, hu, rfl⟩ := commandBody_of_err_ne_none (by decide) magic ha
  rw [hu] at ends
  rw [exec_decompress, hu]
  refine ⟨rfl, ?_⟩
  obtain ⟨_, ⟨_, rfl⟩ | ⟨_, rfl, _⟩⟩ := ends <;> exact ⟨rfl, rfl, rfl, rfl⟩

/-- An abort of the second stage is DECOMPRESS's, and both flags are 0 (45_container R196). -/
theorem exec_decompress_of_header_abort {s a b : State} (magic : exec .magicCheck s = .next a) (ha : a.err = none)
    (header : exec .hdrDecode a = .next b) (hb : b.err ≠ none) :
    exec .decompress s = .next b ∧ b.status.treeValid = false ∧ b.status.codesValid = false := by
  have ends : (commandBody .hdrDecode a.start).Ends _ _ := hdrDecodeBody_ends a.start
  obtain ⟨k, inf, u, hu, rfl⟩ := commandBody_of_err_ne_none (by decide) header hb
  rw [hu] at ends
  rw [exec_decompress, commandBody_of_err_none (by decide) magic ha, andThen_ok, hu]
  obtain ⟨_, _, read, lost, _⟩ := ends
  exact ⟨rfl, lost, by rw [abort_status, read.frame]⟩

/-- HDR_DECODE that ends well leaves a valid tree (42_header_codec R146). -/
theorem treeValid_of_exec_hdrDecode {a b : State} (h : exec .hdrDecode a = .next b) (hb : b.err = none) :
    b.status.treeValid = true := by
  have ends : (commandBody .hdrDecode a.start).Ends _ _ := hdrDecodeBody_ends a.start
  rw [commandBody_of_err_none (by decide) h hb] at ends
  obtain ⟨_, _, valid, _⟩ := ends
  exact valid

/-- STREAM_DECODE keeps a valid tree, however it ends (44_stream_decoder R180). -/
theorem exec_streamDecode_keeps_tree {b c : State} (valid : b.status.treeValid = true)
    (h : exec .streamDecode b = .next c) : c.status.treeValid = true ∧ c.nodes = b.nodes ∧ c.root = b.root := by
  rw [exec_streamDecode_atRoot valid] at h
  rcases decodeLoop_cases (atRoot b) with ⟨u, hu, ⟨n, i, x, rfl, _⟩, _⟩ | ⟨u, hu, ⟨n, i, x, rfl, _⟩, _⟩ <;>
    rw [hu] at h <;> cases h <;> exact ⟨valid, rfl, rfl⟩

/-- What DECOMPRESS changes at most, in terms of the state before its start (45_container R195). -/
theorem decompressed_frame {s u : State} (h : s.start.Decompressed u) : u = { s with
    nodes := u.nodes
    nodeW := u.nodeW
    root := u.root
    nodeCount := u.nodeCount
    cur := u.cur
    bitIn := { data := s.bitIn.data, pos := u.bitIn.pos }
    symOut := u.symOut
    draws := u.draws
    work := u.work
    status := u.status
    err := u.err
    errInfo := u.errInfo } := by
  have data : s.bitIn.data = u.bitIn.data := h.data.symm
  rw [data, h.frame]
  rfl

/-- Settles O54: the frame by the law of DECOMPRESS's body, and each clause by the stage that ends it. -/
theorem decompressIsItsStages : Obligations.DecompressIsItsStages := by
  unfold Obligations.DecompressIsItsStages
  refine ⟨fun s t idle h => ?frame, fun s a b c => ⟨exec_decompress_of_magic_abort, exec_decompress_of_header_abort,
    fun magic ha header hb stream => ?third⟩⟩
  case frame =>
    rw [exec_command (by decide)] at h
    rcases (decompress_ends Config.magic s.start).conclude h with
      ⟨u, _, ⟨changed, done, _⟩, rfl⟩ | ⟨k, inf, u, _, ⟨changed, _⟩, rfl⟩
    · conv_lhs => rw [decompressed_frame changed, done, ← idle]
      rfl
    · conv_lhs => rw [decompressed_frame changed]
      simp only [State.abort, ← idle]
  case third =>
    have valid := treeValid_of_exec_hdrDecode header hb
    exact ⟨(exec_decompress_of_header magic ha header hb).trans stream, exec_streamDecode_keeps_tree valid stream⟩

/-! COMPRESS. -/

/-- `t` is the tree that COMPRESS builds from FREQ: it fits the node store, and its codes are those of the counted
symbols (40_tree_builder R114; 41_code_table R132). -/
structure CountedTree (s : State) (t : Machine.Tree) : Prop where
  stored : (builtState s).tree = some t
  leaves : t.leafCount ≤ 257
  coded : ∀ sym : Fin 257, (t.codeTable.codeOf sym).isSome = true ↔ s.count sym ≠ 0

theorem exists_countedTree_coded (s : State) : ∃ t, CountedTree s t := by
  obtain ⟨t, stored, leaves, syms⟩ := exists_countedTree s
  have depth := depth_lt_leafCount t
  exact ⟨t, stored, leaves, fun sym => (codeTable_codeOf_isSome_iff (by omega) sym).trans (syms sym)⟩

/-- The state the first four stages of COMPRESS leave (45_container R193). -/
def headerWritten (t : Machine.Tree) (s : State) : State :=
  (containerBegun Config.magic t (treeStored s.start)).finish

section
variable {s : State} {t : Machine.Tree}

/-- The stages of COMPRESS between BUILD_TREE and STREAM_ENCODE (45_container R193). -/
theorem exists_stages_to_headerWritten (ht : CountedTree s t) :
    ∃ b c, exec .genCodes (builtState s) = .next b ∧ exec .magicWrite b = .next c ∧
      exec .hdrEncode c = .next (headerWritten t s) ∧ b.err = none ∧ c.err = none :=
  ⟨_, _, exec_genCodes rfl ht.stored, exec_magicWrite _, exec_hdrEncode rfl ht.stored, rfl, rfl⟩

/-- Within the weight bound COMPRESS is STREAM_ENCODE after the other four stages (45_container R193). -/
theorem exec_compress_eq_streamEncode (hb : s.WeightBound) (ht : CountedTree s t) :
    exec .compress s = exec .streamEncode (headerWritten t s) := by
  have within : withinWeightBound Config.weightW s.start.freq = true := (weightBound_iff s).mpr hb
  rw [exec_command (by decide), commandBody, compressBody_eq_encodeLoop _ within ht.stored, exec_streamEncode rfl]
  rfl

end

/-- STREAM_ENCODE with a valid code table ends well or at a symbol without a code (43_stream_encoder R162, R163). -/
theorem exec_streamEncode_cases {s : State} (valid : s.status.codesValid = true) :
    ∃ e, exec .streamEncode s = .next e ∧ (e.err = none ∨ e.err = some .internalEncodingGap) := by
  have ends := encodeLoop_ends s.symIn.rest.length s.start
  rw [exec_streamEncode valid]
  rcases encodeLoop_ends_or_raises s.symIn.rest.length s.start with ⟨u, hu⟩ | ⟨k, inf, u, hu⟩ <;> rw [hu] at ends ⊢
  · exact ⟨_, rfl, .inl ends.kept.err⟩
  · obtain ⟨rfl, _⟩ := ends
    exact ⟨_, rfl, .inr rfl⟩

/-- Settles O51: the first four stages are those of the counted tree, and COMPRESS ends as the fifth does. -/
theorem compressIsItsStages : Obligations.CompressIsItsStages := by
  unfold Obligations.CompressIsItsStages
  intro s hb
  obtain ⟨t, ht⟩ := exists_countedTree_coded s
  obtain ⟨b, c, codes, magic, header, hb', hc⟩ := exists_stages_to_headerWritten ht
  obtain ⟨e, stream, err⟩ := exec_streamEncode_cases (s := headerWritten t s) rfl
  exact ⟨builtState s, b, c, headerWritten t s, e, exec_buildTree_builtState hb, codes, magic, header, stream, rfl, hb',
    hc, rfl, err, (exec_compress_eq_streamEncode hb ht).trans stream⟩

end Sys2Proof.Proofs
end

section
/-! Containers (45_container R193 to R200; 30_encoding R103 to R106): what COMPRESS writes, what DECOMPRESS reads,
and the round trip. -/

namespace Sys2Proof.Proofs

open Sys2Proof Sys2Proof.Machine

/-! What COMPRESS writes. -/

/-- Symbols that all have a code have a body. -/
theorem exists_bodyOf_of_codes {c : CodeTable} {syms : List (Fin 257)} (h : ∀ x ∈ syms, (c.codeOf x).isSome = true) :
    ∃ body, c.bodyOf syms = some body := by
  induction syms with
  | nil => exact ⟨[], rfl⟩
  | cons x syms ih =>
    obtain ⟨hx, hs⟩ := List.forall_mem_cons.mp h
    obtain ⟨code, hc⟩ := Option.isSome_iff_exists.mp hx
    obtain ⟨body, hb⟩ := ih hs
    exact ⟨code ++ body, by simp [CodeTable.bodyOf, hc, hb]⟩

section
variable {s : State} {t : Machine.Tree}

/-- Counted symbols have a body in the code table of the counted tree. -/
theorem CountedTree.exists_bodyOf (ht : CountedTree s t) {syms : List (Fin 257)} (h : ∀ x ∈ syms, s.count x ≠ 0) :
    ∃ body, t.codeTable.bodyOf syms = some body :=
  exists_bodyOf_of_codes fun x hx => (ht.coded x).mpr (h x hx)

/-- EOS is always counted (10_state R38), so it may follow counted bytes. -/
theorem counted_bytes_and_eos {bytes : List Byte} (h : ∀ b ∈ bytes, s.count (byteSym b) ≠ 0) :
    ∀ x ∈ bytes.map byteSym ++ [256], s.count x ≠ 0 :=
  List.forall_mem_append.mpr ⟨List.forall_mem_map.mpr h, List.forall_mem_singleton.mpr one_ne_zero⟩

theorem CountedTree.exists_isTreeAt (ht : CountedTree s t) :
    ∃ is, IsTreeAt (headerWritten t s).nodes (headerWritten t s).root t is :=
  isTreeAt_of_shapeAt _ ht.stored

theorem headerWritten_bitOut (t : Machine.Tree) (s : State) (body : List Bool) :
    (headerWritten t s).bitOut ++ body = s.bitOut ++ (bitsOf 32 Config.magic.toNat ++ t.header ++ body) := by
  simp [headerWritten, containerBegun, treeStored]

/-- COMPRESS of bytes that have a body (45_container R193). -/
theorem exec_compress_of_body (hb : s.WeightBound) (ht : CountedTree s t) {body : List Bool}
    (hbody : t.codeTable.bodyOf (s.symIn.rest.map byteSym ++ [256]) = some body) :
    exec .compress s = .next { ((headerWritten t s).pastSyms s.symIn.rest.length).succeed with
      bitOut := (headerWritten t s).bitOut ++ body } := by
  obtain ⟨stream, _⟩ := streamEncodeResult (headerWritten t s) body rfl hbody
  exact (exec_compress_eq_streamEncode hb ht).trans stream

end

/-- Settles O52: STREAM_ENCODE finds a code for every counted byte and for EOS. -/
theorem compressContainer : Obligations.CompressContainer := by
  unfold Obligations.CompressContainer
  intro s hb counted
  obtain ⟨t, ht⟩ := exists_countedTree_coded s
  obtain ⟨is, tree⟩ := ht.exists_isTreeAt
  obtain ⟨body, hbody⟩ := ht.exists_bodyOf (counted_bytes_and_eos counted)
  refine ⟨_, t, is, body, exec_compress_of_body hb ht hbody, tree, hbody, headerWritten_bitOut t s body, ?length, rfl⟩
  case length =>
    have length := bodyOf_length _ hbody
    show ((headerWritten t s).bitOut ++ body).length = s.bitOut.length + (32 + (11 * t.leafCount - 1) +
      ((s.symIn.rest.map byteSym ++ [256]).map fun (sym : Fin 257) => t.codeTable.len[sym].len.toNat).sum)
    rw [headerWritten_bitOut, ← length, ← header_length]
    simp [Nat.add_assoc]

/-- Settles O53: STREAM_ENCODE has a code for the bytes before the first one without a count, and none for it. -/
theorem compressGap : Obligations.CompressGap := by
  unfold Obligations.CompressGap
  intro s before after b hb hr counted gap
  obtain ⟨t, ht⟩ := exists_countedTree_coded s
  obtain ⟨is, tree⟩ := ht.exists_isTreeAt
  obtain ⟨body, hbody⟩ := ht.exists_bodyOf (List.forall_mem_map.mpr counted)
  have noCode : t.codeTable.codeOf (byteSym b) = none := by
    rw [← Option.not_isSome_iff_eq_none, ht.coded]
    exact not_not.mpr gap
  obtain ⟨stream, _⟩ := streamEncodeGap (headerWritten t s) rfl
  have ended := stream before b after body hr hbody noCode
  exact ⟨_, t, is, body, (exec_compress_eq_streamEncode hb ht).trans ended, rfl, rfl, rfl, rfl, tree, hbody,
    headerWritten_bitOut t s body, rfl⟩

/-! What DECOMPRESS reads. -/

/-- The state the first two stages of DECOMPRESS leave after the header of `t` (45_container R196). -/
def headerPassed (t : Machine.Tree) (s : State) : State :=
  headerDecoded t (s.pastBits 32).succeed

/-- DECOMPRESS at the magic word and a header is STREAM_DECODE of the bits after them (45_container R196). -/
theorem exec_decompress_eq_streamDecode {s : State} {t : Machine.Tree} {r : List Bool}
    (hr : s.bitIn.rest = bitsOf 32 Config.magic.toNat ++ (t.header ++ r)) (leaves : t.leafCount ≤ 257) :
    exec .decompress s = exec .streamDecode (headerPassed t s) ∧ (headerPassed t s).bitIn.rest = r := by
  have rest : (s.pastBits 32).succeed.bitIn.rest = t.header ++ r := by
    have left := pastBits_rest 32 s
    rwa [hr, List.drop_left' (bitsOf_length 32 _)] at left
  exact ⟨exec_decompress_of_header (exec_magicCheck_of_magic hr) rfl (exec_hdrDecode_of_header rest leaves) rfl,
    headerDecoded_rest rest⟩

/-- Settles O55: after the magic word and the header STREAM_DECODE reads the codes in the tree they gave. -/
theorem decompressContainer : Obligations.DecompressContainer := by
  unfold Obligations.DecompressContainer
  intro s t body stop r leaves codes code eos hr
  simp only [List.append_assoc] at hr
  obtain ⟨decompress, rest⟩ := exec_decompress_eq_streamDecode hr leaves
  have tree : IsTreeAt (headerPassed t s).nodes (headerPassed t s).root t _ := headerDecoded_isTreeAt leaves
  have preorder : PreorderAt (headerPassed t s).nodes 0 t.size t := headerDecoded_preorderAt leaves
  have count : (headerPassed t s).nodeCount.val = t.size := headerDecoded_nodeCount leaves
  obtain ⟨c, leaf, stream⟩ := streamDecodeResult (headerPassed t s) t _ body stop r rfl tree codes code eos
    (by rw [rest, List.append_assoc])
  refine ⟨_, decompress.trans stream, preorder, rfl, count, leaf, rfl, ?rest, ?frame⟩
  case rest =>
    have left := pastBits_rest ((body.flatMap Prod.snd).length + stop.2.length) (headerPassed t s)
    rwa [rest, ← List.append_assoc, List.drop_left' List.length_append] at left
  case frame =>
    have pos : s.bitIn.pos + (32 + (11 * t.leafCount - 1) + (body.flatMap Prod.snd).length + stop.2.length)
        = s.bitIn.pos + 32 + t.header.length + ((body.flatMap Prod.snd).length + stop.2.length) := by
      rw [header_length]
      omega
    rw [pos]
    rfl

/-! The round trip. -/

/-- A body is a row of codes of the tree, one for each symbol (30_encoding R106; 41_code_table R129). -/
theorem exists_codes_of_bodyOf {t : Machine.Tree} (depth : t.depth ≤ 256) {syms : List (Fin 257)} {body : List Bool}
    (h : t.codeTable.bodyOf syms = some body) : ∃ es : List (Sym × List Bool), (∀ e ∈ es, e ∈ t.codePaths) ∧
      (es.map fun e => e.1.toNat) = syms.map Fin.val ∧ body = es.flatMap Prod.snd := by
  induction syms generalizing body with
  | nil =>
    cases h
    exact ⟨[], nofun, rfl, rfl⟩
  | cons x syms ih =>
    obtain ⟨code, hc, h⟩ := Option.bind_eq_some_iff.mp h
    obtain ⟨body, hb, rfl⟩ := Option.map_eq_some_iff.mp h
    rw [codeTable_codeOf t depth] at hc
    obtain ⟨sym, val, path⟩ := lastCode_mem hc
    obtain ⟨es, paths, vals, rfl⟩ := ih hb
    exact ⟨(sym, code) :: es, List.forall_mem_cons.mpr ⟨path, paths⟩, by simp [val, vals], by simp⟩

theorem byteSym_val (b : Byte) : (byteSym b).val = b.toNat :=
  Nat.mod_eq_of_lt (b.isLt.trans (by decide))

/-- The symbols that are bytes are not EOS, and their low eight bits are the bytes (00_scope R17). -/
theorem bytes_of_symbols {syms : List Sym} {bytes : List Byte}
    (h : syms.map BitVec.toNat = bytes.map BitVec.toNat) :
    (∀ x ∈ syms, x ≠ 256) ∧ (syms.map fun x => x.setWidth 8) = bytes := by
  constructor
  · intro x hx eos
    have mem : x.toNat ∈ bytes.map BitVec.toNat := h ▸ List.mem_map_of_mem hx
    obtain ⟨b, _, hb⟩ := List.mem_map.mp mem
    have lt := b.isLt
    rw [hb, eos] at lt
    exact absurd lt (by decide)
  · have low := congrArg (List.map (BitVec.ofNat 8)) h
    simpa [Function.comp_def] using low

/-- A body of bytes and EOS is a row of codes whose symbols are the bytes, and then a code of EOS. -/
theorem exists_codes_of_bytes {t : Machine.Tree} (depth : t.depth ≤ 256) {bytes : List Byte} {body : List Bool}
    (h : t.codeTable.bodyOf (bytes.map byteSym ++ [256]) = some body) :
    ∃ (es : List (Sym × List Bool)) (stop : Sym × List Bool),
      (∀ e ∈ es, e ∈ t.codePaths ∧ e.1 ≠ 256) ∧ stop ∈ t.codePaths ∧ stop.1 = 256 ∧
      (es.map fun e => e.1.setWidth 8) = bytes ∧ body = es.flatMap Prod.snd ++ stop.2 := by
  obtain ⟨all, paths, vals, rfl⟩ := exists_codes_of_bodyOf depth h
  rw [List.map_append, List.map_map] at vals
  obtain ⟨es, last, rfl, bytesVals, lastVal⟩ := List.map_eq_append_iff.mp vals
  obtain ⟨stop, rfl, stopVal⟩ := List.map_eq_singleton_iff.mp lastVal
  have symbols : (es.map Prod.fst).map BitVec.toNat = bytes.map BitVec.toNat := by
    simpa [Function.comp_def, byteSym_val] using bytesVals
  obtain ⟨notEos, low⟩ := bytes_of_symbols symbols
  refine ⟨es, stop, fun e he => ⟨paths e (List.mem_append_left _ he), notEos _ (List.mem_map_of_mem he)⟩,
    paths stop (by simp), eos_iff.mp stopVal, ?_, by simp⟩
  rwa [List.map_map] at low

/-- The bytes of a presented input are counted (70_reset_and_hazards R236). -/
theorem count_ne_zero_of_presented {s : State} {input : List Byte} (h : s.Presented input) {b : Byte}
    (hb : b ∈ input) : s.count (byteSym b) ≠ 0 := by
  have lt : (byteSym b).val < 256 := byteSym_val b ▸ b.isLt
  have freq := h.freq ⟨(byteSym b).val, lt⟩
  have byte : BitVec.ofNat 8 (byteSym b).val = b := by rw [byteSym_val, BitVec.ofNat_toNat, BitVec.setWidth_eq]
  rw [byte] at freq
  rw [State.count, dif_pos lt]
  exact freq.trans_ne (List.count_pos_iff.mpr hb).ne'

/-- Settles O56: COMPRESS's body is a row of codes of its tree, which DECOMPRESS decodes and reads the row in. -/
theorem roundTrip : Obligations.RoundTrip := by
  unfold Obligations.RoundTrip
  intro s input presented
  obtain ⟨_, _, length⟩ := weightBoundRule
  have bound : s.WeightBound := (length s input presented.freq).mpr presented.short
  have rest : s.symIn.rest = input := by rw [presented.symIn]; rfl
  obtain ⟨t, ht⟩ := exists_countedTree_coded s
  obtain ⟨body, hbody⟩ := ht.exists_bodyOf (counted_bytes_and_eos fun _ => count_ne_zero_of_presented presented)
  have depth := depth_lt_leafCount t
  have leaves := ht.leaves
  obtain ⟨es, stop, codes, code, eos, bytes, rfl⟩ := exists_codes_of_bytes (by omega) hbody
  refine ⟨_, _, exec_compress_of_body bound ht (rest ▸ hbody), rfl, rfl, headerWritten_bitOut t s _, fun v r hr => ?_⟩
  obtain ⟨w, decompress, _, _, _, _, out, left, frame⟩ := decompressContainer v t es stop r leaves codes code eos
    (by rw [hr]; simp only [List.append_assoc])
  rw [bytes] at out
  refine ⟨w, decompress, by rw [frame], by rw [frame], out, ?position, left⟩
  case position =>
    rw [frame]
    simp [header_length, Nat.add_assoc]

end Sys2Proof.Proofs
end

section
/-! Errors (60_exceptions R206 to R213): what each command can raise, the sequence checks, and the order of the two
validity flags. -/

namespace Sys2Proof.Proofs

open Sys2Proof Sys2Proof.Machine

/-! What a command can raise. -/

/-- Instruction `i` can raise the error with this value of ERR_INFO (60_exceptions R206, R213). IllegalCommand
belongs to words that are no instruction (R207). -/
def MayRaise (i : Instr) : ErrKind → Option Word → Prop
  | .badMagicHeader, info => i ∈ [Instr.magicCheck, .decompress] ∧
      (info = none ∨ ∃ v, v ≠ Config.magic ∧ info = some v)
  | .malformedHeader, info => i ∈ [Instr.hdrDecode, .decompress] ∧ info = none
  | .truncatedStream, info => i ∈ [Instr.streamDecode, .decompress] ∧ info = none
  | .internalEncodingGap, info => i ∈ [Instr.streamEncode, .compress] ∧
      ∃ sym : Fin 257, info = some (BitVec.ofNat 32 sym.val)
  | .illegalCommand, _ => False
  | .sequenceError, info => i ∈ [Instr.genCodes, .hdrEncode, .streamEncode, .streamDecode] ∧
      info = some (BitVec.ofNat 32 (encodeWord i))
  | .capacityExceeded, info => i ∈ [Instr.hdrDecode, .decompress] ∧ info = none

/-- A header that cannot be decoded gives no value (60_exceptions R213). -/
theorem mayRaise_of_header {i : Instr} {k : ErrKind} (hi : i ∈ [Instr.hdrDecode, .decompress])
    (hk : k = .malformedHeader ∨ k = .capacityExceeded) : MayRaise i k none := by
  rcases hk with rfl | rfl <;> exact ⟨hi, rfl⟩

/-- Every error of a command's body is one the command may raise. -/
theorem commandBody_mayRaise (i : Instr) (s : State) :
    (commandBody i s).Ends (fun _ => True) (fun k info _ => MayRaise i k info) := by
  cases i with
  | buildTree => exact (buildTreeBody_ends _ s).imp (fun _ _ => trivial) fun _ _ _ h => h.elim
  | genCodes =>
    refine (genCodesBody_ends s).imp (fun _ _ => trivial) ?_
    rintro _ _ _ ⟨_, rfl, rfl, _⟩
    exact ⟨by decide, rfl⟩
  | hdrEncode =>
    refine (hdrEncodeBody_ends s).imp (fun _ _ => trivial) ?_
    rintro _ _ _ ⟨_, rfl, rfl, _⟩
    exact ⟨by decide, rfl⟩
  | hdrDecode =>
    refine (hdrDecodeBody_ends s).imp (fun _ _ => trivial) ?_
    rintro k _ _ ⟨hk, rfl, _⟩
    exact mayRaise_of_header (by decide) hk
  | streamEncode =>
    refine (streamEncodeBody_ends s).imp (fun _ _ => trivial) ?_
    rintro _ _ _ (⟨_, rfl, rfl, _⟩ | ⟨_, rfl, gap, _⟩)
    · exact ⟨by decide, rfl⟩
    · exact ⟨by decide, gap⟩
  | streamDecode =>
    refine (streamDecodeBody_ends s).imp (fun _ _ => trivial) ?_
    rintro _ _ _ (⟨_, rfl, rfl, _⟩ | ⟨_, rfl, rfl, _⟩)
    · exact ⟨by decide, rfl⟩
    · exact ⟨by decide, rfl⟩
  | magicWrite => trivial
  | magicCheck =>
    refine (magicCheckBody_ends _ s).imp (fun _ _ => trivial) ?_
    rintro _ _ _ ⟨rfl, value⟩
    exact ⟨by decide, value.imp And.left And.left⟩
  | compress =>
    refine (compress_ends _ _ s).imp (fun _ _ => trivial) ?_
    rintro _ _ _ ⟨rfl, gap, _⟩
    exact ⟨by decide, gap⟩
  | decompress =>
    refine (decompress_ends _ s).imp (fun _ _ => trivial) ?_
    rintro k _ _ ⟨_, ⟨rfl, value, _⟩ | ⟨hk, rfl, _⟩ | ⟨rfl, rfl, _⟩⟩
    · exact ⟨by decide, value⟩
    · exact mayRaise_of_header (by decide) hk
    · exact ⟨by decide, rfl⟩
  | internal | leaf => trivial

/-- What ERR and ERR_INFO hold after a command (10_state R30; 60_exceptions R206, R213). -/
theorem exec_command_error {i : Instr} (hi : i ∈ commands) {s t : State} (h : exec i s = .next t) :
    (t.err = none ∧ t.errInfo = none) ∨ ∃ k, t.err = some k ∧ MayRaise i k t.errInfo := by
  have kept := commandBody_kept hi s.start
  rw [exec_command hi] at h
  rcases (commandBody_mayRaise i s.start).conclude h with ⟨u, hu, _, rfl⟩ | ⟨k, info, u, _, raised, rfl⟩
  · rw [hu] at kept
    exact .inl ⟨kept.err, kept.errInfo⟩
  · exact .inr ⟨k, rfl, raised⟩

/-- Settles O25: no error leaves no value, and for each kind `MayRaise` is the clause. -/
theorem errorKinds : Obligations.ErrorKinds := by
  unfold Obligations.ErrorKinds
  intro i hi s t h
  rcases exec_command_error hi h with ⟨err, info⟩ | ⟨k, err, raised⟩
  · rw [err]
    exact info
  · rw [err]
    cases k <;> exact raised

/-! The sequence checks (60_exceptions R208). -/

/-- An abort on an idle core with no effect before it. -/
theorem start_abort_of_idle {s : State} (hw : s.work = none) (hb : s.status.busy = false) (k : ErrKind)
    (info : Option Word) : s.start.abort k info = { s with
      status := { s.status with done := false, error := true }
      err := some k
      errInfo := info } := by
  simp only [State.abort, State.start, hb, hw]

/-- A command that needs a valid tree and finds none. -/
theorem commandBody_of_no_tree {s : State} (ht : s.status.treeValid = false) {i : Instr}
    (hi : i ∈ [Instr.genCodes, .hdrEncode, .streamDecode]) :
    commandBody i s = .raised .sequenceError (some (BitVec.ofNat 32 (encodeWord i))) s := by
  fin_cases hi <;>
    simp only [commandBody, genCodesBody, hdrEncodeBody, streamDecodeBody, ht, needs_false, encodeWord]

/-- STREAM_ENCODE needs a valid code table. -/
theorem streamEncodeBody_of_no_codes {s : State} (hc : s.status.codesValid = false) :
    streamEncodeBody s = .raised .sequenceError (some 0x5) s := by
  rw [streamEncodeBody, hc, needs_false]
  rfl

/-! The order of the validity flags. -/

/-- CODES_VALID = 1 implies TREE_VALID = 1 (60_exceptions R208). -/
def FlagsOrdered (s : State) : Prop :=
  s.status.codesValid = true → s.status.treeValid = true

theorem flagsOrdered_of_no_codes {s : State} (h : s.status.codesValid = false) : FlagsOrdered s := by
  simp [FlagsOrdered, h]

theorem flagsOrdered_of_headerRead {s u : State} (h : s.HeaderRead u) : FlagsOrdered u :=
  flagsOrdered_of_no_codes (by rw [h.frame])

theorem flagsOrdered_of_compressed {s u : State} (h : s.Compressed u) : FlagsOrdered u := by
  rw [h.frame]
  exact fun _ => rfl

theorem FlagsOrdered.encoded {s u : State} (h : FlagsOrdered s) (e : s.Encoded u) : FlagsOrdered u := by
  obtain ⟨_, _, rfl, _⟩ := e
  exact h

theorem FlagsOrdered.decoded {s u : State} (h : FlagsOrdered s) (e : s.Decoded u) : FlagsOrdered u := by
  obtain ⟨_, _, _, rfl, _⟩ := e
  exact h

/-- A header that is incomplete leaves the flags, and a complete one sets TREE_VALID (42_header_codec R146). -/
theorem FlagsOrdered.built {s u : State} (h : FlagsOrdered s) (hb : s.Built u) : FlagsOrdered u := by
  rcases hw : u.work with _ | w
  · exact fun _ => hb.complete hw
  · rw [FlagsOrdered, (hb.running w hw).1]
    exact h

/-- A command's body keeps the flags in order, however it ends. -/
theorem commandBody_flagsOrdered (i : Instr) {s : State} (h : FlagsOrdered s) :
    (commandBody i s).Ends FlagsOrdered (fun _ _ => FlagsOrdered) := by
  cases i with
  | buildTree =>
    refine (buildTreeBody_ends _ s).imp ?_ fun _ _ _ raised => raised.elim
    rintro _ ⟨_, rfl⟩
    exact fun _ => rfl
  | genCodes =>
    refine (genCodesBody_ends s).imp ?_ ?_
    · rintro _ ⟨valid, _, _, rfl⟩
      exact fun _ => valid
    · rintro _ _ _ ⟨_, _, _, rfl⟩
      exact h
  | hdrEncode =>
    refine (hdrEncodeBody_ends s).imp ?_ ?_
    · rintro _ ⟨_, _, _, rfl⟩
      exact h
    · rintro _ _ _ ⟨_, _, _, rfl⟩
      exact h
  | hdrDecode =>
    refine (hdrDecodeBody_ends s).imp ?_ ?_
    · rintro u ⟨read, _⟩
      exact flagsOrdered_of_headerRead read
    · rintro _ _ u ⟨_, _, read, _⟩
      exact flagsOrdered_of_headerRead read
  | streamEncode =>
    refine (streamEncodeBody_ends s).imp (fun _ ended => h.encoded ended.2) ?_
    rintro _ _ _ (⟨_, _, _, rfl⟩ | ⟨_, _, _, encoded⟩)
    · exact h
    · exact h.encoded encoded
  | streamDecode =>
    refine (streamDecodeBody_ends s).imp (fun _ ended => h.decoded ended.2.1) ?_
    rintro _ _ _ (⟨_, _, _, rfl⟩ | ⟨_, _, _, decoded, _⟩)
    · exact h
    · exact h.decoded decoded
  | magicWrite => exact h
  | magicCheck =>
    refine (magicCheckBody_ends _ s).imp ?_ ?_
    · rintro _ ⟨_, rfl, _⟩
      exact h
    · rintro _ _ _ ⟨_, ⟨_, rfl⟩ | ⟨_, rfl, _⟩⟩ <;> exact h
  | compress =>
    exact (compress_ends _ _ s).imp (fun _ ended => flagsOrdered_of_compressed ended)
      fun _ _ _ raised => flagsOrdered_of_compressed raised.2.2
  | decompress =>
    refine (decompress_ends _ s).imp ?_ ?_
    · rintro _ ⟨_, _, valid, _⟩
      exact fun _ => valid
    · rintro _ _ u ⟨_, ⟨_, _, _, rfl⟩ | ⟨_, _, _, noCodes⟩ | ⟨_, _, valid, _⟩⟩
      · exact h
      · exact flagsOrdered_of_no_codes noCodes
      · exact fun _ => valid
  | internal | leaf => trivial

theorem exec_command_flagsOrdered {i : Instr} (hi : i ∈ commands) {s t : State} (h : FlagsOrdered s)
    (ht : exec i s = .next t) : FlagsOrdered t := by
  have started : FlagsOrdered s.start := h
  rw [exec_command hi] at ht
  rcases (commandBody_flagsOrdered i started).conclude ht with ⟨u, _, hu, rfl⟩ | ⟨k, info, u, _, hu, rfl⟩ <;>
    exact hu

theorem exec_token_flagsOrdered {i : Instr} (hi : i ∉ commands) {s t : State} (h : FlagsOrdered s)
    (ht : exec i s = .next t) : FlagsOrdered t := by
  rw [exec_token hi] at ht
  rcases hw : s.work with _ | w
  · rw [tokenBody_idle i hw] at ht
    cases ht
  · have ends := tokenBody_ends (i := i) hw
    obtain ⟨u, hb, ht⟩ | ⟨k, info, u, hb, rfl⟩ := concludeToken_next ht
    · rw [hb] at ends
      have hu : FlagsOrdered u := h.built ends.1
      obtain rfl | rfl := ht <;> exact hu
    · rw [hb] at ends
      obtain ⟨_, _, rfl⟩ := ends
      exact h

/-- Settles O24: a failed check raises before any effect, `MayRaise` gives SequenceError to the four commands that
check, and commands and tokens keep the flags in order. -/
theorem sequenceErrors : Obligations.SequenceErrors := by
  unfold Obligations.SequenceErrors
  refine ⟨fun s hw hb => ⟨fun ht i hi => ?noTree, fun hc => ?noCodes⟩, fun i hi s t h err => ?never,
    fun i s t ordered h => ?flags⟩
  case noTree =>
    have command : i ∈ commands := by fin_cases hi <;> decide
    rw [exec_command command, commandBody_of_no_tree (s := s.start) ht hi, conclude_raised, start_abort_of_idle hw hb]
  case noCodes =>
    rw [exec_command (by decide), commandBody, streamEncodeBody_of_no_codes (s := s.start) hc, conclude_raised,
      start_abort_of_idle hw hb]
  case never =>
    have command : i ∈ commands := by fin_cases hi <;> decide
    rcases exec_command_error command h with ⟨noErr, _⟩ | ⟨k, kind, raised⟩
    · cases noErr.symm.trans err
    · cases kind.symm.trans err
      obtain ⟨checks, _⟩ := raised
      fin_cases hi <;> exact absurd checks (by decide)
  case flags =>
    by_cases hi : i ∈ commands
    · exact exec_command_flagsOrdered hi ordered h
    · exact exec_token_flagsOrdered hi ordered h

end Sys2Proof.Proofs
end

section
/-! Resets (70_reset_and_hazards R231 to R235): what the reset input leaves, and how each command ends from the reset
state. -/

namespace Sys2Proof.Proofs

open Sys2Proof Sys2Proof.Machine

/-! The reset input (70_reset_and_hazards R231 to R234). -/

/-- The reset input outside a header decode takes effect whatever BUSY is (70_reset_and_hazards R231, R240). -/
theorem step_reset {s : State} {ops : List HostOp} (hw : s.work = none) (hh : s.host = .reset :: ops) :
    step s = .next { s with host := ops }.resetCore := by
  rw [step_host hw hh]
  rfl

/-- The registers that hold an entry of the node store or the code table, which a reset leaves free (10_state R46). -/
def IsTableEntry : Reg → Prop
  | .node _ | .nodeW _ | .codeLen _ | .codeVal _ _ => True
  | .cmd | .status | .err | .errInfo | .root | .nodeCount | .cur | .magic | .param | .freq _ => False

/-- Every other register reads after the reset input as after power-on (70_reset_and_hazards R231). -/
theorem readReg_resetCore {r : Reg} (h : ¬ IsTableEntry r) (s : State) :
    readReg r s.resetCore = readReg r State.reset := by
  cases r with
  | node | nodeW | codeLen | codeVal => exact absurd trivial h
  | cmd | status | err | errInfo | root | nodeCount | cur | magic | param | freq =>
    simp only [readReg, State.errWord, State.errInfoWord, State.resetCore]

/-- Settles O20: apart from the tables the reset input leaves the registers of the power-on state, whose values
are known. -/
theorem resetInput : Obligations.ResetInput := by
  unfold Obligations.ResetInput
  intro s ops hw hh
  have read {r : Reg} (h : ¬ IsTableEntry r) := readReg_resetCore h { s with host := ops }
  obtain ⟨cmd, status, err, errInfo, root, nodeCount, cur, _, _, freq, _⟩ := resetState
  exact ⟨{ s with host := ops }.resetCore, step_reset hw hh, (read id).trans cmd, (read id).trans status,
    (read id).trans err, (read id).trans errInfo, (read id).trans root, (read id).trans nodeCount,
    (read id).trans cur, fun sym => (read id).trans (freq sym), rfl, rfl, rfl, rfl, rfl, rfl, rfl, rfl⟩

/-! Commands from the reset state (70_reset_and_hazards R235). -/

/-- BUILD_TREE from reset builds the tree of EOS alone (40_tree_builder R118). -/
theorem exec_buildTree_reset : ∃ t, exec .buildTree State.reset = .next t ∧ t.nodes[(0 : NodeIdx)] = .leaf 256 ∧
    t.root = 0 ∧ t.nodeCount = 1 ∧ t.nodeW[(0 : NodeIdx)] = 1 := by
  obtain ⟨command, width_pos, width_le, small⟩ := smallTrees
  obtain ⟨single, _⟩ := small Config.weightW State.reset width_pos width_le
  obtain ⟨t, ht, leaf, weight, root, nodeCount⟩ := single fun x => by simp [State.reset]
  exact ⟨t, (command _).trans ht, leaf, root, nodeCount, weight⟩

theorem weightBound_reset : State.reset.WeightBound := by
  obtain ⟨t, ht, _⟩ := exec_buildTree_reset
  exact (eq_builtState ht).1

/-- A command that needs a tree or a code table finds none (60_exceptions R208). -/
theorem exec_reset_sequenceError {i : Instr} (hi : i ∈ [Instr.genCodes, .hdrEncode, .streamDecode, .streamEncode]) :
    ∃ t, exec i State.reset = .next t ∧ t.err = some .sequenceError := by
  obtain ⟨checks, _⟩ := sequenceErrors
  obtain ⟨noTree, noCodes⟩ := checks State.reset rfl rfl
  by_cases stream : i = .streamEncode
  · subst stream
    exact ⟨_, noCodes rfl, rfl⟩
  · exact ⟨_, noTree rfl i (by simpa [stream] using hi), rfl⟩

/-- With BIT_IN empty there is no magic word (45_container R189). -/
theorem exec_magicCheck_reset :
    exec .magicCheck State.reset = .next (State.reset.abort .badMagicHeader none) := by
  obtain ⟨short, _⟩ := magicCheckOutcomes State.reset
  exact short (by decide)

/-- A command that needs neither a tree nor a code table answers a next state. -/
theorem exec_reset_ends {i : Instr}
    (hi : i ∈ [Instr.buildTree, .hdrDecode, .magicWrite, .magicCheck, .compress, .decompress]) :
    ∃ t, exec i State.reset = .next t := by
  cases i with
  | buildTree => exact ⟨_, exec_buildTree_builtState weightBound_reset⟩
  | hdrDecode =>
    obtain ⟨_, total⟩ := headerDecodeTotal
    exact (total State.reset).imp fun _ ⟨ended, _⟩ => ended
  | magicWrite => exact ⟨_, exec_magicWrite _⟩
  | magicCheck => exact ⟨_, exec_magicCheck_reset⟩
  | compress =>
    obtain ⟨_, _, _, _, e, _, _, _, _, _, _, _, _, _, _, compress⟩ :=
      compressIsItsStages State.reset weightBound_reset
    exact ⟨e, compress⟩
  | decompress =>
    obtain ⟨aborted, _⟩ := exec_decompress_of_magic_abort exec_magicCheck_reset nofun
    exact ⟨_, aborted⟩
  | genCodes | hdrEncode | streamEncode | streamDecode | internal | leaf => simp at hi

/-- A command checks for a tree or a code table, or it is one of the other six (60_exceptions R208). -/
theorem needs_result_or_not : ∀ i ∈ commands,
    i ∈ [Instr.genCodes, .hdrEncode, .streamDecode, .streamEncode] ∨
      i ∈ [Instr.buildTree, .hdrDecode, .magicWrite, .magicCheck, .compress, .decompress] := by
  decide

/-- Settles O22: the four commands with a sequence check fail it, the other six end and never raise SequenceError,
and FREQ at reset is the all-zero table. -/
theorem commandsFromReset : Obligations.CommandsFromReset := by
  unfold Obligations.CommandsFromReset
  refine ⟨fun i hi => ?ends, exec_buildTree_reset⟩
  obtain ⟨_, never, _⟩ := sequenceErrors
  by_cases checks : i ∈ [Instr.genCodes, .hdrEncode, .streamDecode, .streamEncode]
  · obtain ⟨t, ht, err⟩ := exec_reset_sequenceError checks
    exact ⟨t, ht, iff_of_true err checks⟩
  · have free := (needs_result_or_not i hi).resolve_left checks
    obtain ⟨t, ht⟩ := exec_reset_ends free
    exact ⟨t, ht, iff_of_false (never i free _ t ht) checks⟩

end Sys2Proof.Proofs
end
